-- ==== Sys2Proof/Word.lean ====
section
/-! DEFINITION. The words of the RTW ECC core and the small sets of names its rules use. -/

namespace Sys2Proof

/-- A limb, and the width of every host transaction and control register (00_scope.md R5, R12). -/
abbrev Limb := BitVec 64

/-- A VLI: one operand or descriptor register, 256 bits (R5, R32). -/
abbrev Vli := BitVec 256

/-- A double-width value, held in a register pair (R33). -/
abbrev DoubleVli := BitVec 512

/-- A register field of a command: V[0] to V[15] (R112). -/
abbrev Reg := BitVec 4

/-- A pair operand: pair `k` is the registers `2k` (low half, or x) and `2k + 1` (high half, or y).
R113 admits even register fields only, so a pair is named by the field's upper three bits. -/
abbrev Pair := BitVec 3

/-- The constants LDC can load (R115). -/
inductive Sel where
  | p | n | halfn | b | gx | gy
  deriving DecidableEq, Repr

/-- CFG.MODE: the two curve classes (R10, R38). -/
inductive Mode where
  | fast | generic
  deriving DecidableEq, Repr

/-- The four error codes (60_exceptions.md R271). -/
inductive ErrorCode where
  | illegalOpcode | illegalField | curve | operand
  deriving DecidableEq, Repr

/-- The response code of a host transaction (R81). -/
inductive Resp where
  | okay | slverr
  deriving DecidableEq, Repr, Inhabited

/-- What the host sees of a transaction: a read's data and response, or a write's response (R81). -/
inductive Response where
  | read (data : Limb) (resp : Resp)
  | write (resp : Resp)
  deriving DecidableEq, Repr, Inhabited

end Sys2Proof
end

