-- ==== Sys2Proof/Syntax.lean ====
section
/-! DEFINITION. The commands, one constructor per row of spec/opcode_table.json (30_encoding.md R116), with
the operands in the order of R126. -/

namespace Sys2Proof

/-- A decoded command. -/
inductive Instr where
  /-- NOP (R141). -/
  | nop
  /-- ADD rd, ra, rb (R142). -/
  | add (rd ra rb : Reg)
  /-- SUB rd, ra, rb (R143). -/
  | sub (rd ra rb : Reg)
  /-- MUL rdp, ra, rb (R144). -/
  | mul (rdp : Pair) (ra rb : Reg)
  /-- SQR rdp, ra (R145). -/
  | sqr (rdp : Pair) (ra : Reg)
  /-- SHL rd, ra, s (R146). -/
  | shl (rd ra : Reg) (s : BitVec 8)
  /-- SHR rd, ra, s (R147). -/
  | shr (rd ra : Reg) (s : BitVec 8)
  /-- CMPCT ra, rb (R148). -/
  | cmpct (ra rb : Reg)
  /-- CMPVT ra, rb (R149). -/
  | cmpvt (ra rb : Reg)
  /-- MOV rd, ra (R150). -/
  | mov (rd ra : Reg)
  /-- LDC rd, SEL (R151). -/
  | ldc (rd : Reg) (sel : Sel)
  /-- WIPE (R152). -/
  | wipe
  /-- MODADD rd, ra, rb, rc (R182). -/
  | modadd (rd ra rb rc : Reg)
  /-- MODSUB rd, ra, rb, rc (R183). -/
  | modsub (rd ra rb rc : Reg)
  /-- MMOD rd, rap, rc (R185). -/
  | mmod (rd : Reg) (rap : Pair) (rc : Reg)
  /-- MODINV rd, ra, rc (R187). -/
  | modinv (rd ra rc : Reg)
  /-- FMUL rd, ra, rb (R201). -/
  | fmul (rd ra rb : Reg)
  /-- FSQR rd, ra (R202). -/
  | fsqr (rd ra : Reg)
  /-- FRED rd, rap (R203). -/
  | fred (rd : Reg) (rap : Pair)
  /-- DBLJ rx, ry, rz (R223). -/
  | dblj (rx ry rz : Reg)
  /-- XYCZADD rx1, ry1, rx2, ry2 (R224). -/
  | xyczadd (rx1 ry1 rx2 ry2 : Reg)
  /-- XYCZADDC rx1, ry1, rx2, ry2 (R225). -/
  | xyczaddc (rx1 ry1 rx2 ry2 : Reg)
  /-- PADD rdp, rap, rbp (R226). -/
  | padd (rdp rap rbp : Pair)
  /-- PMUL rdp, rap, rb (R241). -/
  | pmul (rdp rap : Pair) (rb : Reg)
  deriving DecidableEq, Repr

end Sys2Proof
end

