-- ==== Sys2Proof/WellFormed.lean ====
section
/-! DEFINITION. The checks on a command's operands that its syntax does not already make impossible: the
in-place operands of DBLJ, XYCZADD and XYCZADDC are different registers (30_encoding.md R118). Even pair
fields (R113) and LDC's six selectors (R115) are in the operands' types. -/

namespace Sys2Proof

/-- Three different registers (R118, DBLJ). -/
def distinct3 (a b c : Reg) : Bool := a != b && a != c && b != c

/-- Four different registers (R118, XYCZADD and XYCZADDC). -/
def distinct4 (a b c d : Reg) : Bool := distinct3 a b c && a != d && b != d && c != d

/-- The command meets the operand checks of R118. -/
def Instr.wf : Instr → Bool
  | .nop => true
  | .add _ _ _ => true
  | .sub _ _ _ => true
  | .mul _ _ _ => true
  | .sqr _ _ => true
  | .shl _ _ _ => true
  | .shr _ _ _ => true
  | .cmpct _ _ => true
  | .cmpvt _ _ => true
  | .mov _ _ => true
  | .ldc _ _ => true
  | .wipe => true
  | .modadd _ _ _ _ => true
  | .modsub _ _ _ _ => true
  | .mmod _ _ _ => true
  | .modinv _ _ _ => true
  | .fmul _ _ _ => true
  | .fsqr _ _ => true
  | .fred _ _ => true
  | .dblj rx ry rz => distinct3 rx ry rz
  | .xyczadd rx1 ry1 rx2 ry2 => distinct4 rx1 ry1 rx2 ry2
  | .xyczaddc rx1 ry1 rx2 ry2 => distinct4 rx1 ry1 rx2 ry2
  | .padd _ _ _ => true
  | .pmul _ _ _ => true

end Sys2Proof
end

