-- ==== Sys2Proof/Decode.lean ====
section
/-! DEFINITION. Decoding a 64-bit CMD value, with the first two checks of 30_encoding.md R121
(ILLEGAL_OPCODE, then ILLEGAL_FIELD), and after it the encoder (R124). -/

namespace Sys2Proof

/-! ## The fields of a CMD value (R110, R111) -/

/-- OPC, bits 7:0. -/
def opcOf (w : Limb) : BitVec 8 := w.extractLsb' 0 8

/-- RD, bits 11:8. -/
def rdOf (w : Limb) : Reg := w.extractLsb' 8 4

/-- RA, bits 15:12. -/
def raOf (w : Limb) : Reg := w.extractLsb' 12 4

/-- RB, bits 19:16. -/
def rbOf (w : Limb) : Reg := w.extractLsb' 16 4

/-- RC, bits 23:20. -/
def rcOf (w : Limb) : Reg := w.extractLsb' 20 4

/-- IMM8, bits 31:24. -/
def immOf (w : Limb) : BitVec 8 := w.extractLsb' 24 8

/-- Bits 63:32, which must be zero (R110). -/
def upperOf (w : Limb) : BitVec 32 := w.extractLsb' 32 32

/-- A pair field is legal when it is even (R113). -/
def isEven (r : Reg) : Bool := !r.getLsbD 0

/-- The pair an even field names (R113). -/
def pairOf (r : Reg) : Pair := r.extractLsb' 1 3

/-- The even field that names a pair (R113). -/
def evenField (p : Pair) : Reg := p ++ 0#1

/-- LDC's selector in the RA field; 6 to 15 select nothing (R115). -/
def selOf (r : Reg) : Option Sel :=
  match r with
  | 0#4 => some .p
  | 1#4 => some .n
  | 2#4 => some .halfn
  | 3#4 => some .b
  | 4#4 => some .gx
  | 5#4 => some .gy
  | _ => none

/-- The RA field of an LDC selector (R115). -/
def selField : Sel → Reg
  | .p => 0#4
  | .n => 1#4
  | .halfn => 2#4
  | .b => 3#4
  | .gx => 4#4
  | .gy => 5#4

/-! ## Decoding -/

/-- A legal opcode's field check (R121): bits 63:32 and the fields the opcode does not use are zero (R117),
its pair fields are even (R113), and its in-place fields are distinct (R118). `fields` says the second and
third for the opcode; the fourth is the command's own well-formedness. -/
def accept (w : Limb) (fields : Bool) (i : Instr) : Except ErrorCode Instr :=
  if upperOf w = 0#32 ∧ fields = true ∧ i.wf = true then .ok i else .error .illegalField

/-- The decoder: the opcode map of R116, row by row. -/
def decode (w : Limb) : Except ErrorCode Instr :=
  let rd := rdOf w
  let ra := raOf w
  let rb := rbOf w
  let rc := rcOf w
  let imm := immOf w
  match opcOf w with
  | 0x00#8 => accept w (rd == 0 && ra == 0 && rb == 0 && rc == 0 && imm == 0) .nop
  | 0x01#8 => accept w (rc == 0 && imm == 0) (.add rd ra rb)
  | 0x02#8 => accept w (rc == 0 && imm == 0) (.sub rd ra rb)
  | 0x03#8 => accept w (isEven rd && rc == 0 && imm == 0) (.mul (pairOf rd) ra rb)
  | 0x04#8 => accept w (isEven rd && rb == 0 && rc == 0 && imm == 0) (.sqr (pairOf rd) ra)
  | 0x05#8 => accept w (rb == 0 && rc == 0) (.shl rd ra imm)
  | 0x06#8 => accept w (rb == 0 && rc == 0) (.shr rd ra imm)
  | 0x07#8 => accept w (rd == 0 && rc == 0 && imm == 0) (.cmpct ra rb)
  | 0x08#8 => accept w (rd == 0 && rc == 0 && imm == 0) (.cmpvt ra rb)
  | 0x09#8 => accept w (rb == 0 && rc == 0 && imm == 0) (.mov rd ra)
  | 0x0A#8 =>
    match selOf ra with
    | some sel => accept w (rb == 0 && rc == 0 && imm == 0) (.ldc rd sel)
    | none => .error .illegalField
  | 0x0B#8 => accept w (rd == 0 && ra == 0 && rb == 0 && rc == 0 && imm == 0) .wipe
  | 0x10#8 => accept w (imm == 0) (.modadd rd ra rb rc)
  | 0x11#8 => accept w (imm == 0) (.modsub rd ra rb rc)
  | 0x12#8 => accept w (isEven ra && rb == 0 && imm == 0) (.mmod rd (pairOf ra) rc)
  | 0x13#8 => accept w (rb == 0 && imm == 0) (.modinv rd ra rc)
  | 0x20#8 => accept w (rc == 0 && imm == 0) (.fmul rd ra rb)
  | 0x21#8 => accept w (rb == 0 && rc == 0 && imm == 0) (.fsqr rd ra)
  | 0x22#8 => accept w (isEven ra && rb == 0 && rc == 0 && imm == 0) (.fred rd (pairOf ra))
  | 0x30#8 => accept w (rc == 0 && imm == 0) (.dblj rd ra rb)
  | 0x31#8 => accept w (imm == 0) (.xyczadd rd ra rb rc)
  | 0x32#8 => accept w (imm == 0) (.xyczaddc rd ra rb rc)
  | 0x33#8 =>
    accept w (isEven rd && isEven ra && isEven rb && rc == 0 && imm == 0)
      (.padd (pairOf rd) (pairOf ra) (pairOf rb))
  | 0x34#8 =>
    accept w (isEven rd && isEven ra && rc == 0 && imm == 0) (.pmul (pairOf rd) (pairOf ra) rb)
  | _ => .error .illegalOpcode

/-- The command of an instruction whose bits are `w`, numbered as spec/opcode_table.json numbers them: the
command word is CMD[31:0], and every bit above `nbits` is zero. -/
def decodeTableWord (nbits w : Nat) : Option Instr :=
  match decode (BitVec.ofNat 64 (w % 2 ^ nbits)) with
  | .ok i => some i
  | .error _ => none

/-! ## Encoding -/

/-- The layout of R111, most significant field first, with bits 63:32 zero (R124). -/
def pack (imm : BitVec 8) (rc rb ra rd : Reg) (opc : BitVec 8) : Limb :=
  0#32 ++ imm ++ rc ++ rb ++ ra ++ rd ++ opc

/-- The CMD value of a command, from the patterns of its rule. -/
def encode : Instr → Limb
  | .nop => pack 0 0 0 0 0 0x00
  | .add rd ra rb => pack 0 0 rb ra rd 0x01
  | .sub rd ra rb => pack 0 0 rb ra rd 0x02
  | .mul rdp ra rb => pack 0 0 rb ra (evenField rdp) 0x03
  | .sqr rdp ra => pack 0 0 0 ra (evenField rdp) 0x04
  | .shl rd ra s => pack s 0 0 ra rd 0x05
  | .shr rd ra s => pack s 0 0 ra rd 0x06
  | .cmpct ra rb => pack 0 0 rb ra 0 0x07
  | .cmpvt ra rb => pack 0 0 rb ra 0 0x08
  | .mov rd ra => pack 0 0 0 ra rd 0x09
  | .ldc rd sel => pack 0 0 0 (selField sel) rd 0x0A
  | .wipe => pack 0 0 0 0 0 0x0B
  | .modadd rd ra rb rc => pack 0 rc rb ra rd 0x10
  | .modsub rd ra rb rc => pack 0 rc rb ra rd 0x11
  | .mmod rd rap rc => pack 0 rc 0 (evenField rap) rd 0x12
  | .modinv rd ra rc => pack 0 rc 0 ra rd 0x13
  | .fmul rd ra rb => pack 0 0 rb ra rd 0x20
  | .fsqr rd ra => pack 0 0 0 ra rd 0x21
  | .fred rd rap => pack 0 0 0 (evenField rap) rd 0x22
  | .dblj rx ry rz => pack 0 0 rz ry rx 0x30
  | .xyczadd rx1 ry1 rx2 ry2 => pack 0 ry2 rx2 ry1 rx1 0x31
  | .xyczaddc rx1 ry1 rx2 ry2 => pack 0 ry2 rx2 ry1 rx1 0x32
  | .padd rdp rap rbp => pack 0 0 (evenField rbp) (evenField rap) (evenField rdp) 0x33
  | .pmul rdp rap rb => pack 0 0 rb (evenField rap) (evenField rdp) 0x34

end Sys2Proof
end

