-- ==== Sys2Proof/Config.lean ====
section
/-! DEFINITION. The core's fixed parameters (00_scope.md R5) and its open values: the constants without a
body, of which nothing can be proved. -/

namespace Sys2Proof

/-- `C_K1`, the secp256k1 reduction constant (R5). -/
def Config.cK1 : Nat := 0x1000003D1

/-- `P_K1 = 2^256 - C_K1`, the FAST-mode prime (R5). -/
def Config.pK1 : Nat := 2 ^ 256 - Config.cK1

/-- The field prime of P-256, the GENERIC curve of 95_test_vectors.md section 0. It only decides how a scalar
multiple is evaluated (`Curve.multiple`), not its value. -/
def Config.pP256 : Nat := 0xFFFFFFFF00000001000000000000000000000000FFFFFFFFFFFFFFFFFFFFFFFF

/-- The ID register's constant (10_state.md R44). -/
def Config.idValue : Limb := 0x0010040145434331#64

/-- The size of the register window in bytes (20_memory.md R80). -/
def Config.windowBytes : Nat := 4096

/-- `BASE`, the window's address in the host's space: a platform parameter (R80; log entry 4). -/
opaque Config.base : Nat

/-- FREE VALUE. The `n`-th value the hardware draws for a PADD or PMUL result on an operand that is not a
valid point: `DRAW([0, 2^256) × [0, 2^256))` (43_point.md R226, R241; log entry 3). -/
opaque Config.drawPoint : Nat → Vli × Vli

/-- FREE VALUE. What `d⁻¹ mod p` is in the group law when `d` has no inverse modulo `p`, which only a
composite CP allows; no rule states it (43_point.md R221; log entry 5). -/
opaque Config.openInverse : (d p : Nat) → Nat

/-- FREE VALUE. The response of a host transaction cut by reset, platform-defined
(70_reset_and_hazards.md R311; log entry 6). -/
opaque Config.cutResponse : Nat → Response

end Sys2Proof
end

