-- ==== Sys2Proof/Machine/State.lean ====
section
/-! DEFINITION. The state of the core: the record of 10_state.md R30 with every derived row computed from the
rows it is derived from (HALFN, NBITS_P, NBITS_N, ID and irq are functions in Ops.lean), and three fields of
the model's own (log entries 1, 2 and 3). -/

namespace Sys2Proof.Machine

/-- A host transaction (20_memory.md R81): a byte offset in the window, which of the 8 bytes from it are
accessed, and for a write the data. -/
inductive Transaction where
  | read (off : BitVec 12) (lanes : BitVec 8)
  | write (off : BitVec 12) (lanes : BitVec 8) (data : Limb)
  deriving DecidableEq, Repr

/-- One move on the core's state (00_scope.md R13, 70_reset_and_hazards.md R310). `host t`: the host's
transaction `t` takes effect. `engine`: the engine has its turn. `reset cut`: reset is applied, and `cut`
says that it cuts a host transaction in progress (R311). -/
inductive Turn where
  | host (t : Transaction)
  | engine
  | reset (cut : Bool)
  deriving DecidableEq, Repr

/-- The stored fields of CFG (10_state.md R38). -/
structure Cfg where
  mode : Mode
  lock : Bool
  deriving DecidableEq, Repr

/-- The fields of STATUS (R41). -/
structure Status where
  busy : Bool
  done : Bool
  errv : Bool
  cmddrop : Bool
  errcode : BitVec 4
  deriving DecidableEq, Repr

/-- The fields of FLAGS (R42). -/
structure Flags where
  c : Bool
  lt : Bool
  eq : Bool
  gt : Bool
  ni : Bool
  inf : Bool
  deriving DecidableEq, Repr

/-- The fields of IE (R43). -/
structure IrqEnable where
  doneIe : Bool
  errIe : Bool
  deriving DecidableEq, Repr

/-- The architectural state of the core (R30), and the model's own `schedule`, `response` and `draws`. -/
structure State where
  /-- V[0] to V[15] (R32). -/
  v : Vector Vli 16
  /-- The field prime p (R35). -/
  cp : Vli
  /-- The group order n (R35). -/
  cn : Vli
  /-- The coefficient b (R35). -/
  cb : Vli
  /-- The generator's x (R35). -/
  cgx : Vli
  /-- The generator's y (R35). -/
  cgy : Vli
  /-- CFG (R38). -/
  cfg : Cfg
  /-- CMD, the last accepted value (R40). -/
  cmd : Limb
  /-- STATUS (R41). -/
  status : Status
  /-- FLAGS (R42). -/
  flags : Flags
  /-- IE (R43). -/
  ie : IrqEnable
  /-- ITER (R45). -/
  iter : Limb
  /-- ERRCMD (R46). -/
  errcmd : Limb
  /-- The turns still to come, first one first (log entry 1). DESIGN CHOICE. -/
  schedule : List Turn
  /-- The response of the latest host transaction (log entry 2). DESIGN CHOICE. -/
  response : Option Response
  /-- How many values have been drawn (log entry 3). DESIGN CHOICE. -/
  draws : Nat
  deriving DecidableEq, Repr

/-- The state after reset (10_state.md R50). -/
def State.reset : State where
  v := Vector.replicate 16 0
  cp := 0
  cn := 0
  cb := 0
  cgx := 0
  cgy := 0
  cfg := { mode := .fast, lock := false }
  cmd := 0
  status := { busy := false, done := false, errv := false, cmddrop := false, errcode := 0 }
  flags := { c := false, lt := false, eq := false, gt := false, ni := false, inf := false }
  ie := { doneIe := false, errIe := false }
  iter := 0
  errcmd := 0
  schedule := []
  response := none
  draws := 0

/-- The reasons a step faults: there is none. "The core has no traps and no exception vectors"
(60_exceptions.md R270): every error is a completion with a next state. No one raises a fault, so the type
is neither safe nor unsafe. -/
inductive Fault where
  deriving DecidableEq, Repr

/-- The reasons a step is refused. -/
inductive Refusal where
  /-- The name of an instruction without a meaning. Only an arm of `exec` could raise it, and no arm does:
  every command has its meaning. Safe. -/
  | notModelled (mnemonic : String)
  deriving DecidableEq, Repr

/-- The outcome of a step or of a command's meaning. -/
abbrev Result := Host.Outcome State Fault Refusal

end Sys2Proof.Machine
end

