-- ==== Sys2Proof/Machine/Operands.lean ====
section
/-! DEFINITION. The operand forms: single registers (30_encoding.md R112), pairs (R113) as double-width values
and as affine points (10_state.md R33), shift amounts (R114) and LDC's constants (R115). -/

namespace Sys2Proof.Machine

/-- Read `V[r]` (00_scope.md R7). -/
def State.getV (s : State) (r : Reg) : Vli := s.v[r.toNat]'(r.isLt)

/-- Write `V[r] <- x` (R7). -/
def State.setV (s : State) (r : Reg) (x : Vli) : State := { s with v := s.v.set r.toNat x r.isLt }

/-- Write `V[r] <- x mod 2^256` for an unsigned integer `x` (R7). -/
def State.setVNat (s : State) (r : Reg) (x : Nat) : State := s.setV r (BitVec.ofNat 256 x)

/-- The even register of a pair: the low half, or x (R33). -/
def loReg (p : Pair) : Reg := p ++ 0#1

/-- The odd register of a pair: the high half, or y (R33). -/
def hiReg (p : Pair) : Reg := p ++ 1#1

/-- Read `VP[r] = V[r+1] ‖ V[r]` (R7). -/
def State.getPair (s : State) (p : Pair) : DoubleVli := s.getV (hiReg p) ++ s.getV (loReg p)

/-- Write `VP[r] <- x`: the low half to the even register, the high half to the odd one (R7). -/
def State.setPair (s : State) (p : Pair) (x : DoubleVli) : State :=
  (s.setV (loReg p) (x.extractLsb' 0 256)).setV (hiReg p) (x.extractLsb' 256 256)

/-- An affine point: two unsigned integers (43_point.md R220). -/
structure AffinePoint where
  x : Nat
  y : Nat
  deriving DecidableEq, Repr

/-- The point at infinity `O = (0, 0)` (R220). -/
def infinity : AffinePoint := { x := 0, y := 0 }

/-- Read a pair as an affine point, x in the even register (R220). -/
def State.getPoint (s : State) (p : Pair) : AffinePoint :=
  { x := (s.getV (loReg p)).toNat, y := (s.getV (hiReg p)).toNat }

/-- Write an affine point to a pair, x in the even register (R220). -/
def State.setPoint (s : State) (p : Pair) (q : AffinePoint) : State :=
  (s.setVNat (loReg p) q.x).setVNat (hiReg p) q.y

/-- A shift amount: IMM8, unsigned and not scaled (R114). -/
def shiftAmount (imm : BitVec 8) : Nat := imm.toNat

/-- HALFN, always `CN >> 1` (10_state.md R36). -/
def State.halfn (s : State) : Vli := s.cn >>> 1

/-- The constant an LDC selector names (R115, 40_vli.md R151). -/
def State.constant (s : State) : Sel → Vli
  | .p => s.cp
  | .n => s.cn
  | .halfn => s.halfn
  | .b => s.cb
  | .gx => s.cgx
  | .gy => s.cgy

end Sys2Proof.Machine
end

