-- ==== Sys2Proof/Machine/Flags.lean ====
section
/-! DEFINITION. The flag computations (10_state.md R42). Each updates the bits its commands write and keeps
every other bit. -/

namespace Sys2Proof.Machine

/-- `FLAGS.C <- c` (ADD's carry, SUB's borrow). -/
def State.setCarry (s : State) (c : Bool) : State := { s with flags := { s.flags with c := c } }

/-- FLAGS.LT, EQ and GT from an unsigned comparison of `a` and `b` (CMPCT, CMPVT). -/
def State.setOrder (s : State) (a b : Vli) : State :=
  { s with flags := { s.flags with
      lt := decide (a.toNat < b.toNat)
      eq := decide (a.toNat = b.toNat)
      gt := decide (b.toNat < a.toNat) } }

/-- `FLAGS.NI <- ni` (MODINV). -/
def State.setNoInverse (s : State) (ni : Bool) : State := { s with flags := { s.flags with ni := ni } }

/-- `FLAGS.INF <- (R = (0, 0))` (PADD, PMUL). -/
def State.setInfinity (s : State) (r : AffinePoint) : State :=
  { s with flags := { s.flags with inf := decide (r = infinity) } }

/-- `FLAGS <- 0` (WIPE). -/
def State.clearFlags (s : State) : State := { s with flags := State.reset.flags }

/-- The carry out of a 256-bit sum: its bit 256 (40_vli.md R142). -/
def carryOut (sum : Nat) : Bool := decide (2 ^ 256 ≤ sum)

/-- The borrow of a difference: it is negative (40_vli.md R143). -/
def borrowOut (d : Int) : Bool := decide (d < 0)

end Sys2Proof.Machine
end

