-- ==== Sys2Proof/Machine/Ops.lean ====
section
/-! DEFINITION. The named operations over the control registers: the derived registers and predicates of
10_state.md, the words the host reads, accepting a command, the two completions of 60_exceptions.md and the
host's acknowledge, and reset. -/

namespace Sys2Proof.Machine

/-! ## Derived state (10_state.md R36, R37, R48, R49) -/

/-- `bitlen(v)`: the number of bits of `v`, with `bitlen(0) = 0` (00_scope.md R6). -/
def bitlen (v : Nat) : Nat := if v = 0 then 0 else v.log2 + 1

/-- CFG.NBITS_P (R37). -/
def State.nbitsP (s : State) : Nat := bitlen s.cp.toNat

/-- CFG.NBITS_N (R37). -/
def State.nbitsN (s : State) : Nat := bitlen s.cn.toNat

/-- The interrupt output (R48, 60_exceptions.md R276). -/
def State.irq (s : State) : Bool := (s.status.done && s.ie.doneIe) || (s.status.errv && s.ie.errIe)

/-- `CurveOK` (R49). -/
def State.curveOK (s : State) : Bool :=
  match s.cfg.mode with
  | .fast => decide (s.cp.toNat = Config.pK1)
  | .generic => decide (s.cp.toNat % 2 = 1) && decide (3 ≤ s.cp.toNat)

/-- `CurveOKn` (R49). -/
def State.curveOKn (s : State) : Bool := s.curveOK && decide (s.cn.toNat ≠ 0)

/-! ## The control registers as the host reads them -/

/-- MODE as a bit (R38). -/
def modeBit : Mode → BitVec 1
  | .fast => 0#1
  | .generic => 1#1

/-- CFG: bits 63:41 zero, NBITS_N 40:32, 31:25 zero, NBITS_P 24:16, 15:2 zero, LOCK, MODE (R38). -/
def State.cfgWord (s : State) : Limb :=
  0#23 ++ BitVec.ofNat 9 s.nbitsN ++ 0#7 ++ BitVec.ofNat 9 s.nbitsP ++ 0#14 ++ BitVec.ofBool s.cfg.lock
    ++ modeBit s.cfg.mode

/-- STATUS: bits 63:12 zero, ERRCODE 11:8, 7:4 zero, CMDDROP, ERRV, DONE, BUSY (R41). -/
def State.statusWord (s : State) : Limb :=
  0#52 ++ s.status.errcode ++ 0#4 ++ BitVec.ofBool s.status.cmddrop ++ BitVec.ofBool s.status.errv
    ++ BitVec.ofBool s.status.done ++ BitVec.ofBool s.status.busy

/-- FLAGS: bits 63:6 zero, INF, NI, GT, EQ, LT, C (R42). -/
def State.flagsWord (s : State) : Limb :=
  0#58 ++ BitVec.ofBool s.flags.inf ++ BitVec.ofBool s.flags.ni ++ BitVec.ofBool s.flags.gt
    ++ BitVec.ofBool s.flags.eq ++ BitVec.ofBool s.flags.lt ++ BitVec.ofBool s.flags.c

/-- IE: bits 63:2 zero, ERR_IE, DONE_IE (R43). -/
def State.ieWord (s : State) : Limb := 0#62 ++ BitVec.ofBool s.ie.errIe ++ BitVec.ofBool s.ie.doneIe

/-! ## Accepting a command (20_memory.md R89) -/

/-- The engine enters BUSY with the value `w` in CMD. -/
def State.acceptCommand (s : State) (w : Limb) : State :=
  { s with cmd := w, status := { s.status with done := false, busy := true } }

/-! ## The two completions (60_exceptions.md R271 to R273) -/

/-- The code of an error (R271). -/
def errorNumber : ErrorCode → BitVec 4
  | .illegalOpcode => 1#4
  | .illegalField => 2#4
  | .curve => 3#4
  | .operand => 4#4

/-- `ErrorCompletion(code, w)` for the command `w` in CMD (R272): the core's one exception entry. -/
def State.errorCompletion (s : State) (e : ErrorCode) : State :=
  { s with
    status := { s.status with errv := true, errcode := errorNumber e, busy := false }
    errcmd := s.cmd }

/-- `SuccessCompletion()` (R273). -/
def State.successCompletion (s : State) : State :=
  { s with status := { s.status with busy := false, done := true } }

/-- The host's acknowledge, a write of `d` to STATUS (20_memory.md R90): the return from an error, and the
way DONE and CMDDROP are cleared (60_exceptions.md R278). -/
def State.acknowledge (s : State) (d : Limb) : State :=
  { s with status := { s.status with
      done := s.status.done && !d.getLsbD 1
      errv := s.status.errv && !d.getLsbD 2
      errcode := if d.getLsbD 2 then 0 else s.status.errcode
      cmddrop := s.status.cmddrop && !d.getLsbD 3 } }

/-- A command whose `Check` passed: its results, then the success completion (30_encoding.md R130). -/
def succeed (s : State) : Result := .next s.successCompletion

/-- A command whose `Check` failed with `e`: the error completion of the unchanged state (R130). -/
def fail (s : State) (e : ErrorCode) : Result := .next (s.errorCompletion e)

/-! ## Reset (70_reset_and_hazards.md R310, R311) -/

/-- Reset is applied: every piece of the core's state takes its reset value, a command in flight is
abandoned, and the model's own fields go on. If it cuts a host transaction, that transaction's response is a
free value (log entry 6). -/
def State.applyReset (s : State) (cut : Bool) : State :=
  match cut with
  | false => { State.reset with schedule := s.schedule, response := s.response, draws := s.draws }
  | true =>
    { State.reset with
      schedule := s.schedule
      response := some (Config.cutResponse s.draws)
      draws := s.draws + 1 }

end Sys2Proof.Machine
end

