-- ==== Sys2Proof/Machine/Bus.lean ====
section
/-! DEFINITION. The host's transactions on the register window (20_memory.md). -/

namespace Sys2Proof.Machine

/-- The five descriptor registers (10_state.md R35). -/
inductive Desc where
  | cp | cn | cb | cgx | cgy
  deriving DecidableEq, Repr

/-- One 64-bit location of the window (20_memory.md R82). -/
inductive Loc where
  | id | cfg | cmd | status | flags | ie | iter | errcmd
  | desc (d : Desc) (i : Fin 4)
  | halfn (i : Fin 4)
  | v (r : Reg) (i : Fin 4)
  deriving DecidableEq, Repr

/-! ## The register map (R82) -/

/-- Offsets 0x000 to 0x038. -/
def controlLoc (k : Fin 8) : Loc :=
  match k with
  | 0 => .id
  | 1 => .cfg
  | 2 => .cmd
  | 3 => .status
  | 4 => .flags
  | 5 => .ie
  | 6 => .iter
  | 7 => .errcmd

/-- Offsets 0x100 to 0x1F8: one block of four limbs for each register, the last two blocks reserved. -/
def descriptorLoc (block : Fin 8) (i : Fin 4) : Option Loc :=
  match block with
  | 0 => some (.desc .cp i)
  | 1 => some (.desc .cn i)
  | 2 => some (.desc .cb i)
  | 3 => some (.desc .cgx i)
  | 4 => some (.desc .cgy i)
  | 5 => some (.halfn i)
  | 6 => none
  | 7 => none

/-- The location at an 8-byte aligned offset; `none` is a reserved offset (R82, R83). -/
def locate (off : BitVec 12) : Option Loc :=
  let o := off.toNat
  let limb : Fin 4 := Fin.ofNat 4 (o / 8)
  if o < 0x040 then some (controlLoc (Fin.ofNat 8 (o / 8)))
  else if o < 0x100 then none
  else if o < 0x200 then descriptorLoc (Fin.ofNat 8 ((o - 0x100) / 0x20)) limb
  else if o < 0x400 then some (.v (BitVec.ofNat 4 ((o - 0x200) / 0x20)) limb)
  else none

/-- A transaction is admitted only when it is aligned and all 8 bytes are accessed (R81). -/
def admitted (off : BitVec 12) (lanes : BitVec 8) : Bool :=
  decide (off.toNat % 8 = 0) && lanes == BitVec.allOnes 8

/-- Offsets 0x100 to 0x3FF: the locations refused while BUSY (R87). -/
def Loc.isOperand : Loc → Bool
  | .desc _ _ => true
  | .halfn _ => true
  | .v _ _ => true
  | .id => false
  | .cfg => false
  | .cmd => false
  | .status => false
  | .flags => false
  | .ie => false
  | .iter => false
  | .errcmd => false

/-! ## Limbs (R84) -/

/-- Limb `i` of a 256-bit register: bits `64i+63:64i`. -/
def limbOf (x : Vli) (i : Fin 4) : Limb := x.extractLsb' (64 * i.val) 64

/-- Replace limb `i` of a 256-bit register. -/
def setLimb (x : Vli) (i : Fin 4) (d : Limb) : Vli :=
  match i with
  | 0 => limbOf x 3 ++ limbOf x 2 ++ limbOf x 1 ++ d
  | 1 => limbOf x 3 ++ limbOf x 2 ++ d ++ limbOf x 0
  | 2 => limbOf x 3 ++ d ++ limbOf x 1 ++ limbOf x 0
  | 3 => d ++ limbOf x 2 ++ limbOf x 1 ++ limbOf x 0

/-- Read a descriptor register. -/
def State.getDesc (s : State) : Desc → Vli
  | .cp => s.cp
  | .cn => s.cn
  | .cb => s.cb
  | .cgx => s.cgx
  | .cgy => s.cgy

/-- Write a descriptor register. -/
def State.setDesc (s : State) (d : Desc) (x : Vli) : State :=
  match d with
  | .cp => { s with cp := x }
  | .cn => { s with cn := x }
  | .cb => { s with cb := x }
  | .cgx => { s with cgx := x }
  | .cgy => { s with cgy := x }

/-! ## Reads -/

/-- The value a location holds. -/
def State.readLoc (s : State) : Loc → Limb
  | .id => Config.idValue
  | .cfg => s.cfgWord
  | .cmd => s.cmd
  | .status => s.statusWord
  | .flags => s.flagsWord
  | .ie => s.ieWord
  | .iter => s.iter
  | .errcmd => s.errcmd
  | .desc d i => limbOf (s.getDesc d) i
  | .halfn i => limbOf s.halfn i
  | .v r i => limbOf (s.getV r) i

/-- `BusRead(off) -> (data, resp)` (R81, R83, R86, R87). -/
def State.busRead (s : State) (off : BitVec 12) (lanes : BitVec 8) : Limb × Resp :=
  if admitted off lanes then
    match locate off with
    | none => (0, .slverr)
    | some l => if s.status.busy && l.isOperand then (0, .slverr) else (s.readLoc l, .okay)
  else (0, .slverr)

/-! ## Writes -/

/-- A write to CFG (10_state.md R38): refused while BUSY; MODE changes only while LOCK = 0, and LOCK is
set-only. -/
def State.writeCfg (s : State) (d : Limb) : State × Resp :=
  if s.status.busy then (s, .slverr)
  else if s.cfg.lock then (s, .okay)
  else
    ({ s with cfg := { mode := if d.getLsbD 0 then .generic else .fast, lock := d.getLsbD 1 } }, .okay)

/-- A write to CMD offers a command (R89). -/
def State.offer (s : State) (d : Limb) : State × Resp :=
  if s.status.busy || s.status.errv then
    ({ s with status := { s.status with cmddrop := true } }, .slverr)
  else (s.acceptCommand d, .okay)

/-- A write to IE (10_state.md R43). -/
def State.writeIe (s : State) (d : Limb) : State :=
  { s with ie := { doneIe := d.getLsbD 0, errIe := d.getLsbD 1 } }

/-- A write to a descriptor limb: refused while BUSY (R87) or while LOCK = 1 (R88). -/
def State.writeDesc (s : State) (r : Desc) (i : Fin 4) (d : Limb) : State × Resp :=
  if s.status.busy || s.cfg.lock then (s, .slverr)
  else (s.setDesc r (setLimb (s.getDesc r) i d), .okay)

/-- A write to a location (R86 to R90). -/
def State.writeLoc (s : State) (l : Loc) (d : Limb) : State × Resp :=
  match l with
  | .id => (s, .okay)
  | .cfg => s.writeCfg d
  | .cmd => s.offer d
  | .status => (s.acknowledge d, .okay)
  | .flags => (s, .okay)
  | .ie => (s.writeIe d, .okay)
  | .iter => (s, .okay)
  | .errcmd => (s, .okay)
  | .desc r i => s.writeDesc r i d
  | .halfn _ => if s.status.busy then (s, .slverr) else (s, .okay)
  | .v r i => if s.status.busy then (s, .slverr) else (s.setV r (setLimb (s.getV r) i d), .okay)

/-- `BusWrite(off, data) -> resp` (R81, R83). -/
def State.busWrite (s : State) (off : BitVec 12) (lanes : BitVec 8) (d : Limb) : State × Resp :=
  if admitted off lanes then
    match locate off with
    | none => (s, .slverr)
    | some l => s.writeLoc l d
  else (s, .slverr)

/-- One host transaction, with its response kept for the host (log entry 2). -/
def State.transact (s : State) (t : Transaction) : State :=
  match t with
  | .read off lanes =>
    let r := s.busRead off lanes
    { s with response := some (.read r.1 r.2) }
  | .write off lanes d =>
    let r := s.busWrite off lanes d
    { r.1 with response := some (.write r.2) }

/-! ## The host's side of the window (R80, R85) -/

/-- The host address of an offset (R80; log entry 4). -/
def hostAddress (off : BitVec 12) : Nat := Config.base + off.toNat

/-- The offset of a host address; an address outside the window is not the core's (R80, R98). -/
def offsetOf (addr : Nat) : Option (BitVec 12) :=
  if Config.base ≤ addr ∧ addr < Config.base + Config.windowBytes then
    some (BitVec.ofNat 12 (addr - Config.base))
  else none

/-- Byte lane `j` of a 64-bit location carries data bits `8j+7:8j` (R85). -/
def lane (d : Limb) (j : Fin 8) : BitVec 8 := d.extractLsb' (8 * j.val) 8

/-- The 64-bit data a host builds from the bytes at offsets `off` to `off + 7` (R85). -/
def ofLanes (b0 b1 b2 b3 b4 b5 b6 b7 : BitVec 8) : Limb := b7 ++ b6 ++ b5 ++ b4 ++ b3 ++ b2 ++ b1 ++ b0

end Sys2Proof.Machine
end

