-- ==== Sys2Proof/Machine/Modular.lean ====
section
/-! DEFINITION. The modular functions and commands with an explicit modulus (41_modular.md). -/

namespace Sys2Proof.Machine

/-- `modadd(a, b, m)`: the sum with one conditional subtraction, modulo 2^256 (R180). -/
def modadd (a b m : Nat) : Nat :=
  let sum := a + b
  (if m ≤ sum then sum - m else sum) % 2 ^ 256

/-- `modsub(a, b, m)`: the difference with one conditional addition, modulo 2^256 (R181). -/
def modsub (a b m : Nat) : Nat :=
  let d : Int := (a : Int) - (b : Int)
  ((if d < 0 then d + (m : Int) else d) % 2 ^ 256).toNat

/-- `mmod(v, m)`: the exact remainder (R184). -/
def mmod (v m : Nat) : Nat := v % m

/-- Euclid's algorithm from remainders `r0`, `r1` with the cofactors `t0`, `t1`: it answers the greatest
common divisor and its cofactor. `fuel` bounds the steps. -/
def euclid : (fuel r0 r1 : Nat) → (t0 t1 : Int) → Nat × Int
  | 0, r0, _, t0, _ => (r0, t0)
  | fuel + 1, r0, r1, t0, t1 =>
    if r1 = 0 then (r0, t0)
    else euclid fuel r1 (r0 % r1) t1 (t0 - ((r0 / r1 : Nat) : Int) * t1)

/-- `modinv(a, m)`: the inverse of `a` modulo `m` and `ni = 0` when they are coprime, else 0 and `ni = 1`
(R186). The remainders after the first fall at every step, so `m` steps are enough. -/
def modinv (a m : Nat) : Nat × Bool :=
  let r := euclid m m (a % m) 0 1
  if r.1 = 1 then ((r.2 % (m : Int)).toNat, false) else (0, true)

/-- MODADD (R182). -/
def execModadd (rd ra rb rc : Reg) (s : State) : Result :=
  succeed (s.setVNat rd (modadd (s.getV ra).toNat (s.getV rb).toNat (s.getV rc).toNat))

/-- MODSUB (R183). -/
def execModsub (rd ra rb rc : Reg) (s : State) : Result :=
  succeed (s.setVNat rd (modsub (s.getV ra).toNat (s.getV rb).toNat (s.getV rc).toNat))

/-- MMOD (R185), with its value check (30_encoding.md R123). -/
def execMmod (rd : Reg) (rap : Pair) (rc : Reg) (s : State) : Result :=
  let m := (s.getV rc).toNat
  if m ≠ 0 then succeed (s.setVNat rd (mmod (s.getPair rap).toNat m)) else fail s .operand

/-- MODINV (R187), with its value check (30_encoding.md R123). -/
def execModinv (rd ra rc : Reg) (s : State) : Result :=
  let m := (s.getV rc).toNat
  let r := modinv (s.getV ra).toNat m
  if m % 2 = 1 ∧ m ≠ 1 then succeed ((s.setVNat rd r.1).setNoInverse r.2) else fail s .operand

end Sys2Proof.Machine
end

