-- ==== Sys2Proof/Machine/Field.lean ====
section
/-! DEFINITION. The field primitives over `p = CP` and the field commands (42_field.md). -/

namespace Sys2Proof.Machine

/-- `fred(v) = v mod p` (R200): the value of both reducers (R204, R205). -/
def fred (p v : Nat) : Nat := mmod v p

/-- `fmul(a, b) = fred(a · b)` (R200). -/
def fmul (p a b : Nat) : Nat := fred p (a * b)

/-- `fsqr(a) = fred(a · a)` (R200). -/
def fsqr (p a : Nat) : Nat := fred p (a * a)

/-- `fadd(a, b) = modadd(a, b, p)` (R200). -/
def fadd (p a b : Nat) : Nat := modadd a b p

/-- `fsub(a, b) = modsub(a, b, p)` (R200). -/
def fsub (p a b : Nat) : Nat := modsub a b p

/-- `fhalf(a) = (a + (p if a is odd)) >> 1` (R200). -/
def fhalf (p a : Nat) : Nat := (a + if a % 2 = 1 then p else 0) / 2

/-- FMUL (R201). -/
def execFmul (rd ra rb : Reg) (s : State) : Result :=
  if s.curveOK then succeed (s.setVNat rd (fmul s.cp.toNat (s.getV ra).toNat (s.getV rb).toNat))
  else fail s .curve

/-- FSQR (R202). -/
def execFsqr (rd ra : Reg) (s : State) : Result :=
  if s.curveOK then succeed (s.setVNat rd (fsqr s.cp.toNat (s.getV ra).toNat)) else fail s .curve

/-- FRED (R203). -/
def execFred (rd : Reg) (rap : Pair) (s : State) : Result :=
  if s.curveOK then succeed (s.setVNat rd (fred s.cp.toNat (s.getPair rap).toNat)) else fail s .curve

end Sys2Proof.Machine
end

