-- ==== Sys2Proof/Machine/Point.lean ====
section
/-! DEFINITION. The point formulas, the affine group law, scalar multiples and the point commands
(43_point.md). -/

namespace Sys2Proof.Machine

/-- What the point rules read of the descriptor: MODE, `p = CP` and `b = CB`. -/
structure Curve where
  mode : Mode
  p : Nat
  b : Nat
  deriving DecidableEq, Repr

/-- The curve the descriptor holds (10_state.md R35, R38). -/
def State.curve (s : State) : Curve := { mode := s.cfg.mode, p := s.cp.toNat, b := s.cb.toNat }

/-- `A(MODE)`: 0 in FAST mode, `CP - 3` in GENERIC mode (00_scope.md R10). -/
def Curve.a (c : Curve) : Int :=
  match c.mode with
  | .fast => 0
  | .generic => (c.p : Int) - 3

/-- `OnCurve(x, y)` (00_scope.md R11). -/
def Curve.onCurve (c : Curve) (q : AffinePoint) : Bool :=
  let x : Int := q.x
  let y : Int := q.y
  decide (q.x < c.p) && decide (q.y < c.p) &&
    decide ((y * y - (x * x * x + c.a * x + (c.b : Int))) % (c.p : Int) = 0)

/-- `ValidPt(x, y)` (00_scope.md R11). -/
def Curve.validPt (c : Curve) (q : AffinePoint) : Bool := decide (q = infinity) || c.onCurve q

/-! ## Jacobian and co-Z formulas -/

/-- A Jacobian triple (R220). -/
structure Jacobian where
  x : Nat
  y : Nat
  z : Nat
  deriving DecidableEq, Repr

/-- `B` of the doubling: `(3/2)·X²` in FAST mode, `(3/2)·(X² - Z⁴)` in GENERIC mode (R223). -/
def doublingSlope (mode : Mode) (p : Nat) (q : Jacobian) : Nat :=
  match mode with
  | .fast =>
    let x2 := fsqr p q.x
    fhalf p (fadd p (fadd p x2 x2) x2)
  | .generic =>
    let z2 := fsqr p q.z
    let s := fadd p q.x z2
    let d := fsub p s (fadd p z2 z2)
    let m := fmul p s d
    fhalf p (fadd p m (fadd p m m))

/-- The doubling formula of R223, with its no-op for `Z = 0`. -/
def doubleJacobian (mode : Mode) (p : Nat) (q : Jacobian) : Jacobian :=
  if q.z = 0 then q
  else
    let t := fsqr p q.y
    let a := fmul p q.x t
    let y4 := fsqr p t
    let z3 := fmul p q.y q.z
    let b := doublingSlope mode p q
    let x3 := fsub p (fsub p (fsqr p b) a) a
    let y3 := fsub p (fmul p b (fsub p a x3)) y4
    { x := x3, y := y3, z := z3 }

/-- Two points that share an implicit Z (R224). -/
structure CoZPair where
  p1 : AffinePoint
  p2 : AffinePoint
  deriving DecidableEq, Repr

/-- `xycz_add` (R224): `P` re-expressed, and `P + Q`, for the new Z. -/
def coZAdd (p : Nat) (q : CoZPair) : CoZPair :=
  let a := fsqr p (fsub p q.p2.x q.p1.x)
  let b := fmul p q.p1.x a
  let c := fmul p q.p2.x a
  let dy := fsub p q.p2.y q.p1.y
  let x3 := fsub p (fsub p (fsqr p dy) b) c
  let e := fmul p q.p1.y (fsub p c b)
  let y3 := fsub p (fmul p dy (fsub p b x3)) e
  { p1 := { x := b, y := e }, p2 := { x := x3, y := y3 } }

/-- `xycz_add_conjugate` (R225): `P - Q` and `P + Q`, for the new Z. -/
def coZAddConjugate (p : Nat) (q : CoZPair) : CoZPair :=
  let a := fsqr p (fsub p q.p2.x q.p1.x)
  let b := fmul p q.p1.x a
  let c := fmul p q.p2.x a
  let sy := fadd p q.p2.y q.p1.y
  let dy := fsub p q.p2.y q.p1.y
  let e := fmul p q.p1.y (fsub p c b)
  let bc := fadd p b c
  let x3 := fsub p (fsqr p dy) bc
  let y3 := fsub p (fmul p dy (fsub p b x3)) e
  let x3c := fsub p (fsqr p sy) bc
  let y3c := fsub p (fmul p (fsub p x3c b) sy) e
  { p1 := { x := x3c, y := y3c }, p2 := { x := x3, y := y3 } }

/-! ## The affine group law -/

/-- `d⁻¹ mod p` in the group law (R221). Where `d` has no inverse modulo `p` (possible only for a composite
`p`) the spec states no value: a free value (log entry 5). -/
def inverseMod (d : Int) (p : Nat) : Nat :=
  let r := (d % (p : Int)).toNat
  let inv := modinv r p
  match inv.2 with
  | false => inv.1
  | true => Config.openInverse r p

/-- The third point of the line through `(x1, y1)` with slope `l`, reflected (R221): `x2` is the second
point's x. -/
def Curve.reflectedThird (c : Curve) (l x1 y1 x2 : Int) : AffinePoint :=
  let p : Int := c.p
  let x3 := (l * l - x1 - x2) % p
  let y3 := (l * (x1 - x3) - y1) % p
  { x := x3.toNat, y := y3.toNat }

/-- The slope of R221: the tangent's for `x1 = x2`, else the chord's. -/
def Curve.slope (c : Curve) (x1 y1 x2 y2 : Int) : Int :=
  if x1 = x2 then ((3 * (x1 * x1) + c.a) * (inverseMod (2 * y1) c.p : Int)) % (c.p : Int)
  else ((y2 - y1) * (inverseMod (x2 - x1) c.p : Int)) % (c.p : Int)

/-- `P ⊕ Q` (R221). -/
def Curve.add (c : Curve) (q1 q2 : AffinePoint) : AffinePoint :=
  if q1 = infinity then q2
  else if q2 = infinity then q1
  else if q1.x = q2.x ∧ (q1.y + q2.y) % c.p = 0 then infinity
  else c.reflectedThird (c.slope q1.x q1.y q2.x q2.y) q1.x q1.y q2.x

/-- `-P` (R221). -/
def Curve.neg (c : Curve) (q : AffinePoint) : AffinePoint :=
  if q = infinity then infinity else { x := q.x, y := (c.p - q.y) % c.p }

/-- `[k]P`: `[0]P = O` and `[k+1]P = [k]P ⊕ P` (R222). -/
def Curve.smul (c : Curve) : Nat → AffinePoint → AffinePoint
  | 0, _ => infinity
  | k + 1, q => c.add (c.smul k q) q

/-- `[k]P` by doubling and adding; `fuel` bounds the bits of `k`. -/
def Curve.smulBinary (c : Curve) : (fuel k : Nat) → AffinePoint → AffinePoint
  | 0, _, _ => infinity
  | fuel + 1, k, q =>
    if k % 2 = 1 then c.add (c.smulBinary fuel (k / 2) (c.add q q)) q
    else c.smulBinary fuel (k / 2) (c.add q q)

/-- CP is one of two known primes, and the curve is not singular and has `b ≢ 0`: there the group law is a
group's, so doubling and adding gives the multiple of R222. -/
def Curve.groupKnown (c : Curve) : Bool :=
  (decide (c.p = Config.pK1) || decide (c.p = Config.pP256)) && decide (c.b % c.p ≠ 0) &&
    decide ((4 * c.a ^ 3 + 27 * (c.b : Int) ^ 2) % (c.p : Int) ≠ 0)

/-- `[k]P` of R222 for a valid point, in a form that a 257-bit `k` can be evaluated with. It is `Curve.smul`
on every curve (Laws/GroupLaw.lean, `multiple_eq_smul`). -/
def Curve.multiple (c : Curve) (k : Nat) (q : AffinePoint) : AffinePoint :=
  match c.groupKnown with
  | true => c.smulBinary (bitlen k) k q
  | false => c.smul k q

/-- `regularize(k, n)` (R240). -/
def regularize (k n : Nat) : Nat :=
  let k0 := k + n
  let k1 := k0 + n
  if 2 ^ bitlen n ≤ k0 then k0 else k1

/-! ## Results -/

/-- Write a point result and FLAGS.INF (R226, R241). -/
def State.setPointResult (s : State) (rdp : Pair) (r : AffinePoint) : State :=
  (s.setPoint rdp r).setInfinity r

/-- The next `DRAW` of a point (00_scope.md R8; log entry 3). -/
def State.drawnPoint (s : State) : AffinePoint :=
  let d := Config.drawPoint s.draws
  { x := d.1.toNat, y := d.2.toNat }

/-- Count one draw (log entry 3). -/
def State.countDraw (s : State) : State := { s with draws := s.draws + 1 }

/-- The result of a point command: the group law's `r` when its operands are valid points, else a draw
(R226, R241). -/
def State.pointOrDraw (s : State) (valid : Bool) (rdp : Pair) (r : AffinePoint) : State :=
  match valid with
  | true => s.setPointResult rdp r
  | false => s.countDraw.setPointResult rdp s.drawnPoint

/-- `ITER <- n` (R242; 10_state.md R45). -/
def State.setIter (s : State) (n : Nat) : State := { s with iter := BitVec.ofNat 64 n }

/-! ## Commands -/

/-- The operands of DBLJ (R223). -/
def State.getJacobian (s : State) (rx ry rz : Reg) : Jacobian :=
  { x := (s.getV rx).toNat, y := (s.getV ry).toNat, z := (s.getV rz).toNat }

/-- The results of DBLJ, in place (R223). -/
def State.setJacobian (s : State) (rx ry rz : Reg) (q : Jacobian) : State :=
  ((s.setVNat rx q.x).setVNat ry q.y).setVNat rz q.z

/-- DBLJ (R223), with its field check (30_encoding.md R118). -/
def execDblj (rx ry rz : Reg) (s : State) : Result :=
  if distinct3 rx ry rz then
    if s.curveOK then
      succeed (s.setJacobian rx ry rz
        (doubleJacobian s.cfg.mode s.cp.toNat (s.getJacobian rx ry rz)))
    else fail s .curve
  else fail s .illegalField

/-- The operands of a co-Z command (R224). -/
def State.getCoZ (s : State) (rx1 ry1 rx2 ry2 : Reg) : CoZPair :=
  { p1 := { x := (s.getV rx1).toNat, y := (s.getV ry1).toNat }
    p2 := { x := (s.getV rx2).toNat, y := (s.getV ry2).toNat } }

/-- The results of a co-Z command, in place (R224). -/
def State.setCoZ (s : State) (rx1 ry1 rx2 ry2 : Reg) (q : CoZPair) : State :=
  (((s.setVNat rx1 q.p1.x).setVNat ry1 q.p1.y).setVNat rx2 q.p2.x).setVNat ry2 q.p2.y

/-- XYCZADD (R224), with its field check (30_encoding.md R118). -/
def execXyczadd (rx1 ry1 rx2 ry2 : Reg) (s : State) : Result :=
  if distinct4 rx1 ry1 rx2 ry2 then
    if s.curveOK then
      succeed (s.setCoZ rx1 ry1 rx2 ry2 (coZAdd s.cp.toNat (s.getCoZ rx1 ry1 rx2 ry2)))
    else fail s .curve
  else fail s .illegalField

/-- XYCZADDC (R225), with its field check (30_encoding.md R118). -/
def execXyczaddc (rx1 ry1 rx2 ry2 : Reg) (s : State) : Result :=
  if distinct4 rx1 ry1 rx2 ry2 then
    if s.curveOK then
      succeed (s.setCoZ rx1 ry1 rx2 ry2 (coZAddConjugate s.cp.toNat (s.getCoZ rx1 ry1 rx2 ry2)))
    else fail s .curve
  else fail s .illegalField

/-- PADD (R226). -/
def execPadd (rdp rap rbp : Pair) (s : State) : Result :=
  let c := s.curve
  let q1 := s.getPoint rap
  let q2 := s.getPoint rbp
  if s.curveOK then succeed (s.pointOrDraw (c.validPt q1 && c.validPt q2) rdp (c.add q1 q2))
  else fail s .curve

/-- PMUL (R241), with its value check (30_encoding.md R123) and ITER (R242). -/
def execPmul (rdp rap : Pair) (rb : Reg) (s : State) : Result :=
  let c := s.curve
  let n := s.cn.toNat
  let k := (s.getV rb).toNat
  let q := s.getPoint rap
  if s.curveOKn then
    if k ≤ n then
      succeed ((s.pointOrDraw (c.validPt q) rdp (c.multiple (regularize k n) q)).setIter (s.nbitsN + 1))
    else fail s .operand
  else fail s .curve

end Sys2Proof.Machine
end

