-- ==== Sys2Proof/Machine/Vli.lean ====
section
/-! DEFINITION. The VLI integer commands (40_vli.md). Every meaning reads its operands from the state it is
given, so a destination may be any of its sources (R140). -/

namespace Sys2Proof.Machine

/-- The comparison shared by CMPCT and CMPVT: they differ in latency only (R149). -/
def compareRegs (ra rb : Reg) (s : State) : Result := succeed (s.setOrder (s.getV ra) (s.getV rb))

/-- NOP (R141). -/
def execNop (s : State) : Result := succeed s

/-- ADD (R142). -/
def execAdd (rd ra rb : Reg) (s : State) : Result :=
  let sum := (s.getV ra).toNat + (s.getV rb).toNat
  succeed ((s.setVNat rd sum).setCarry (carryOut sum))

/-- SUB (R143). -/
def execSub (rd ra rb : Reg) (s : State) : Result :=
  let d : Int := (s.getV ra).toNat - (s.getV rb).toNat
  succeed ((s.setV rd (BitVec.ofInt 256 d)).setCarry (borrowOut d))

/-- MUL (R144). -/
def execMul (rdp : Pair) (ra rb : Reg) (s : State) : Result :=
  succeed (s.setPair rdp (BitVec.ofNat 512 ((s.getV ra).toNat * (s.getV rb).toNat)))

/-- SQR (R145). -/
def execSqr (rdp : Pair) (ra : Reg) (s : State) : Result :=
  succeed (s.setPair rdp (BitVec.ofNat 512 ((s.getV ra).toNat * (s.getV ra).toNat)))

/-- SHL (R146). -/
def execShl (rd ra : Reg) (imm : BitVec 8) (s : State) : Result :=
  succeed (s.setVNat rd ((s.getV ra).toNat * 2 ^ shiftAmount imm))

/-- SHR (R147). -/
def execShr (rd ra : Reg) (imm : BitVec 8) (s : State) : Result :=
  succeed (s.setVNat rd ((s.getV ra).toNat / 2 ^ shiftAmount imm))

/-- CMPCT (R148). -/
def execCmpct (ra rb : Reg) (s : State) : Result := compareRegs ra rb s

/-- CMPVT (R149). -/
def execCmpvt (ra rb : Reg) (s : State) : Result := compareRegs ra rb s

/-- MOV (R150). -/
def execMov (rd ra : Reg) (s : State) : Result := succeed (s.setV rd (s.getV ra))

/-- LDC (R151). -/
def execLdc (rd : Reg) (sel : Sel) (s : State) : Result := succeed (s.setV rd (s.constant sel))

/-- WIPE (R152). -/
def execWipe (s : State) : Result :=
  succeed ({ s with v := Vector.replicate 16 0 } : State).clearFlags

end Sys2Proof.Machine
end

