-- ==== Sys2Proof/Machine/Dispatch.lean ====
section
/-! DEFINITION. `Exec` of 30_encoding.md R130, one arm per command. -/

namespace Sys2Proof.Machine

def exec (i : Instr) (s : State) : Host.Outcome State Fault Refusal :=
  match i with
  -- 40_vli.md
  | .nop => Sys2Proof.Machine.execNop s
  | .add rd ra rb => Sys2Proof.Machine.execAdd rd ra rb s
  | .sub rd ra rb => Sys2Proof.Machine.execSub rd ra rb s
  | .mul rdp ra rb => Sys2Proof.Machine.execMul rdp ra rb s
  | .sqr rdp ra => Sys2Proof.Machine.execSqr rdp ra s
  | .shl rd ra imm => Sys2Proof.Machine.execShl rd ra imm s
  | .shr rd ra imm => Sys2Proof.Machine.execShr rd ra imm s
  | .cmpct ra rb => Sys2Proof.Machine.execCmpct ra rb s
  | .cmpvt ra rb => Sys2Proof.Machine.execCmpvt ra rb s
  | .mov rd ra => Sys2Proof.Machine.execMov rd ra s
  | .ldc rd sel => Sys2Proof.Machine.execLdc rd sel s
  | .wipe => Sys2Proof.Machine.execWipe s
  -- 41_modular.md
  | .modadd rd ra rb rc => Sys2Proof.Machine.execModadd rd ra rb rc s
  | .modsub rd ra rb rc => Sys2Proof.Machine.execModsub rd ra rb rc s
  | .mmod rd rap rc => Sys2Proof.Machine.execMmod rd rap rc s
  | .modinv rd ra rc => Sys2Proof.Machine.execModinv rd ra rc s
  -- 42_field.md
  | .fmul rd ra rb => Sys2Proof.Machine.execFmul rd ra rb s
  | .fsqr rd ra => Sys2Proof.Machine.execFsqr rd ra s
  | .fred rd rap => Sys2Proof.Machine.execFred rd rap s
  -- 43_point.md
  | .dblj rx ry rz => Sys2Proof.Machine.execDblj rx ry rz s
  | .xyczadd rx1 ry1 rx2 ry2 => Sys2Proof.Machine.execXyczadd rx1 ry1 rx2 ry2 s
  | .xyczaddc rx1 ry1 rx2 ry2 => Sys2Proof.Machine.execXyczaddc rx1 ry1 rx2 ry2 s
  | .padd rdp rap rbp => Sys2Proof.Machine.execPadd rdp rap rbp s
  | .pmul rdp rap rb => Sys2Proof.Machine.execPmul rdp rap rb s

end Sys2Proof.Machine
end

