-- ==== Sys2Proof/Machine/Engine.lean ====
section
/-! DEFINITION. The engine's completion step (30_encoding.md R130) and the turns of the machine's agents
(00_scope.md R13). -/

namespace Sys2Proof.Machine

/-- `EngineStep` of a BUSY engine (R130): decode CMD, then the command or the error completion. The checks
that read the state (CURVE, OPERAND) stand in each command's meaning. -/
def engineStep (s : State) : Result :=
  match decode s.cmd with
  | .error e => fail s e
  | .ok i => exec i s

/-- The engine has its turn: it steps exactly when STATUS.BUSY = 1 (R130). An IDLE core keeps its state
(60_exceptions.md R286). -/
def engineTurn (s : State) : Result :=
  match s.status.busy with
  | true => engineStep s
  | false => .next s

/-- One turn (R13, R92, R310). -/
def runTurn (t : Turn) (s : State) : Result :=
  match t with
  | .host tr => .next (s.transact tr)
  | .engine => engineTurn s
  | .reset cut => .next (s.applyReset cut)

/-- The next move: the first turn of the schedule, and the engine's turn when the schedule is empty, so that
a BUSY engine always completes (10_state.md R47; log entry 1). -/
def nextMove (s : State) : Result :=
  match s.schedule with
  | [] => engineTurn s
  | t :: rest => runTurn t { s with schedule := rest }

/-- The core just after it accepted `w` (20_memory.md R89), with no error pending and the engine to move
next. -/
def State.withCommand (s : State) (w : Limb) : State :=
  { (s.acceptCommand w) with
    status := { (s.acceptCommand w).status with errv := false, errcode := 0 }
    schedule := [] }

end Sys2Proof.Machine
end

