-- ==== Sys2Proof/Machine/Methods.lean ====
section
/-! DEFINITION. The methods the spec gives as informative: the align-and-subtract reduction (41_modular.md
R184), the secp256k1 two-fold reduction (42_field.md R204) and the co-Z ladder (43_point.md R243). No
command's value is defined by them; statements compare them with the values the rules give. -/

namespace Sys2Proof.Machine

/-- `rounds` rounds of "if v >= mm: v <- v - mm; mm <- mm >> 1" (R184). -/
def alignedSubtract : (rounds v mm : Nat) → Nat
  | 0, v, _ => v
  | rounds + 1, v, mm => alignedSubtract rounds (if mm ≤ v then v - mm else v) (mm / 2)

/-- R184's method: `shift + 1` rounds from the modulus aligned with bit 511. -/
def mmodMethod (v m : Nat) : Nat :=
  let shift := 512 - bitlen m
  alignedSubtract (shift + 1) v (m * 2 ^ shift)

/-- One fold of the high half: `t[255:0] + t[511:256] · C_K1` (R204). -/
def foldHigh (t : Nat) : Nat := t % 2 ^ 256 + t / 2 ^ 256 * Config.cK1

/-- `fast_reduce(v)`: two folds and at most one subtraction (R204). -/
def fastReduce (v : Nat) : Nat :=
  let t := foldHigh (foldHigh v)
  if Config.pK1 ≤ t then t - Config.pK1 else t

/-- The ladder's two working points, and the iterations counted so far (10_state.md R34, 43_point.md R243). -/
structure LadderState where
  r0 : AffinePoint
  r1 : AffinePoint
  iterations : Nat
  deriving DecidableEq, Repr

/-- `R[i]`, selected by index parity. -/
def LadderState.get (l : LadderState) (i : Bool) : AffinePoint :=
  match i with
  | false => l.r0
  | true => l.r1

/-- Run a co-Z operation on `(R[i], R[1-i])`, in place. -/
def LadderState.apply (l : LadderState) (f : CoZPair → CoZPair) (i : Bool) : LadderState :=
  let q := f { p1 := l.get i, p2 := l.get (!i) }
  match i with
  | false => { l with r0 := q.p1, r1 := q.p2 }
  | true => { l with r1 := q.p1, r0 := q.p2 }

/-- Count one iteration. -/
def LadderState.count (l : LadderState) : LadderState := { l with iterations := l.iterations + 1 }

/-- Step 1: the co-Z pair `P`, `2P`, the iteration of the top bit (R243). -/
def ladderStart (mode : Mode) (p : Nat) (q : AffinePoint) : LadderState :=
  let d := doubleJacobian mode p { x := q.x, y := q.y, z := 1 }
  let z2 := fsqr p d.z
  { r0 := { x := fmul p q.x z2, y := fmul p q.y (fmul p z2 d.z) }
    r1 := { x := d.x, y := d.y }
    iterations := 1 }

/-- Step 2: the bits `i` down to 1, one iteration a bit (R243). -/
def ladderBits (p k : Nat) : Nat → LadderState → LadderState
  | 0, l => l
  | i + 1, l =>
    let b := k.testBit (i + 1)
    ladderBits p k i (((l.apply (coZAddConjugate p) b).apply (coZAdd p) (!b)).count)

/-- Steps 3 and 4: the last bit's iteration, the recovery of `1/Z` and the last addition (R243). -/
def ladderFinish (p k : Nat) (q : AffinePoint) (l : LadderState) : AffinePoint × Nat :=
  let b := k.testBit 0
  let l := (l.apply (coZAddConjugate p) b).count
  let z := fmul p (fmul p (fsub p l.r1.x l.r0.x) (l.get b).y) q.x
  let z := (modinv z p).1
  let z := fmul p (fmul p z q.y) (l.get b).x
  let l := l.apply (coZAdd p) (!b)
  let z2 := fsqr p z
  ({ x := fmul p l.r0.x z2, y := fmul p l.r0.y (fmul p z2 z) }, l.iterations)

/-- The informative ladder over the `nbits` bits of `k`, with the number of iterations it ran (R243). -/
def ladder (mode : Mode) (p : Nat) (q : AffinePoint) (k nbits : Nat) : AffinePoint × Nat :=
  ladderFinish p k q (ladderBits p k (nbits - 2) (ladderStart mode p q))

end Sys2Proof.Machine
end

