-- ==== Sys2Proof/Safety.lean ====
section
/-! DEFINITION. What the statements say about a run: the invariant of the control registers, and the frames of
the commands. -/

namespace Sys2Proof.Machine

/-- STATUS is consistent (10_state.md R41, 60_exceptions.md R271, R274): no pending error means code 0, a
pending error has a code from 1 to 4, a BUSY engine shows neither DONE nor ERRV, and DONE and ERRV are never
both 1. -/
def Status.Consistent (st : Status) : Prop :=
  (st.errv = false → st.errcode = 0) ∧
  (st.errv = true → 1 ≤ st.errcode.toNat ∧ st.errcode.toNat ≤ 4) ∧
  (st.busy = true → st.done = false ∧ st.errv = false) ∧
  ¬(st.done = true ∧ st.errv = true)

/-- At most one of LT, EQ and GT is 1: none before the first comparison, exactly one after it (R42). -/
def Flags.OrderExclusive (f : Flags) : Prop :=
  ¬(f.lt = true ∧ f.eq = true) ∧ ¬(f.lt = true ∧ f.gt = true) ∧ ¬(f.eq = true ∧ f.gt = true)

/-- The invariant of the control registers: STATUS is consistent, the comparison flags are exclusive, and
ITER is at most 257 (60_exceptions.md R282). -/
def State.Inv (s : State) : Prop :=
  s.status.Consistent ∧ s.flags.OrderExclusive ∧ s.iter.toNat ≤ 257

/-- The engine's turn is the next move of `s`: the schedule is empty, or its first turn is the engine's. `s'` is
the state the engine then works on, which is `s` without that turn (log entry 1). -/
def EngineMovesNext (s s' : State) : Prop :=
  (s.schedule = [] ∧ s' = s) ∨ ∃ rest, s.schedule = .engine :: rest ∧ s' = { s with schedule := rest }

/-- `t` is `s` after a success completion, as far as STATUS tells (60_exceptions.md R273). -/
def Done (s t : State) : Prop := t.status = { s.status with busy := false, done := true }

/-- The descriptor, CFG, CMD, IE and ERRCMD, which no successful command writes (10_state.md R35 to R46). -/
def ControlKept (s t : State) : Prop :=
  t.cp = s.cp ∧ t.cn = s.cn ∧ t.cb = s.cb ∧ t.cgx = s.cgx ∧ t.cgy = s.cgy ∧ t.cfg = s.cfg ∧
  t.cmd = s.cmd ∧ t.ie = s.ie ∧ t.errcmd = s.errcmd

/-- Every operand register outside `rs` keeps its value. -/
def OthersKept (rs : List Reg) (s t : State) : Prop := ∀ r, r ∉ rs → t.getV r = s.getV r

/-- The frame of a command that succeeds and writes the operand registers `rs` at most, no flag and not
ITER. -/
def WritesOnly (rs : List Reg) (s t : State) : Prop :=
  OthersKept rs s t ∧ t.flags = s.flags ∧ t.iter = s.iter ∧ ControlKept s t ∧ Done s t

/-- `t` is `s` after an error completion with code `code`, and nothing else changed (R272). -/
def FailedWith (code : BitVec 4) (s t : State) : Prop :=
  t = { s with
    status := { s.status with busy := false, errv := true, errcode := code }
    errcmd := s.cmd }

end Sys2Proof.Machine
end

