-- ==== Sys2Proof/Certificates/Slice0/Obligations.lean ====
section
/-! DEFINITION. The statements about the core, each from the rules its docstring names. -/

open Sys2Proof Sys2Proof.Machine

/-! ## Encoding (30_encoding.md) -/

/-- R111, R116, R117: encoding a well-formed command and decoding the word gives the command back, for every
operand value the fields admit. -/
def Obligations.DecodeInvertsEncode : Prop :=
  ∀ i : Instr, i.wf = true → decode (encode i) = .ok i

/-- R110, R117, R120: each word has at most one meaning. A word that decodes is the encoding of the command it
decodes to, and that command is well formed. -/
def Obligations.EncodeInvertsDecode : Prop :=
  ∀ (w : Limb) (i : Instr), decode w = .ok i → encode i = w ∧ i.wf = true

/-- R124: the encoding arithmetic, with its four examples. -/
def Obligations.EncodingArithmetic : Prop :=
  (∀ (imm : BitVec 8) (rc rb ra rd : Reg) (opc : BitVec 8),
    (pack imm rc rb ra rd opc).toNat =
      opc.toNat + rd.toNat * 2 ^ 8 + ra.toNat * 2 ^ 12 + rb.toNat * 2 ^ 16 + rc.toNat * 2 ^ 20
        + imm.toNat * 2 ^ 24) ∧
  encode (.add 3 1 2) = 0x00021301#64 ∧ encode (.fmul 0 4 5) = 0x00054020#64 ∧
  encode (.pmul 1 0 8) = 0x00080234#64 ∧ encode (.shr 1 1 255) = 0xFF001106#64

/-- 95_test_vectors.md section 2.1: one word of each family decodes to the command it stands for. -/
def Obligations.SampleWordsDecode : Prop :=
  decode 0x00021301#64 = .ok (.add 3 1 2) ∧ decode 0x00032003#64 = .ok (.mul 0 2 3) ∧
  decode 0x0000180A#64 = .ok (.ldc 8 .n) ∧ decode 0x00700212#64 = .ok (.mmod 2 0 7) ∧
  decode 0x00000322#64 = .ok (.fred 3 0) ∧ decode 0x00321032#64 = .ok (.xyczaddc 0 1 2 3) ∧
  decode 0x00080234#64 = .ok (.pmul 1 0 8)

/-- R119: the illegal opcodes are 0x0C to 0x0F, 0x14 to 0x1F, 0x23 to 0x2F and 0x35 to 0xFF, and a command
with one completes with ILLEGAL_OPCODE at its engine turn, which changes nothing else. -/
def Obligations.ReservedOpcodesAreIllegal : Prop :=
  (∀ w : Limb, decode w = .error .illegalOpcode ↔
    (0x0C ≤ w.toNat % 256 ∧ w.toNat % 256 ≤ 0x0F) ∨ (0x14 ≤ w.toNat % 256 ∧ w.toNat % 256 ≤ 0x1F) ∨
    (0x23 ≤ w.toNat % 256 ∧ w.toNat % 256 ≤ 0x2F) ∨ 0x35 ≤ w.toNat % 256) ∧
  (∀ s s' : State, EngineMovesNext s s' → s.status.busy = true → decode s.cmd = .error .illegalOpcode →
    ∃ t, step s = .next t ∧ FailedWith 1 s' t)

/-- One row of spec/opcode_table.json: the bits its mask fixes, over all 64 bits of CMD (bits 63:32 are fixed
to zero by R110), and their value. -/
structure TableRow where
  mask : Limb
  pattern : Limb

/-- spec/opcode_table.json: match and mask of every row, in its order. -/
def tableRows : List TableRow :=
  [⟨0xFFFFFFFFFFFFFFFF, 0x00⟩, ⟨0xFFFFFFFFFFF000FF, 0x01⟩, ⟨0xFFFFFFFFFFF000FF, 0x02⟩,
   ⟨0xFFFFFFFFFFF001FF, 0x03⟩, ⟨0xFFFFFFFFFFFF01FF, 0x04⟩, ⟨0xFFFFFFFF00FF00FF, 0x05⟩,
   ⟨0xFFFFFFFF00FF00FF, 0x06⟩, ⟨0xFFFFFFFFFFF00FFF, 0x07⟩, ⟨0xFFFFFFFFFFF00FFF, 0x08⟩,
   ⟨0xFFFFFFFFFFFF00FF, 0x09⟩, ⟨0xFFFFFFFFFFFF00FF, 0x0A⟩, ⟨0xFFFFFFFFFFFFFFFF, 0x0B⟩,
   ⟨0xFFFFFFFFFF0000FF, 0x10⟩, ⟨0xFFFFFFFFFF0000FF, 0x11⟩, ⟨0xFFFFFFFFFF0F10FF, 0x12⟩,
   ⟨0xFFFFFFFFFF0F00FF, 0x13⟩, ⟨0xFFFFFFFFFFF000FF, 0x20⟩, ⟨0xFFFFFFFFFFFF00FF, 0x21⟩,
   ⟨0xFFFFFFFFFFFF10FF, 0x22⟩, ⟨0xFFFFFFFFFFF000FF, 0x30⟩, ⟨0xFFFFFFFFFF0000FF, 0x31⟩,
   ⟨0xFFFFFFFFFF0000FF, 0x32⟩, ⟨0xFFFFFFFFFFF111FF, 0x33⟩, ⟨0xFFFFFFFFFFF011FF, 0x34⟩]

/-- The field checks of R121 that the masks do not hold: LDC's selector is at most 5 (R115), DBLJ's three
in-place fields differ, and XYCZADD's and XYCZADDC's four do (R118). -/
def RegisterFieldsLegal (w : Limb) : Prop :=
  (opcOf w = 0x0A#8 → (raOf w).toNat ≤ 5) ∧
  (opcOf w = 0x30#8 → [rdOf w, raOf w, rbOf w].Nodup) ∧
  (opcOf w = 0x31#8 ∨ opcOf w = 0x32#8 → [rdOf w, raOf w, rbOf w, rcOf w].Nodup)

/-- R113, R115, R117, R118: a word decodes exactly when it matches its row of the opcode table (must-be-zero
fields zero, pair fields even) and its selector and in-place fields are legal; a word with a legal opcode
that does not is ILLEGAL_FIELD. -/
def Obligations.WordsDecodeByTheTable : Prop :=
  ∀ w : Limb,
    ((∃ i, decode w = .ok i) ↔
      (∃ r ∈ tableRows, w &&& r.mask = r.pattern) ∧ RegisterFieldsLegal w) ∧
    ((∃ r ∈ tableRows, opcOf w = r.pattern.setWidth 8) →
      (∀ i, decode w ≠ .ok i) → decode w = .error .illegalField)

/-! ## The step (30_encoding.md R130, 00_scope.md R13) -/

/-- R130: when CMD of a BUSY core decodes to a command, the engine's turn is that command's meaning, whether
the engine's turn is the first of the schedule or the schedule is empty. -/
def Obligations.StepRunsTheDecodedCommand : Prop :=
  ∀ (s : State) (i : Instr), s.status.busy = true → decode s.cmd = .ok i →
    (s.schedule = [] → step s = exec i s) ∧
    (∀ rest, s.schedule = .engine :: rest → step s = exec i { s with schedule := rest })

/-- R121, R130, R272: when CMD of a BUSY core does not decode, the engine's turn is the error completion with
the decoder's code, whether that turn is the first of the schedule or the schedule is empty. -/
def Obligations.StepFailsAnUndecodableCommand : Prop :=
  ∀ (s s' : State) (e : ErrorCode), EngineMovesNext s s' → s.status.busy = true → decode s.cmd = .error e →
    ∃ t, step s = .next t ∧ FailedWith (errorNumber e) s' t ∧
      (e = .illegalOpcode → t.status.errcode = 1) ∧ (e = .illegalField → t.status.errcode = 2)

/-- R81, R92, R286, R310, and the schedule and the response of log entries 1 and 2 (DESIGN CHOICES of the model):
a step takes the first turn of the schedule. A read turn is `BusRead`, whose data and response become the
response, and changes nothing else; a write turn leaves `BusWrite`'s state with its response; an IDLE core with
an empty schedule, and an engine turn of an IDLE core, keep the state. -/
def Obligations.StepTakesTheFirstTurn : Prop :=
  (∀ s : State, s.schedule = [] → s.status.busy = false → step s = .next s) ∧
  (∀ (s : State) (rest : List Turn), s.schedule = .engine :: rest → s.status.busy = false →
    step s = .next { s with schedule := rest }) ∧
  (∀ (s : State) (off : BitVec 12) (lanes : BitVec 8) (rest : List Turn),
    s.schedule = .host (.read off lanes) :: rest →
    step s = .next { s with
      schedule := rest
      response := some (.read (s.busRead off lanes).1 (s.busRead off lanes).2) }) ∧
  (∀ (s s' t : State) (off : BitVec 12) (lanes : BitVec 8) (d : Limb) (resp : Resp) (rest : List Turn),
    s.schedule = .host (.write off lanes d) :: rest → s' = { s with schedule := rest } →
    s'.busWrite off lanes d = (t, resp) → step s = .next { t with response := some (.write resp) }) ∧
  (∀ (s : State) (cut : Bool) (rest : List Turn), s.schedule = .reset cut :: rest →
    step s = .next (State.applyReset { s with schedule := rest } cut))

/-- R89, R130, R272, with the schedule and the response of log entries 1 and 2 (DESIGN CHOICES of the model): a host
write of `w` to CMD of an IDLE core without a pending error is answered OKAY and leaves the core BUSY with `w`
in CMD; the engine's turn then runs the command `w` decodes to, or fails with the decoder's code. -/
def Obligations.OfferedCommandRuns : Prop :=
  ∀ (s : State) (w : Limb) (rest : List Turn), s.status.busy = false → s.status.errv = false →
    s.schedule = .host (.write 0x010 0xFF w) :: .engine :: rest →
    ∃ t, step s = .next t ∧ t.response = some (.write .okay) ∧ t.status.busy = true ∧
      t.status.done = false ∧ t.cmd = w ∧ t.v = s.v ∧
      (∀ i, decode w = .ok i → step t = exec i { t with schedule := rest }) ∧
      (∀ e, decode w = .error e → ∃ u, step t = .next u ∧ u.errcmd = w ∧ u.status.errv = true ∧
        u.status.errcode = errorNumber e ∧ u.status.busy = false ∧ u.v = s.v)

/-- R270: the core has no traps. Every step of every state answers a next state. -/
def Obligations.EveryStepHasANextState : Prop := ∀ s : State, ∃ t, step s = .next t

/-- R47, R130, R270, with the finite schedule of log entry 1 (a DESIGN CHOICE of the model): a BUSY engine becomes
IDLE, at the latest one step after the schedule's last turn; and where no reset is scheduled its command
completes. The engine's turn comes with CMD, the operands, the descriptor, FLAGS, ITER and ERRCMD as they were
(the host can change IE and STATUS's other bits while BUSY), and ends with DONE, or with one error code and
nothing else changed. -/
def Obligations.BusyEngineCompletes : Prop :=
  ∀ s : State, s.status.busy = true →
    (∃ k t, k ≤ s.schedule.length + 1 ∧ core.run k s = .next t ∧ t.status.busy = false) ∧
    ((∀ cut, Turn.reset cut ∉ s.schedule) →
      ∃ k t t' u, k ≤ s.schedule.length ∧ core.run k s = .next t ∧ EngineMovesNext t t' ∧
        t' = { s with schedule := t'.schedule, response := t'.response, ie := t'.ie, status := t'.status } ∧
        t'.status.busy = true ∧ step t = .next u ∧
        (Done t' u ∨ ∃ code : BitVec 4, 1 ≤ code ∧ code ≤ 4 ∧ FailedWith code t' u))

/-! ## Checks and completions (30_encoding.md, 60_exceptions.md) -/

/-- A legal opcode: one of a row of the table (R116). -/
def OpcodeLegal (w : Limb) : Prop := ∃ r ∈ tableRows, opcOf w = r.pattern.setWidth 8

/-- The field check of R121 passes: the word matches its row and its register fields are legal. -/
def FieldsLegal (w : Limb) : Prop := (∃ r ∈ tableRows, w &&& r.mask = r.pattern) ∧ RegisterFieldsLegal w

/-- The curve check of R121 and R122 passes: `CurveOK` for the opcodes 0x20 to 0x33, `CurveOKn` for 0x34. -/
def CurveLegal (s : State) (w : Limb) : Prop :=
  (0x20 ≤ (opcOf w).toNat ∧ (opcOf w).toNat ≤ 0x33 → s.curveOK = true) ∧
  (opcOf w = 0x34#8 → s.curveOKn = true)

/-- The value check of R123 passes. -/
def ValuesLegal (s : State) (w : Limb) : Prop :=
  (opcOf w = 0x12#8 → (s.getV (rcOf w)).toNat ≠ 0) ∧
  (opcOf w = 0x13#8 → (s.getV (rcOf w)).toNat % 2 = 1 ∧ (s.getV (rcOf w)).toNat ≠ 1) ∧
  (opcOf w = 0x34#8 → (s.getV (rbOf w)).toNat ≤ s.cn.toNat)

/-- R121 with R122 and R123: the engine's turn of a BUSY core runs the checks in the order opcode, fields,
curve, values; the first that fails decides the code, and the failed command changes STATUS and ERRCMD only;
if none fails the command succeeds. -/
def Obligations.ChecksDecideTheCompletion : Prop :=
  ∀ s s' : State, EngineMovesNext s s' → s.status.busy = true →
    ∃ t, step s = .next t ∧
      (¬OpcodeLegal s.cmd → FailedWith 1 s' t) ∧
      (OpcodeLegal s.cmd → ¬FieldsLegal s.cmd → FailedWith 2 s' t) ∧
      (OpcodeLegal s.cmd → FieldsLegal s.cmd → ¬CurveLegal s s.cmd → FailedWith 3 s' t) ∧
      (OpcodeLegal s.cmd → FieldsLegal s.cmd → CurveLegal s s.cmd → ¬ValuesLegal s s.cmd →
        FailedWith 4 s' t) ∧
      (OpcodeLegal s.cmd → FieldsLegal s.cmd → CurveLegal s s.cmd → ValuesLegal s s.cmd → Done s' t)

/-- R130, R271, R272, R273: a command either succeeds with DONE, keeping ERRCMD, or fails with one code from 2
to 4 and no effect. What a success writes is said command by command below. -/
def Obligations.CommandsSucceedOrFailWithoutEffect : Prop :=
  ∀ (i : Instr) (s : State), ∃ t, exec i s = .next t ∧
    ((Done s t ∧ t.errcmd = s.errcmd) ∨ ∃ code : BitVec 4, 2 ≤ code ∧ code ≤ 4 ∧ FailedWith code s t)

/-- R35 ("No command writes them"), R38, R40, R43: no command changes the descriptor, CFG, CMD, IE or
STATUS.CMDDROP, nor the schedule and the response, which are the model's own (log entries 1 and 2, DESIGN
CHOICE). -/
def Obligations.NoCommandWritesTheDescriptor : Prop :=
  ∀ (i : Instr) (s t : State), exec i s = .next t →
    t.cp = s.cp ∧ t.cn = s.cn ∧ t.cb = s.cb ∧ t.cgx = s.cgx ∧ t.cgy = s.cgy ∧ t.cfg = s.cfg ∧
    t.cmd = s.cmd ∧ t.ie = s.ie ∧ t.schedule = s.schedule ∧ t.response = s.response ∧
    t.status.cmddrop = s.status.cmddrop

/-- The commands that write FLAGS.C (R42). -/
def writesC : Instr → Bool
  | .add _ _ _ => true
  | .sub _ _ _ => true
  | .wipe => true
  | _ => false

/-- The commands that write FLAGS.LT, EQ and GT (R42). -/
def writesOrder : Instr → Bool
  | .cmpct _ _ => true
  | .cmpvt _ _ => true
  | .wipe => true
  | _ => false

/-- The commands that write FLAGS.NI (R42). -/
def writesNi : Instr → Bool
  | .modinv _ _ _ => true
  | .wipe => true
  | _ => false

/-- The commands that write FLAGS.INF (R42). -/
def writesInf : Instr → Bool
  | .padd _ _ _ => true
  | .pmul _ _ _ => true
  | .wipe => true
  | _ => false

/-- R42: each flag is written only by the commands listed, "and keeps its value otherwise"; a command that
ends in error writes no flag. -/
def Obligations.FlagsHaveTheirWritersOnly : Prop :=
  ∀ (i : Instr) (s t : State), exec i s = .next t →
    (writesC i = false → t.flags.c = s.flags.c) ∧
    (writesOrder i = false →
      t.flags.lt = s.flags.lt ∧ t.flags.eq = s.flags.eq ∧ t.flags.gt = s.flags.gt) ∧
    (writesNi i = false → t.flags.ni = s.flags.ni) ∧
    (writesInf i = false → t.flags.inf = s.flags.inf) ∧
    (¬Done s t → t.flags = s.flags)

/-- R45: a successful PMUL writes ITER with NBITS_N + 1, and nothing else writes ITER. -/
def Obligations.OnlyPmulWritesIter : Prop :=
  ∀ (i : Instr) (s t : State), exec i s = .next t → t.iter ≠ s.iter →
    (∃ rdp rap rb, i = .pmul rdp rap rb) ∧ Done s t ∧ t.iter.toNat = s.nbitsN + 1

/-- The command takes a `DRAW` in this state: PADD or PMUL past its checks on an operand that is not a valid
point (R131). -/
def takesDraw (i : Instr) (s : State) : Bool :=
  match i with
  | .padd _ rap rbp =>
    s.curveOK && !(s.curve.validPt (s.getPoint rap) && s.curve.validPt (s.getPoint rbp))
  | .pmul _ rap rb =>
    s.curveOKn && decide ((s.getV rb).toNat ≤ s.cn.toNat) && !s.curve.validPt (s.getPoint rap)
  | _ => false

/-- R131, with the draw counter of log entry 3 (a DESIGN CHOICE of the model): a command that takes no draw is a
function of the command and the rest of the state, whatever the counter; a command that takes one moves the
counter on, so that nothing ties two draws to one value. -/
def Obligations.OnlyPointCommandsDraw : Prop :=
  ∀ (i : Instr) (s t : State), exec i s = .next t →
    (takesDraw i s = false →
      t.draws = s.draws ∧ ∀ n, exec i { s with draws := n } = .next { t with draws := n }) ∧
    (takesDraw i s = true → t.draws = s.draws + 1)

/-- The commands that read nothing of the descriptor: the VLI commands but LDC, and the modular commands. -/
def descriptorFree : Instr → Bool
  | .nop => true
  | .add _ _ _ => true
  | .sub _ _ _ => true
  | .mul _ _ _ => true
  | .sqr _ _ => true
  | .shl _ _ _ => true
  | .shr _ _ _ => true
  | .cmpct _ _ => true
  | .cmpvt _ _ => true
  | .mov _ _ => true
  | .wipe => true
  | .modadd _ _ _ _ => true
  | .modsub _ _ _ _ => true
  | .mmod _ _ _ => true
  | .modinv _ _ _ => true
  | _ => false

/-- R122, R312: the VLI commands but LDC and the modular commands do the same whatever the descriptor and CFG
hold. -/
def Obligations.IntegerCommandsIgnoreTheDescriptor : Prop :=
  ∀ (i : Instr) (s t : State) (p n b gx gy : Vli) (c : Cfg), descriptorFree i = true → exec i s = .next t →
    exec i { s with cp := p, cn := n, cb := b, cgx := gx, cgy := gy, cfg := c } =
      .next { t with cp := p, cn := n, cb := b, cgx := gx, cgy := gy, cfg := c }

/-! ## VLI commands (40_vli.md) -/

/-- R141 and R152: NOP changes nothing but STATUS; WIPE clears every operand register and FLAGS and keeps the
descriptor, CFG, ITER, ERRCMD, CMD and IE. -/
def Obligations.NopAndWipe : Prop :=
  decode (pack 0 0 0 0 0 0x00) = .ok .nop ∧ decode (pack 0 0 0 0 0 0x0B) = .ok .wipe ∧
  ∀ s : State,
    (∃ t, exec .nop s = .next t ∧ WritesOnly [] s t) ∧
    (∃ t, exec .wipe s = .next t ∧ (∀ r, t.getV r = 0) ∧ t.flagsWord = 0 ∧ t.iter = s.iter ∧
      ControlKept s t ∧ Done s t)

/-- R142: ADD writes the low 256 bits of the sum and FLAGS.C its bit 256; nothing else changes. -/
def Obligations.AddWritesSumAndCarry : Prop :=
  ∀ (rd ra rb : Reg),
    decode (pack 0 0 rb ra rd 0x01) = .ok (.add rd ra rb) ∧
    ∀ s : State, ∃ t, exec (.add rd ra rb) s = .next t ∧
      (t.getV rd).toNat = ((s.getV ra).toNat + (s.getV rb).toNat) % 2 ^ 256 ∧
      t.flags = { s.flags with c := ((s.getV ra).toNat + (s.getV rb).toNat).testBit 256 } ∧
      OthersKept [rd] s t ∧ t.iter = s.iter ∧ ControlKept s t ∧ Done s t

/-- R143: SUB writes the difference modulo 2^256 and FLAGS.C the borrow; nothing else changes. -/
def Obligations.SubWritesDifferenceAndBorrow : Prop :=
  ∀ (rd ra rb : Reg),
    decode (pack 0 0 rb ra rd 0x02) = .ok (.sub rd ra rb) ∧
    ∀ s : State, ∃ t, exec (.sub rd ra rb) s = .next t ∧
      ((t.getV rd).toNat : Int) = (((s.getV ra).toNat : Int) - ((s.getV rb).toNat : Int)) % 2 ^ 256 ∧
      t.flags = { s.flags with c := decide ((s.getV ra).toNat < (s.getV rb).toNat) } ∧
      OthersKept [rd] s t ∧ t.iter = s.iter ∧ ControlKept s t ∧ Done s t

/-- R144, R145, with the pairs of R33 and R113 (pair `k` is the registers `2k` and `2k + 1`): MUL and SQR write the
exact 512-bit product to the pair, the low half to the even register, and change nothing else; an odd pair field
is ILLEGAL_FIELD. -/
def Obligations.MulAndSqrWriteTheExactProduct : Prop :=
  (∀ k : Pair, (loReg k).toNat = 2 * k.toNat ∧ (hiReg k).toNat = 2 * k.toNat + 1) ∧
  (∀ (rdp : Pair) (ra rb : Reg),
    decode (pack 0 0 rb ra (rdp ++ 0#1) 0x03) = .ok (.mul rdp ra rb) ∧
    ∀ s : State, ∃ t, exec (.mul rdp ra rb) s = .next t ∧
      (t.getV (loReg rdp)).toNat + 2 ^ 256 * (t.getV (hiReg rdp)).toNat =
        (s.getV ra).toNat * (s.getV rb).toNat ∧
      WritesOnly [loReg rdp, hiReg rdp] s t) ∧
  (∀ (rdp : Pair) (ra : Reg),
    decode (pack 0 0 0 ra (rdp ++ 0#1) 0x04) = .ok (.sqr rdp ra) ∧
    ∀ s : State, ∃ t, exec (.sqr rdp ra) s = .next t ∧
      (t.getV (loReg rdp)).toNat + 2 ^ 256 * (t.getV (hiReg rdp)).toNat = (s.getV ra).toNat ^ 2 ∧
      WritesOnly [loReg rdp, hiReg rdp] s t) ∧
  (∀ w : Limb, opcOf w = 0x03#8 ∨ opcOf w = 0x04#8 → (rdOf w).getLsbD 0 = true →
    decode w = .error .illegalField)

/-- R146, R147: SHL and SHR are logical shifts by the unsigned IMM8; nothing else changes. -/
def Obligations.ShiftsAreLogical : Prop :=
  ∀ (rd ra : Reg) (imm : BitVec 8),
    decode (pack imm 0 0 ra rd 0x05) = .ok (.shl rd ra imm) ∧
    decode (pack imm 0 0 ra rd 0x06) = .ok (.shr rd ra imm) ∧
    ∀ s : State,
      (∃ t, exec (.shl rd ra imm) s = .next t ∧ t.getV rd = s.getV ra <<< imm.toNat ∧
        WritesOnly [rd] s t) ∧
      (∃ t, exec (.shr rd ra imm) s = .next t ∧ t.getV rd = s.getV ra >>> imm.toNat ∧
        WritesOnly [rd] s t)

/-- What a comparison leaves: exactly one of LT, EQ and GT by the unsigned order, and nothing else changed. -/
def SetsOneOrderFlag (ra rb : Reg) (s t : State) : Prop :=
  (t.flags.lt = true ↔ (s.getV ra).toNat < (s.getV rb).toNat) ∧
  (t.flags.eq = true ↔ s.getV ra = s.getV rb) ∧
  (t.flags.gt = true ↔ (s.getV rb).toNat < (s.getV ra).toNat) ∧
  [t.flags.lt, t.flags.eq, t.flags.gt].count true = 1 ∧
  t.flags.c = s.flags.c ∧ t.flags.ni = s.flags.ni ∧ t.flags.inf = s.flags.inf ∧
  t.v = s.v ∧ t.iter = s.iter ∧ ControlKept s t ∧ Done s t

/-- R148, R149: CMPCT and CMPVT set exactly one of LT, EQ and GT by the unsigned order of their operands, keep
the other flags, and change nothing else; a non-zero RD is ILLEGAL_FIELD. -/
def Obligations.ComparesSetOneOrderFlag : Prop :=
  (∀ (ra rb : Reg),
    decode (pack 0 0 rb ra 0 0x07) = .ok (.cmpct ra rb) ∧
    decode (pack 0 0 rb ra 0 0x08) = .ok (.cmpvt ra rb) ∧
    ∀ s : State,
      (∃ t, exec (.cmpct ra rb) s = .next t ∧ SetsOneOrderFlag ra rb s t) ∧
      (∃ t, exec (.cmpvt ra rb) s = .next t ∧ SetsOneOrderFlag ra rb s t)) ∧
  (∀ w : Limb, opcOf w = 0x07#8 ∨ opcOf w = 0x08#8 → rdOf w ≠ 0 → decode w = .error .illegalField)

/-- R150, R151: MOV copies a register, and LDC the descriptor constant its selector names, without any
check of the descriptor; nothing else changes; a selector above 5 is ILLEGAL_FIELD. -/
def Obligations.MovAndLdcCopy : Prop :=
  (∀ (rd ra : Reg),
    decode (pack 0 0 0 ra rd 0x09) = .ok (.mov rd ra) ∧
    ∀ s : State, ∃ t, exec (.mov rd ra) s = .next t ∧ t.getV rd = s.getV ra ∧ WritesOnly [rd] s t) ∧
  (∀ (rd : Reg),
    decode (pack 0 0 0 0 rd 0x0A) = .ok (.ldc rd .p) ∧ decode (pack 0 0 0 1 rd 0x0A) = .ok (.ldc rd .n) ∧
    decode (pack 0 0 0 2 rd 0x0A) = .ok (.ldc rd .halfn) ∧
    decode (pack 0 0 0 3 rd 0x0A) = .ok (.ldc rd .b) ∧
    decode (pack 0 0 0 4 rd 0x0A) = .ok (.ldc rd .gx) ∧
    decode (pack 0 0 0 5 rd 0x0A) = .ok (.ldc rd .gy) ∧
    ∀ (s : State) (sel : Sel), ∃ t, exec (.ldc rd sel) s = .next t ∧ WritesOnly [rd] s t ∧
      (sel = .p → t.getV rd = s.cp) ∧ (sel = .n → t.getV rd = s.cn) ∧
      (sel = .halfn → (t.getV rd).toNat = s.cn.toNat / 2) ∧ (sel = .b → t.getV rd = s.cb) ∧
      (sel = .gx → t.getV rd = s.cgx) ∧ (sel = .gy → t.getV rd = s.cgy)) ∧
  (∀ w : Limb, opcOf w = 0x0A#8 → 5 < (raOf w).toNat → decode w = .error .illegalField)

/-! ## Modular commands (41_modular.md) -/

/-- R182, R183 with R180, R181: MODADD and MODSUB make one conditional correction, modulo 2^256, for every
operand and modulus; for operands below the modulus the result is the canonical sum or difference. Nothing
else changes. -/
def Obligations.ModaddAndModsubCorrectOnce : Prop :=
  ∀ (rd ra rb rc : Reg),
    decode (pack 0 rc rb ra rd 0x10) = .ok (.modadd rd ra rb rc) ∧
    decode (pack 0 rc rb ra rd 0x11) = .ok (.modsub rd ra rb rc) ∧
    ∀ (s : State) (a b m : Nat), a = (s.getV ra).toNat → b = (s.getV rb).toNat → m = (s.getV rc).toNat →
      (∃ t, exec (.modadd rd ra rb rc) s = .next t ∧ WritesOnly [rd] s t ∧
        (a + b < m → (t.getV rd).toNat = (a + b) % 2 ^ 256) ∧
        (m ≤ a + b → (t.getV rd).toNat = (a + b - m) % 2 ^ 256) ∧
        (a < m → b < m → (t.getV rd).toNat = (a + b) % m)) ∧
      (∃ t, exec (.modsub rd ra rb rc) s = .next t ∧ WritesOnly [rd] s t ∧
        (b ≤ a → (t.getV rd).toNat = a - b) ∧
        (a < b → ((t.getV rd).toNat : Int) = ((a : Int) - b + m) % 2 ^ 256) ∧
        (a < m → b < m → ((t.getV rd).toNat : Int) = ((a : Int) - b) % m))

/-- R183's law, RTW's `mod_add(mod_sub(a,b,p), b, p) == a`: for operands below the modulus, MODADD undoes
MODSUB. -/
def Obligations.ModaddUndoesModsub : Prop :=
  ∀ (s : State) (rd re ra rb rc : Reg), rd ≠ rb → rd ≠ rc →
    (s.getV ra).toNat < (s.getV rc).toNat → (s.getV rb).toNat < (s.getV rc).toNat →
    ∃ t u, exec (.modsub rd ra rb rc) s = .next t ∧ exec (.modadd re rd rb rc) t = .next u ∧
      u.getV re = s.getV ra

/-- R185: with a non-zero modulus, MMOD writes the exact remainder of the 512-bit pair and changes nothing
else; a zero modulus is OPERAND, an odd pair field ILLEGAL_FIELD. -/
def Obligations.MmodWritesTheRemainder : Prop :=
  (∀ (rd : Reg) (rap : Pair) (rc : Reg),
    decode (pack 0 rc 0 (rap ++ 0#1) rd 0x12) = .ok (.mmod rd rap rc) ∧
    (∀ s : State, (s.getV rc).toNat ≠ 0 →
      ∃ t, exec (.mmod rd rap rc) s = .next t ∧
        (t.getV rd).toNat =
          ((s.getV (loReg rap)).toNat + 2 ^ 256 * (s.getV (hiReg rap)).toNat) % (s.getV rc).toNat ∧
        WritesOnly [rd] s t) ∧
    (∀ s : State, (s.getV rc).toNat = 0 → ∃ t, exec (.mmod rd rap rc) s = .next t ∧ FailedWith 4 s t)) ∧
  (∀ w : Limb, opcOf w = 0x12#8 → (raOf w).getLsbD 0 = true → decode w = .error .illegalField)

/-- R187 with R186: with an odd modulus of at least 3, MODINV writes the unique inverse in `[1, m)` and NI = 0
when the operand is coprime to the modulus, and 0 and NI = 1 otherwise; nothing else changes. An even
or unit modulus is OPERAND. -/
def Obligations.ModinvWritesTheInverse : Prop :=
  ∀ (rd ra rc : Reg),
    decode (pack 0 rc 0 ra rd 0x13) = .ok (.modinv rd ra rc) ∧
    (∀ (s : State) (a m : Nat), a = (s.getV ra).toNat → m = (s.getV rc).toNat → m % 2 = 1 → m ≠ 1 →
      ∃ t, exec (.modinv rd ra rc) s = .next t ∧
        (Nat.gcd (a % m) m = 1 →
          t.flags = { s.flags with ni := false } ∧
          ∀ x, (t.getV rd).toNat = x ↔ 1 ≤ x ∧ x < m ∧ (a * x) % m = 1) ∧
        (Nat.gcd (a % m) m ≠ 1 → t.flags = { s.flags with ni := true } ∧ t.getV rd = 0) ∧
        OthersKept [rd] s t ∧ t.iter = s.iter ∧ ControlKept s t ∧ Done s t) ∧
    (∀ s : State, (s.getV rc).toNat % 2 = 0 ∨ (s.getV rc).toNat = 1 →
      ∃ t, exec (.modinv rd ra rc) s = .next t ∧ FailedWith 4 s t)

/-! ## Field commands (42_field.md) -/

/-- R49's `CurveOK`: in FAST mode CP is `P_K1 = 2^256 - 2^32 - 977`, in GENERIC mode CP is odd and at least 3. -/
def CurveConfigured (s : State) : Prop :=
  (s.cfg.mode = .fast → s.cp.toNat = 2 ^ 256 - 2 ^ 32 - 977) ∧
  (s.cfg.mode = .generic → s.cp.toNat % 2 = 1 ∧ 3 ≤ s.cp.toNat)

/-- R49, R201, R202, R203: `CurveOK` and `CurveOKn` (which asks that CN is not 0) read MODE, CP and CN. With
`CurveOK`, FMUL, FSQR and FRED write the product, the square and the double-width
value modulo CP, canonical, in ordinary representation, and change nothing else; without it they are CURVE;
an odd pair field of FRED is ILLEGAL_FIELD. -/
def Obligations.FieldCommandsReduceModuloCp : Prop :=
  (∀ s : State, (s.curveOK = true ↔ CurveConfigured s) ∧
    (s.curveOKn = true ↔ CurveConfigured s ∧ s.cn.toNat ≠ 0)) ∧
  (∀ (rd ra rb : Reg) (rap : Pair),
    decode (pack 0 0 rb ra rd 0x20) = .ok (.fmul rd ra rb) ∧
    decode (pack 0 0 0 ra rd 0x21) = .ok (.fsqr rd ra) ∧
    decode (pack 0 0 0 (rap ++ 0#1) rd 0x22) = .ok (.fred rd rap) ∧
    (∀ s : State, s.curveOK = true →
      (∃ t, exec (.fmul rd ra rb) s = .next t ∧ WritesOnly [rd] s t ∧
        (t.getV rd).toNat = (s.getV ra).toNat * (s.getV rb).toNat % s.cp.toNat) ∧
      (∃ t, exec (.fsqr rd ra) s = .next t ∧ WritesOnly [rd] s t ∧
        (t.getV rd).toNat = (s.getV ra).toNat ^ 2 % s.cp.toNat) ∧
      (∃ t, exec (.fred rd rap) s = .next t ∧ WritesOnly [rd] s t ∧
        (t.getV rd).toNat =
          ((s.getV (loReg rap)).toNat + 2 ^ 256 * (s.getV (hiReg rap)).toNat) % s.cp.toNat)) ∧
    (∀ s : State, s.curveOK = false →
      (∃ t, exec (.fmul rd ra rb) s = .next t ∧ FailedWith 3 s t) ∧
      (∃ t, exec (.fsqr rd ra) s = .next t ∧ FailedWith 3 s t) ∧
      (∃ t, exec (.fred rd rap) s = .next t ∧ FailedWith 3 s t))) ∧
  (∀ w : Limb, opcOf w = 0x22#8 → (raOf w).getLsbD 0 = true → decode w = .error .illegalField)

/-- R201's law, RTW's `mod_mult(a, mod_inv(a,p), p) == 1`: for `1 ≤ a < CP` with CP prime, FMUL of `a` and its
MODINV modulo CP is 1. -/
def Obligations.FmulOfTheInverseIsOne : Prop :=
  ∀ (s : State) (rd re ra rc : Reg), rd ≠ ra → s.curveOK = true → s.cp.toNat.Prime →
    s.getV rc = s.cp → 1 ≤ (s.getV ra).toNat → (s.getV ra).toNat < s.cp.toNat →
    ∃ t u, exec (.modinv rd ra rc) s = .next t ∧ exec (.fmul re ra rd) t = .next u ∧
      t.flags.ni = false ∧ u.getV re = 1

/-! ## Point commands (43_point.md) -/

/-- R223: with `CurveOK` and three different registers, DBLJ completes. For `Z = 0` it changes no register;
otherwise the three registers hold the values of the doubling formula, without any truncation. Nothing else
changes. Repeated registers are ILLEGAL_FIELD in every state, and otherwise a false `CurveOK` is CURVE. -/
def Obligations.DbljWritesTheDoubling : Prop :=
  ∀ (rx ry rz : Reg),
    ([rx, ry, rz].Nodup →
      decode (pack 0 0 rz ry rx 0x30) = .ok (.dblj rx ry rz) ∧
      (∀ s : State, s.curveOK = true →
        ∃ t, exec (.dblj rx ry rz) s = .next t ∧ WritesOnly [rx, ry, rz] s t ∧
          (s.getV rz = 0 → t.v = s.v) ∧
          (s.getV rz ≠ 0 → (⟨(t.getV rx).toNat, (t.getV ry).toNat, (t.getV rz).toNat⟩ : Jacobian) =
            doubleJacobian s.cfg.mode s.cp.toNat
              ⟨(s.getV rx).toNat, (s.getV ry).toNat, (s.getV rz).toNat⟩)) ∧
      (∀ s : State, s.curveOK = false → ∃ t, exec (.dblj rx ry rz) s = .next t ∧ FailedWith 3 s t)) ∧
    (¬[rx, ry, rz].Nodup →
      decode (pack 0 0 rz ry rx 0x30) = .error .illegalField ∧
      ∀ s : State, ∃ t, exec (.dblj rx ry rz) s = .next t ∧ FailedWith 2 s t)

/-- The two points in the registers `(a, b)` and `(c, d)`, x first (R220, R224). -/
def coZOf (s : State) (a b c d : Reg) : CoZPair :=
  ⟨⟨(s.getV a).toNat, (s.getV b).toNat⟩, ⟨(s.getV c).toNat, (s.getV d).toNat⟩⟩

/-- R224: with `CurveOK` and four different registers, XYCZADD completes with the values of the co-Z formula
in place, without any truncation; for `X1 = X2` its first two results are 0. Nothing else changes. Repeated
registers are ILLEGAL_FIELD in every state, and otherwise a false `CurveOK` is CURVE. -/
def Obligations.XyczaddWritesTheFormula : Prop :=
  ∀ (a b c d : Reg),
    ([a, b, c, d].Nodup →
      decode (pack 0 d c b a 0x31) = .ok (.xyczadd a b c d) ∧
      (∀ s : State, s.curveOK = true →
        ∃ t, exec (.xyczadd a b c d) s = .next t ∧ WritesOnly [a, b, c, d] s t ∧
          coZOf t a b c d = coZAdd s.cp.toNat (coZOf s a b c d) ∧
          (s.getV a = s.getV c → t.getV a = 0 ∧ t.getV b = 0)) ∧
      (∀ s : State, s.curveOK = false → ∃ t, exec (.xyczadd a b c d) s = .next t ∧ FailedWith 3 s t)) ∧
    (¬[a, b, c, d].Nodup →
      decode (pack 0 d c b a 0x31) = .error .illegalField ∧
      ∀ s : State, ∃ t, exec (.xyczadd a b c d) s = .next t ∧ FailedWith 2 s t)

/-- R225: with `CurveOK` and four different registers, XYCZADDC completes with the values of the conjugate
co-Z formula in place, without any truncation; the registers of `P + Q` hold what XYCZADD leaves there.
Nothing else changes. Repeated registers are ILLEGAL_FIELD in every state, and otherwise a false `CurveOK` is
CURVE. -/
def Obligations.XyczaddcWritesTheFormula : Prop :=
  ∀ (a b c d : Reg),
    ([a, b, c, d].Nodup →
      decode (pack 0 d c b a 0x32) = .ok (.xyczaddc a b c d) ∧
      (∀ s : State, s.curveOK = true →
        ∃ t u, exec (.xyczaddc a b c d) s = .next t ∧ WritesOnly [a, b, c, d] s t ∧
          coZOf t a b c d = coZAddConjugate s.cp.toNat (coZOf s a b c d) ∧
          exec (.xyczadd a b c d) s = .next u ∧ t.getV c = u.getV c ∧ t.getV d = u.getV d) ∧
      (∀ s : State, s.curveOK = false → ∃ t, exec (.xyczaddc a b c d) s = .next t ∧ FailedWith 3 s t)) ∧
    (¬[a, b, c, d].Nodup →
      decode (pack 0 d c b a 0x32) = .error .illegalField ∧
      ∀ s : State, ∃ t, exec (.xyczaddc a b c d) s = .next t ∧ FailedWith 2 s t)

/-- What a point command's completion leaves beside the point: FLAGS.INF says whether the pair holds
`(0, 0)`, and every other flag, every other register and the control registers are kept. -/
def PointFrame (rdp : Pair) (s t : State) : Prop :=
  (t.flags.inf = true ↔ t.getV (loReg rdp) = 0 ∧ t.getV (hiReg rdp) = 0) ∧
  t.flags = { s.flags with inf := t.flags.inf } ∧
  OthersKept [loReg rdp, hiReg rdp] s t ∧ ControlKept s t ∧ Done s t

/-- R226, R220: a pair is the point with x in its even register, and the curve is MODE, CP and CB. With `CurveOK`,
PADD of two valid points writes their sum by the group law, without any truncation; on an operand that is not a
valid point it writes some point (a free value, of which nothing is said; log entry 3). In both cases FLAGS.INF
follows the point and nothing else changes. A false `CurveOK` is CURVE, an odd pair field ILLEGAL_FIELD. `CurveOK`
does not ask that CP is prime: where CP is composite and the sum needs an inverse that does not exist, the value
clause is the model's choice, R221's formulas with a free value for that inverse (log entry 5, DESIGN CHOICE), and
no rule of the spec. -/
def Obligations.PaddWritesTheSum : Prop :=
  (∀ (s : State) (k : Pair), s.getPoint k = ⟨(s.getV (loReg k)).toNat, (s.getV (hiReg k)).toNat⟩ ∧
    s.curve = { mode := s.cfg.mode, p := s.cp.toNat, b := s.cb.toNat }) ∧
  (∀ (rdp rap rbp : Pair),
    decode (pack 0 0 (rbp ++ 0#1) (rap ++ 0#1) (rdp ++ 0#1) 0x33) = .ok (.padd rdp rap rbp) ∧
    (∀ s : State, s.curveOK = true →
      ∃ t, exec (.padd rdp rap rbp) s = .next t ∧ PointFrame rdp s t ∧ t.iter = s.iter ∧
        (s.curve.validPt (s.getPoint rap) = true → s.curve.validPt (s.getPoint rbp) = true →
          t.getPoint rdp = s.curve.add (s.getPoint rap) (s.getPoint rbp))) ∧
    (∀ s : State, s.curveOK = false → ∃ t, exec (.padd rdp rap rbp) s = .next t ∧ FailedWith 3 s t)) ∧
  (∀ w : Limb, opcOf w = 0x33#8 →
    (rdOf w).getLsbD 0 = true ∨ (raOf w).getLsbD 0 = true ∨ (rbOf w).getLsbD 0 = true →
    decode w = .error .illegalField)

/-- R10, R11, R220, R221 and R226's corner cases. `O` is `(0, 0)`; a valid point is `O` or a canonical solution of
the curve's equation, with `a = 0` in FAST mode and `CP - 3` in GENERIC mode; `-(x, y) = (x, (p - y) mod p)` and
`-O = O`. `O` is the identity on both sides and `P ⊕ (-P) = O`. For an odd prime CP the sum of two valid points is
a valid point, and any other sum of points that are not `O` is the chord's or the tangent's, with the slope that
solves R221's equation. -/
def Obligations.GroupLawIsChordAndTangent : Prop :=
  infinity = ⟨0, 0⟩ ∧
  ∀ c : Curve,
    (c.mode = .fast → c.a = 0) ∧ (c.mode = .generic → c.a = (c.p : Int) - 3) ∧
    (∀ q, c.validPt q = true ↔ q = infinity ∨ (q.x < c.p ∧ q.y < c.p ∧
      ((q.y : Int) ^ 2 - ((q.x : Int) ^ 3 + c.a * q.x + c.b)) % c.p = 0)) ∧
    (c.neg infinity = infinity ∧ ∀ q, q ≠ infinity → c.neg q = ⟨q.x, (c.p - q.y) % c.p⟩) ∧
    (∀ q, c.add infinity q = q ∧ c.add q infinity = q) ∧
    (∀ q, c.validPt q = true → c.add q (c.neg q) = infinity) ∧
    (c.p.Prime → c.p ≠ 2 → ∀ q1 q2, c.validPt q1 = true → c.validPt q2 = true →
      c.validPt (c.add q1 q2) = true ∧
      (q1 ≠ infinity → q2 ≠ infinity → ¬(q1.x = q2.x ∧ (q1.y + q2.y) % c.p = 0) →
        ∃ l : Int,
          (q1.x = q2.x → l * (2 * q1.y) % c.p = (3 * (q1.x : Int) ^ 2 + c.a) % c.p) ∧
          (q1.x ≠ q2.x → l * ((q2.x : Int) - q1.x) % c.p = ((q2.y : Int) - q1.y) % c.p) ∧
          ((c.add q1 q2).x : Int) = (l ^ 2 - q1.x - q2.x) % c.p ∧
          ((c.add q1 q2).y : Int) = (l * (q1.x - (c.add q1 q2).x) - q1.y) % c.p))

/-- R221, R222: `[0]P = O` and `[k+1]P = [k]P ⊕ P`; and on a curve over a prime CP that is not singular
(`4a³ + 27b² ≢ 0`) and has `b ≢ 0`, scalar multiples of a valid point add by the group law, and multiply. -/
def Obligations.ScalarMultiplesAdd : Prop :=
  ∀ (c : Curve) (q : AffinePoint) (j k : Nat),
    c.smul 0 q = infinity ∧ c.smul (k + 1) q = c.add (c.smul k q) q ∧
    (c.p.Prime → c.p ≠ 2 → c.b % c.p ≠ 0 → (4 * c.a ^ 3 + 27 * (c.b : Int) ^ 2) % c.p ≠ 0 →
      c.validPt q = true →
      c.smul (j + k) q = c.add (c.smul j q) (c.smul k q) ∧ c.smul (j * k) q = c.smul j (c.smul k q))

/-- R241, R242: with `CurveOKn` and a scalar of at most CN, PMUL of a valid point writes `[k']P` for the
regularized scalar, without any truncation; on an operand that is not a valid point it writes some point (a
free value, of which nothing is said; log entry 3). In both cases FLAGS.INF follows the point, ITER is
NBITS_N + 1 and nothing else changes. A false `CurveOKn` is CURVE, a scalar above CN OPERAND, an odd pair field
ILLEGAL_FIELD. `CurveOKn` does not ask that CP is prime: where CP is composite and a sum of the multiple needs an
inverse that does not exist, the value clause is the model's choice, R221's formulas with a free value for that
inverse and R222's recursion going on with the result (log entry 5, DESIGN CHOICE), and no rule of the spec. -/
def Obligations.PmulWritesTheScalarMultiple : Prop :=
  (∀ (rdp rap : Pair) (rb : Reg),
    decode (pack 0 0 rb (rap ++ 0#1) (rdp ++ 0#1) 0x34) = .ok (.pmul rdp rap rb) ∧
    (∀ s : State, s.curveOKn = true → (s.getV rb).toNat ≤ s.cn.toNat →
      ∃ t, exec (.pmul rdp rap rb) s = .next t ∧ PointFrame rdp s t ∧ t.iter.toNat = s.nbitsN + 1 ∧
        (s.curve.validPt (s.getPoint rap) = true →
          t.getPoint rdp =
            s.curve.smul (regularize (s.getV rb).toNat s.cn.toNat) (s.getPoint rap))) ∧
    (∀ s : State, s.curveOKn = false → ∃ t, exec (.pmul rdp rap rb) s = .next t ∧ FailedWith 3 s t) ∧
    (∀ s : State, s.curveOKn = true → s.cn.toNat < (s.getV rb).toNat →
      ∃ t, exec (.pmul rdp rap rb) s = .next t ∧ FailedWith 4 s t)) ∧
  (∀ w : Limb, opcOf w = 0x34#8 → (rdOf w).getLsbD 0 = true ∨ (raOf w).getLsbD 0 = true →
    decode w = .error .illegalField)

/-- R241's corner cases: for a point with `[CN]P = O`, PMUL gives `[k]P`; so `k = 0` and `k = CN` give `O`
with FLAGS.INF, and `k = 1` gives `P`. For a composite CP the multiples rest on the model's choice of log entry 5
(DESIGN CHOICE), as PMUL's value does. -/
def Obligations.PmulOfAPointOfOrderCn : Prop :=
  ∀ (s : State) (rdp rap : Pair) (rb : Reg), s.curveOKn = true → (s.getV rb).toNat ≤ s.cn.toNat →
    s.curve.validPt (s.getPoint rap) = true → s.curve.smul s.cn.toNat (s.getPoint rap) = infinity →
    ∃ t, exec (.pmul rdp rap rb) s = .next t ∧
      t.getPoint rdp = s.curve.smul (s.getV rb).toNat (s.getPoint rap) ∧
      (s.getV rb = 0 ∨ s.getV rb = s.cn → t.getPoint rdp = infinity ∧ t.flags.inf = true) ∧
      (s.getV rb = 1 → t.getPoint rdp = s.getPoint rap)

/-- `(X, Y, Z)` stands for the affine point `q` over `p` (R220): `X = x·Z²` and `Y = y·Z³` modulo `p` for
`Z ≢ 0`, and `O` for `Z ≡ 0`. -/
def StandsFor (p : Nat) (j : Jacobian) (q : AffinePoint) : Prop :=
  if j.z % p = 0 then q = infinity
  else j.x % p = q.x * j.z ^ 2 % p ∧ j.y % p = q.y * j.z ^ 3 % p

/-- R223's meaning: for a prime CP and a triple with `Z ≢ 0` that stands for a point of the curve, DBLJ
leaves a triple that stands for the sum of that point with itself. -/
def Obligations.DbljDoublesThePoint : Prop :=
  ∀ (s : State) (rx ry rz : Reg) (q : AffinePoint), [rx, ry, rz].Nodup → s.curveOK = true →
    s.cp.toNat.Prime → s.curve.onCurve q = true → (s.getV rz).toNat % s.cp.toNat ≠ 0 →
    StandsFor s.cp.toNat ⟨(s.getV rx).toNat, (s.getV ry).toNat, (s.getV rz).toNat⟩ q →
    ∃ t, exec (.dblj rx ry rz) s = .next t ∧
      StandsFor s.cp.toNat ⟨(t.getV rx).toNat, (t.getV ry).toNat, (t.getV rz).toNat⟩ (s.curve.add q q)

/-- R224's and R225's meaning: for a prime CP, co-Z points `P ≠ ±Q` of the curve with canonical coordinates
and a shared `Z ≢ 0`, and `Z' = Z·(X2 - X1) mod CP`: XYCZADD leaves `P` and `P ⊕ Q` with `Z'`, and XYCZADDC
`P ⊕ (-Q)` and `P ⊕ Q` with `Z'`. -/
def Obligations.CoZCommandsAddThePoints : Prop :=
  ∀ (s : State) (a b c d : Reg) (q1 q2 : AffinePoint) (z z' : Nat),
    [a, b, c, d].Nodup → s.curveOK = true → s.cp.toNat.Prime →
    (∀ r ∈ [a, b, c, d], (s.getV r).toNat < s.cp.toNat) →
    s.curve.onCurve q1 = true → s.curve.onCurve q2 = true → q1 ≠ infinity → q2 ≠ infinity →
    z % s.cp.toNat ≠ 0 →
    StandsFor s.cp.toNat ⟨(s.getV a).toNat, (s.getV b).toNat, z⟩ q1 →
    StandsFor s.cp.toNat ⟨(s.getV c).toNat, (s.getV d).toNat, z⟩ q2 →
    s.getV a ≠ s.getV c →
    (z' : Int) = ((z : Int) * ((s.getV c).toNat - (s.getV a).toNat)) % s.cp.toNat →
    (∃ t, exec (.xyczadd a b c d) s = .next t ∧
      StandsFor s.cp.toNat ⟨(t.getV a).toNat, (t.getV b).toNat, z'⟩ q1 ∧
      StandsFor s.cp.toNat ⟨(t.getV c).toNat, (t.getV d).toNat, z'⟩ (s.curve.add q1 q2)) ∧
    (∃ t, exec (.xyczaddc a b c d) s = .next t ∧
      StandsFor s.cp.toNat ⟨(t.getV a).toNat, (t.getV b).toNat, z'⟩ (s.curve.add q1 (s.curve.neg q2)) ∧
      StandsFor s.cp.toNat ⟨(t.getV c).toNat, (t.getV d).toNat, z'⟩ (s.curve.add q1 q2))

/-! ## Methods and the regularization -/

/-- R184 and R204: the align-and-subtract method with `shift + 1` rounds gives `v mod m` for every
`v < 2^512` and `1 ≤ m < 2^256`, and the two-fold method gives `v mod P_K1` (`P_K1 = 2^256 - 2^32 - 977`)
for every `v < 2^512`. -/
def Obligations.ReducersAreExact : Prop :=
  (∀ v m : Nat, v < 2 ^ 512 → 1 ≤ m → m < 2 ^ 256 → mmodMethod v m = v % m) ∧
  (∀ v : Nat, v < 2 ^ 512 → fastReduce v = v % (2 ^ 256 - 2 ^ 32 - 977))

/-- R240 and R242: the regularized scalar is `k + n` if that reaches `2^nb` and `k + 2n` otherwise; it lies in
`[2^nb, 2^(nb+1))`, so its bit length is `nb + 1`, and is congruent to the scalar; and the ladder over its
bits runs exactly `nb + 1` iterations, whatever the point and the scalar. -/
def Obligations.RegularizationFixesTheIterationCount : Prop :=
  ∀ k n : Nat, k ≤ n → 1 ≤ n →
    (2 ^ bitlen n ≤ k + n → regularize k n = k + n) ∧
    (k + n < 2 ^ bitlen n → regularize k n = k + n + n) ∧
    2 ^ bitlen n ≤ regularize k n ∧ regularize k n < 2 ^ (bitlen n + 1) ∧
    bitlen (regularize k n) = bitlen n + 1 ∧ regularize k n % n = k % n ∧
    ∀ (mode : Mode) (p : Nat) (q : AffinePoint),
      (ladder mode p q (regularize k n) (bitlen n + 1)).2 = bitlen n + 1

/-! ## The host's window (20_memory.md, 10_state.md) -/

/-- R81, R83: a narrow, misaligned or reserved transaction gets SLVERR, reads 0 and changes no state. -/
def Obligations.RefusedTransactionsChangeNothing : Prop :=
  ∀ (s : State) (off : BitVec 12) (lanes : BitVec 8) (d : Limb),
    off.toNat % 8 ≠ 0 ∨ lanes ≠ 0xFF#8 ∨ (0x040 ≤ off.toNat ∧ off.toNat ≤ 0x0F8) ∨
      (0x1C0 ≤ off.toNat ∧ off.toNat ≤ 0x1F8) ∨ 0x400 ≤ off.toNat →
    s.busRead off lanes = (0, .slverr) ∧ s.busWrite off lanes d = (s, .slverr)

/-- R86: no read has a side effect. A read turn changes nothing of the core, delivers `BusRead`'s data and response
(log entry 2), and a second read of the same location returns the same. -/
def Obligations.ReadsHaveNoSideEffect : Prop :=
  ∀ (s : State) (off : BitVec 12) (lanes : BitVec 8) (rest : List Turn),
    s.schedule = .host (.read off lanes) :: rest →
    ∃ t, step s = .next t ∧
      t = { s with
        schedule := rest
        response := some (.read (s.busRead off lanes).1 (s.busRead off lanes).2) } ∧
      ∀ u, step { t with schedule := .host (.read off lanes) :: rest } = .next u → u = t

/-- R87, R88: while BUSY every transaction to 0x100 to 0x3FF and every write to CFG gets SLVERR, reads 0 and
changes nothing; while LOCK = 1 every write to 0x100 to 0x198 gets SLVERR and changes nothing, and reads are
the same as with LOCK = 0, but for CFG itself. -/
def Obligations.BusyAndLockRefuse : Prop :=
  ∀ (s : State) (off : BitVec 12) (lanes : BitVec 8) (d : Limb),
    (s.status.busy = true → 0x100 ≤ off.toNat → off.toNat ≤ 0x3FF →
      s.busRead off lanes = (0, .slverr) ∧ s.busWrite off lanes d = (s, .slverr)) ∧
    (s.status.busy = true → off.toNat = 0x008 → s.busWrite off lanes d = (s, .slverr)) ∧
    (s.cfg.lock = true → 0x100 ≤ off.toNat → off.toNat ≤ 0x198 → s.busWrite off lanes d = (s, .slverr)) ∧
    (off.toNat ≠ 0x008 → ∀ l, State.busRead { s with cfg := { s.cfg with lock := l } } off lanes =
      s.busRead off lanes)

/-- R89: a write to CMD is dropped with SLVERR and CMDDROP while BUSY or ERRV, CMD unchanged; otherwise it is
accepted with OKAY: CMD takes all 64 bits, DONE is cleared and BUSY set. -/
def Obligations.CommandOffer : Prop :=
  ∀ (s : State) (d : Limb),
    (s.status.busy = true ∨ s.status.errv = true →
      s.busWrite 0x010 0xFF d = ({ s with status := { s.status with cmddrop := true } }, .slverr)) ∧
    (s.status.busy = false → s.status.errv = false →
      s.busWrite 0x010 0xFF d =
        ({ s with cmd := d, status := { s.status with done := false, busy := true } }, .okay))

/-- R90: the write to STATUS, also while BUSY: bit 1 clears DONE, bit 2 clears ERRV and ERRCODE, bit 3 clears
CMDDROP, other bits are ignored, the response is OKAY. -/
def Obligations.StatusWriteClears : Prop :=
  ∀ (s : State) (d : Limb), ∃ t, s.busWrite 0x018 0xFF d = (t, .okay) ∧
    t = { s with status := t.status } ∧ t.status.busy = s.status.busy ∧
    (d.getLsbD 1 = true → t.status.done = false) ∧ (d.getLsbD 1 = false → t.status.done = s.status.done) ∧
    (d.getLsbD 2 = true → t.status.errv = false ∧ t.status.errcode = 0) ∧
    (d.getLsbD 2 = false → t.status.errv = s.status.errv ∧ t.status.errcode = s.status.errcode) ∧
    (d.getLsbD 3 = true → t.status.cmddrop = false) ∧
    (d.getLsbD 3 = false → t.status.cmddrop = s.status.cmddrop)

/-- R84, R82, R86: an IDLE core's V[r] limb `i` is at 0x200 + 0x20·r + 8i. A read returns bits `64i+63:64i`; a
write replaces those bits and keeps every other bit of the register, every other register and everything
else. -/
def Obligations.OperandLimbsAreReadAndWritten : Prop :=
  ∀ (s : State) (r : Reg) (i : Nat) (d : Limb), s.status.busy = false → i < 4 →
    s.busRead (BitVec.ofNat 12 (0x200 + 0x20 * r.toNat + 8 * i)) 0xFF =
      ((s.getV r).extractLsb' (64 * i) 64, .okay) ∧
    ∃ t, s.busWrite (BitVec.ofNat 12 (0x200 + 0x20 * r.toNat + 8 * i)) 0xFF d = (t, .okay) ∧
      (t.getV r).extractLsb' (64 * i) 64 = d ∧
      (∀ j, j < 4 → j ≠ i → (t.getV r).extractLsb' (64 * j) 64 = (s.getV r).extractLsb' (64 * j) 64) ∧
      OthersKept [r] s t ∧ t = { s with v := t.v }

/-- `x'` is `x` with limb `i` (bits `64i+63:64i`, R84) replaced by `d`. -/
def LimbReplaced (x x' : Vli) (i : Nat) (d : Limb) : Prop :=
  x'.extractLsb' (64 * i) 64 = d ∧ ∀ j, j < 4 → j ≠ i → x'.extractLsb' (64 * j) 64 = x.extractLsb' (64 * j) 64

/-- R82, R84, R91, R35, R36, R40, R43 to R46, R86: the rest of the register map. The control registers read at
0x000 to 0x038; on an IDLE core CP, CN, CB, CGX, CGY and HALFN read limb by limb from 0x100; one write to a
limb of CP, CN, CB, CGX or CGY of an unlocked IDLE core replaces that limb and nothing else in the state; a
write to IE sets its two bits; and writes to ID, FLAGS, ITER, ERRCMD and HALFN are ignored with OKAY. STATUS,
FLAGS and IE as numbers are their fields at the bits of R41, R42 and R43, and every reserved bit is 0. -/
def Obligations.RegisterMap : Prop :=
  ∀ s : State,
    s.busRead 0x000 0xFF = (0x0010040145434331#64, .okay) ∧ s.busRead 0x008 0xFF = (s.cfgWord, .okay) ∧
    s.busRead 0x010 0xFF = (s.cmd, .okay) ∧ s.busRead 0x018 0xFF = (s.statusWord, .okay) ∧
    s.busRead 0x020 0xFF = (s.flagsWord, .okay) ∧ s.busRead 0x028 0xFF = (s.ieWord, .okay) ∧
    s.busRead 0x030 0xFF = (s.iter, .okay) ∧ s.busRead 0x038 0xFF = (s.errcmd, .okay) ∧
    s.statusWord.toNat = s.status.busy.toNat + s.status.done.toNat * 2 + s.status.errv.toNat * 2 ^ 2
      + s.status.cmddrop.toNat * 2 ^ 3 + s.status.errcode.toNat * 2 ^ 8 ∧
    s.flagsWord.toNat = s.flags.c.toNat + s.flags.lt.toNat * 2 + s.flags.eq.toNat * 2 ^ 2
      + s.flags.gt.toNat * 2 ^ 3 + s.flags.ni.toNat * 2 ^ 4 + s.flags.inf.toNat * 2 ^ 5 ∧
    s.ieWord.toNat = s.ie.doneIe.toNat + s.ie.errIe.toNat * 2 ∧
    (∀ d : Limb, s.busWrite 0x000 0xFF d = (s, .okay) ∧ s.busWrite 0x020 0xFF d = (s, .okay) ∧
      s.busWrite 0x030 0xFF d = (s, .okay) ∧ s.busWrite 0x038 0xFF d = (s, .okay) ∧
      s.busWrite 0x028 0xFF d =
        ({ s with ie := { doneIe := d.getLsbD 0, errIe := d.getLsbD 1 } }, .okay)) ∧
    (s.status.busy = false → ∀ i, i < 4 →
      s.busRead (BitVec.ofNat 12 (0x100 + 8 * i)) 0xFF = (s.cp.extractLsb' (64 * i) 64, .okay) ∧
      s.busRead (BitVec.ofNat 12 (0x120 + 8 * i)) 0xFF = (s.cn.extractLsb' (64 * i) 64, .okay) ∧
      s.busRead (BitVec.ofNat 12 (0x140 + 8 * i)) 0xFF = (s.cb.extractLsb' (64 * i) 64, .okay) ∧
      s.busRead (BitVec.ofNat 12 (0x160 + 8 * i)) 0xFF = (s.cgx.extractLsb' (64 * i) 64, .okay) ∧
      s.busRead (BitVec.ofNat 12 (0x180 + 8 * i)) 0xFF = (s.cgy.extractLsb' (64 * i) 64, .okay) ∧
      s.busRead (BitVec.ofNat 12 (0x1A0 + 8 * i)) 0xFF =
        ((s.cn >>> 1).extractLsb' (64 * i) 64, .okay) ∧
      (∀ d : Limb, s.busWrite (BitVec.ofNat 12 (0x1A0 + 8 * i)) 0xFF d = (s, .okay))) ∧
    (s.status.busy = false → s.cfg.lock = false → ∀ i, i < 4 → ∀ d : Limb,
      (∃ x, s.busWrite (BitVec.ofNat 12 (0x100 + 8 * i)) 0xFF d = ({ s with cp := x }, .okay) ∧
        LimbReplaced s.cp x i d) ∧
      (∃ x, s.busWrite (BitVec.ofNat 12 (0x120 + 8 * i)) 0xFF d = ({ s with cn := x }, .okay) ∧
        LimbReplaced s.cn x i d) ∧
      (∃ x, s.busWrite (BitVec.ofNat 12 (0x140 + 8 * i)) 0xFF d = ({ s with cb := x }, .okay) ∧
        LimbReplaced s.cb x i d) ∧
      (∃ x, s.busWrite (BitVec.ofNat 12 (0x160 + 8 * i)) 0xFF d = ({ s with cgx := x }, .okay) ∧
        LimbReplaced s.cgx x i d) ∧
      (∃ x, s.busWrite (BitVec.ofNat 12 (0x180 + 8 * i)) 0xFF d = ({ s with cgy := x }, .okay) ∧
        LimbReplaced s.cgy x i d))

/-- Four OKAY writes at rising offsets from `base`, `d0` first, lead from `s` to `t`. -/
def FourWrites (s : State) (base : Nat) (d0 d1 d2 d3 : Limb) (t : State) : Prop :=
  ∃ s1 s2 s3,
    s.busWrite (BitVec.ofNat 12 base) 0xFF d0 = (s1, .okay) ∧
    s1.busWrite (BitVec.ofNat 12 (base + 8)) 0xFF d1 = (s2, .okay) ∧
    s2.busWrite (BitVec.ofNat 12 (base + 16)) 0xFF d2 = (s3, .okay) ∧
    s3.busWrite (BitVec.ofNat 12 (base + 24)) 0xFF d3 = (t, .okay)

/-- R35, R82, R84: on an unlocked IDLE core four writes, least significant limb at the lowest offset, load CP,
CN, CB, CGX or CGY with their concatenation and change nothing else. -/
def Obligations.FourWritesLoadADescriptorRegister : Prop :=
  ∀ (s : State) (d0 d1 d2 d3 : Limb), s.status.busy = false → s.cfg.lock = false →
    FourWrites s 0x100 d0 d1 d2 d3 { s with cp := d3 ++ d2 ++ d1 ++ d0 } ∧
    FourWrites s 0x120 d0 d1 d2 d3 { s with cn := d3 ++ d2 ++ d1 ++ d0 } ∧
    FourWrites s 0x140 d0 d1 d2 d3 { s with cb := d3 ++ d2 ++ d1 ++ d0 } ∧
    FourWrites s 0x160 d0 d1 d2 d3 { s with cgx := d3 ++ d2 ++ d1 ++ d0 } ∧
    FourWrites s 0x180 d0 d1 d2 d3 { s with cgy := d3 ++ d2 ++ d1 ++ d0 }

/-- R80, R85: offset `off` has the host address BASE + `off`, which leads back to it, and an address outside the
4096 bytes from BASE is not the core's. Byte lanes are little-endian: byte `off + j` of a location is data bits
`8j+7:8j`, so data built from bytes is the sum of byte `j` times `2^(8j)`. This holds for every BASE. -/
def Obligations.WindowAddressesAndByteLanes : Prop :=
  (∀ off : BitVec 12, hostAddress off = Config.base + off.toNat ∧ offsetOf (hostAddress off) = some off) ∧
  (∀ addr : Nat, addr < Config.base ∨ Config.base + 4096 ≤ addr → offsetOf addr = none) ∧
  (∀ (d : Limb) (j : Fin 8), (lane d j).toNat = d.toNat / 2 ^ (8 * j.val) % 2 ^ 8) ∧
  (∀ d : Limb, ofLanes (lane d 0) (lane d 1) (lane d 2) (lane d 3) (lane d 4) (lane d 5) (lane d 6) (lane d 7)
    = d) ∧
  (∀ b0 b1 b2 b3 b4 b5 b6 b7 : BitVec 8, (ofLanes b0 b1 b2 b3 b4 b5 b6 b7).toNat =
    b0.toNat + b1.toNat * 2 ^ 8 + b2.toNat * 2 ^ 16 + b3.toNat * 2 ^ 24 + b4.toNat * 2 ^ 32
      + b5.toNat * 2 ^ 40 + b6.toNat * 2 ^ 48 + b7.toNat * 2 ^ 56)

/-- R6, R37, R38: `bitlen`, NBITS_P and NBITS_N, and CFG. Its fields as read, with the bit lengths of CP and CN and every reserved bit 0; and its
write on an IDLE core, which sets MODE and LOCK while LOCK = 0 (a 0 written to LOCK leaves it 0) and changes
nothing while LOCK = 1, with OKAY. -/
def Obligations.CfgFieldsAndWrite : Prop :=
  (bitlen 0 = 0 ∧ ∀ v : Nat, v ≠ 0 → 1 ≤ bitlen v ∧ 2 ^ (bitlen v - 1) ≤ v ∧ v < 2 ^ bitlen v) ∧
  ∀ s : State,
    (s.nbitsP = bitlen s.cp.toNat ∧ s.nbitsN = bitlen s.cn.toNat) ∧
    (s.cfgWord.toNat = (if s.cfg.mode = .generic then 1 else 0) + (if s.cfg.lock then 2 else 0)
      + bitlen s.cp.toNat * 2 ^ 16 + bitlen s.cn.toNat * 2 ^ 32 ∧
      bitlen s.cp.toNat ≤ 256 ∧ bitlen s.cn.toNat ≤ 256) ∧
    (∀ d : Limb, s.status.busy = false → s.cfg.lock = true → s.busWrite 0x008 0xFF d = (s, .okay)) ∧
    (∀ d : Limb, s.status.busy = false → s.cfg.lock = false →
      ∃ t, s.busWrite 0x008 0xFF d = (t, .okay) ∧ t = { s with cfg := t.cfg } ∧
        (t.cfg.mode = .generic ↔ d.getLsbD 0 = true) ∧ t.cfg.lock = d.getLsbD 1)

/-- R48, R276, R278: `irq` is the level of the enabled pending bits; acknowledging the pending bits lowers it,
and CMDDROP is no source. -/
def Obligations.IrqFollowsThePendingBits : Prop :=
  ∀ s : State,
    (s.irq = true ↔ (s.status.done = true ∧ s.ie.doneIe = true) ∨
      (s.status.errv = true ∧ s.ie.errIe = true)) ∧
    (∀ t r, s.busWrite 0x018 0xFF 0x6 = (t, r) → t.irq = false) ∧
    (∀ b, State.irq { s with status := { s.status with cmddrop := b } } = s.irq)

/-- R39, R281: once LOCK is set, no step but a reset changes CP, CN, CB, CGX, CGY, MODE or LOCK. -/
def Obligations.LockFreezesTheDescriptor : Prop :=
  ∀ s t : State, s.cfg.lock = true → (∀ cut rest, s.schedule ≠ .reset cut :: rest) → step s = .next t →
    t.cp = s.cp ∧ t.cn = s.cn ∧ t.cb = s.cb ∧ t.cgx = s.cgx ∧ t.cgy = s.cgy ∧
    t.cfg.mode = s.cfg.mode ∧ t.cfg.lock = true

/-! ## Reset and the invariant -/

/-- R50: the reset values, HALFN, CFG, ID and `irq` among them; `CurveOK` and `CurveOKn` are false (R312). -/
def Obligations.ResetValues : Prop :=
  (∀ r, State.reset.getV r = 0) ∧ State.reset.cp = 0 ∧ State.reset.cn = 0 ∧ State.reset.cb = 0 ∧
  State.reset.cgx = 0 ∧ State.reset.cgy = 0 ∧ State.reset.halfn = 0 ∧ State.reset.cfgWord = 0 ∧
  State.reset.cmd = 0 ∧ State.reset.statusWord = 0 ∧ State.reset.flagsWord = 0 ∧ State.reset.ieWord = 0 ∧
  State.reset.readLoc .id = 0x0010040145434331#64 ∧ State.reset.iter = 0 ∧ State.reset.errcmd = 0 ∧
  State.reset.irq = false ∧ State.reset.curveOK = false ∧ State.reset.curveOKn = false

/-- R310, R311: a reset turn gives every register its reset value whatever the state, a command in flight and
LOCK included; what follows of the schedule stays. The draw counter and the response are the model's own (log
entries 2, 3 and 6). -/
def Obligations.ResetTurnRestoresEveryRegister : Prop :=
  ∀ (s : State) (cut : Bool) (rest : List Turn), s.schedule = .reset cut :: rest →
    ∃ t, step s = .next t ∧
      { t with schedule := [], response := none, draws := 0 } = State.reset ∧ t.schedule = rest

/-- R41, R42, R271, R274, R282: every step keeps the invariant of the control registers. -/
def Obligations.StepKeepsTheInvariant : Prop :=
  ∀ s t : State, s.Inv → step s = .next t → t.Inv

/-- R41, R42, R50: the reset state has the invariant. -/
def Obligations.ResetHasTheInvariant : Prop := State.reset.Inv
end

