-- ==== Sys2Proof/Laws/State.lean ====
section
/-! SUPPORT. What each named update of the state leaves in each field. Every law is a conjunction of field
equations, which `simp` uses one by one. -/

namespace Sys2Proof.Machine

/-! ## Operand registers: only `v` changes -/

@[simp] theorem setV_fields (s : State) (r : Reg) (x : Vli) :
    (s.setV r x).cp = s.cp ∧ (s.setV r x).cn = s.cn ∧ (s.setV r x).cb = s.cb ∧ (s.setV r x).cgx = s.cgx ∧
    (s.setV r x).cgy = s.cgy ∧ (s.setV r x).cfg = s.cfg ∧ (s.setV r x).cmd = s.cmd ∧
    (s.setV r x).status = s.status ∧ (s.setV r x).flags = s.flags ∧ (s.setV r x).ie = s.ie ∧
    (s.setV r x).iter = s.iter ∧ (s.setV r x).errcmd = s.errcmd ∧ (s.setV r x).schedule = s.schedule ∧
    (s.setV r x).response = s.response ∧ (s.setV r x).draws = s.draws := by
  simp [State.setV]

theorem setVNat_def (s : State) (r : Reg) (x : Nat) : s.setVNat r x = s.setV r (BitVec.ofNat 256 x) := rfl

@[simp] theorem setVNat_fields (s : State) (r : Reg) (x : Nat) :
    (s.setVNat r x).cp = s.cp ∧ (s.setVNat r x).cn = s.cn ∧ (s.setVNat r x).cb = s.cb ∧
    (s.setVNat r x).cgx = s.cgx ∧ (s.setVNat r x).cgy = s.cgy ∧ (s.setVNat r x).cfg = s.cfg ∧
    (s.setVNat r x).cmd = s.cmd ∧ (s.setVNat r x).status = s.status ∧ (s.setVNat r x).flags = s.flags ∧
    (s.setVNat r x).ie = s.ie ∧ (s.setVNat r x).iter = s.iter ∧ (s.setVNat r x).errcmd = s.errcmd ∧
    (s.setVNat r x).schedule = s.schedule ∧ (s.setVNat r x).response = s.response ∧
    (s.setVNat r x).draws = s.draws := by
  simp [setVNat_def]

@[simp] theorem setPair_fields (s : State) (p : Pair) (x : DoubleVli) :
    (s.setPair p x).cp = s.cp ∧ (s.setPair p x).cn = s.cn ∧ (s.setPair p x).cb = s.cb ∧
    (s.setPair p x).cgx = s.cgx ∧ (s.setPair p x).cgy = s.cgy ∧ (s.setPair p x).cfg = s.cfg ∧
    (s.setPair p x).cmd = s.cmd ∧ (s.setPair p x).status = s.status ∧ (s.setPair p x).flags = s.flags ∧
    (s.setPair p x).ie = s.ie ∧ (s.setPair p x).iter = s.iter ∧ (s.setPair p x).errcmd = s.errcmd ∧
    (s.setPair p x).schedule = s.schedule ∧ (s.setPair p x).response = s.response ∧
    (s.setPair p x).draws = s.draws := by
  simp [State.setPair]

@[simp] theorem setPoint_fields (s : State) (p : Pair) (q : AffinePoint) :
    (s.setPoint p q).cp = s.cp ∧ (s.setPoint p q).cn = s.cn ∧ (s.setPoint p q).cb = s.cb ∧
    (s.setPoint p q).cgx = s.cgx ∧ (s.setPoint p q).cgy = s.cgy ∧ (s.setPoint p q).cfg = s.cfg ∧
    (s.setPoint p q).cmd = s.cmd ∧ (s.setPoint p q).status = s.status ∧
    (s.setPoint p q).flags = s.flags ∧ (s.setPoint p q).ie = s.ie ∧ (s.setPoint p q).iter = s.iter ∧
    (s.setPoint p q).errcmd = s.errcmd ∧ (s.setPoint p q).schedule = s.schedule ∧
    (s.setPoint p q).response = s.response ∧ (s.setPoint p q).draws = s.draws := by
  simp [State.setPoint]

@[simp] theorem setJacobian_fields (s : State) (a b c : Reg) (q : Jacobian) :
    (s.setJacobian a b c q).cp = s.cp ∧ (s.setJacobian a b c q).cn = s.cn ∧
    (s.setJacobian a b c q).cb = s.cb ∧ (s.setJacobian a b c q).cgx = s.cgx ∧
    (s.setJacobian a b c q).cgy = s.cgy ∧ (s.setJacobian a b c q).cfg = s.cfg ∧
    (s.setJacobian a b c q).cmd = s.cmd ∧ (s.setJacobian a b c q).status = s.status ∧
    (s.setJacobian a b c q).flags = s.flags ∧ (s.setJacobian a b c q).ie = s.ie ∧
    (s.setJacobian a b c q).iter = s.iter ∧ (s.setJacobian a b c q).errcmd = s.errcmd ∧
    (s.setJacobian a b c q).schedule = s.schedule ∧ (s.setJacobian a b c q).response = s.response ∧
    (s.setJacobian a b c q).draws = s.draws := by
  simp [State.setJacobian]

@[simp] theorem setCoZ_fields (s : State) (a b c d : Reg) (q : CoZPair) :
    (s.setCoZ a b c d q).cp = s.cp ∧ (s.setCoZ a b c d q).cn = s.cn ∧ (s.setCoZ a b c d q).cb = s.cb ∧
    (s.setCoZ a b c d q).cgx = s.cgx ∧ (s.setCoZ a b c d q).cgy = s.cgy ∧
    (s.setCoZ a b c d q).cfg = s.cfg ∧ (s.setCoZ a b c d q).cmd = s.cmd ∧
    (s.setCoZ a b c d q).status = s.status ∧ (s.setCoZ a b c d q).flags = s.flags ∧
    (s.setCoZ a b c d q).ie = s.ie ∧ (s.setCoZ a b c d q).iter = s.iter ∧
    (s.setCoZ a b c d q).errcmd = s.errcmd ∧ (s.setCoZ a b c d q).schedule = s.schedule ∧
    (s.setCoZ a b c d q).response = s.response ∧ (s.setCoZ a b c d q).draws = s.draws := by
  simp [State.setCoZ]

/-! ## Flags: only `flags` changes -/

@[simp] theorem setCarry_fields (s : State) (c : Bool) :
    (s.setCarry c).v = s.v ∧ (s.setCarry c).cp = s.cp ∧ (s.setCarry c).cn = s.cn ∧
    (s.setCarry c).cb = s.cb ∧ (s.setCarry c).cgx = s.cgx ∧ (s.setCarry c).cgy = s.cgy ∧
    (s.setCarry c).cfg = s.cfg ∧ (s.setCarry c).cmd = s.cmd ∧ (s.setCarry c).status = s.status ∧
    (s.setCarry c).flags = { s.flags with c := c } ∧ (s.setCarry c).ie = s.ie ∧
    (s.setCarry c).iter = s.iter ∧ (s.setCarry c).errcmd = s.errcmd ∧
    (s.setCarry c).schedule = s.schedule ∧ (s.setCarry c).response = s.response ∧
    (s.setCarry c).draws = s.draws := by
  simp [State.setCarry]

@[simp] theorem setOrder_fields (s : State) (a b : Vli) :
    (s.setOrder a b).v = s.v ∧ (s.setOrder a b).cp = s.cp ∧ (s.setOrder a b).cn = s.cn ∧
    (s.setOrder a b).cb = s.cb ∧ (s.setOrder a b).cgx = s.cgx ∧ (s.setOrder a b).cgy = s.cgy ∧
    (s.setOrder a b).cfg = s.cfg ∧ (s.setOrder a b).cmd = s.cmd ∧ (s.setOrder a b).status = s.status ∧
    (s.setOrder a b).ie = s.ie ∧ (s.setOrder a b).iter = s.iter ∧ (s.setOrder a b).errcmd = s.errcmd ∧
    (s.setOrder a b).schedule = s.schedule ∧ (s.setOrder a b).response = s.response ∧
    (s.setOrder a b).draws = s.draws := by
  simp [State.setOrder]

@[simp] theorem setOrder_flags (s : State) (a b : Vli) :
    (s.setOrder a b).flags = { s.flags with
      lt := decide (a.toNat < b.toNat)
      eq := decide (a.toNat = b.toNat)
      gt := decide (b.toNat < a.toNat) } := rfl

@[simp] theorem setNoInverse_fields (s : State) (n : Bool) :
    (s.setNoInverse n).v = s.v ∧ (s.setNoInverse n).cp = s.cp ∧ (s.setNoInverse n).cn = s.cn ∧
    (s.setNoInverse n).cb = s.cb ∧ (s.setNoInverse n).cgx = s.cgx ∧ (s.setNoInverse n).cgy = s.cgy ∧
    (s.setNoInverse n).cfg = s.cfg ∧ (s.setNoInverse n).cmd = s.cmd ∧
    (s.setNoInverse n).status = s.status ∧ (s.setNoInverse n).flags = { s.flags with ni := n } ∧
    (s.setNoInverse n).ie = s.ie ∧ (s.setNoInverse n).iter = s.iter ∧
    (s.setNoInverse n).errcmd = s.errcmd ∧ (s.setNoInverse n).schedule = s.schedule ∧
    (s.setNoInverse n).response = s.response ∧ (s.setNoInverse n).draws = s.draws := by
  simp [State.setNoInverse]

@[simp] theorem setInfinity_fields (s : State) (q : AffinePoint) :
    (s.setInfinity q).v = s.v ∧ (s.setInfinity q).cp = s.cp ∧ (s.setInfinity q).cn = s.cn ∧
    (s.setInfinity q).cb = s.cb ∧ (s.setInfinity q).cgx = s.cgx ∧ (s.setInfinity q).cgy = s.cgy ∧
    (s.setInfinity q).cfg = s.cfg ∧ (s.setInfinity q).cmd = s.cmd ∧ (s.setInfinity q).status = s.status ∧
    (s.setInfinity q).flags = { s.flags with inf := decide (q = infinity) } ∧
    (s.setInfinity q).ie = s.ie ∧ (s.setInfinity q).iter = s.iter ∧ (s.setInfinity q).errcmd = s.errcmd ∧
    (s.setInfinity q).schedule = s.schedule ∧ (s.setInfinity q).response = s.response ∧
    (s.setInfinity q).draws = s.draws := by
  simp [State.setInfinity]

@[simp] theorem clearFlags_fields (s : State) :
    (s.clearFlags).v = s.v ∧ (s.clearFlags).cp = s.cp ∧ (s.clearFlags).cn = s.cn ∧
    (s.clearFlags).cb = s.cb ∧ (s.clearFlags).cgx = s.cgx ∧ (s.clearFlags).cgy = s.cgy ∧
    (s.clearFlags).cfg = s.cfg ∧ (s.clearFlags).cmd = s.cmd ∧ (s.clearFlags).status = s.status ∧
    (s.clearFlags).flags = State.reset.flags ∧ (s.clearFlags).ie = s.ie ∧ (s.clearFlags).iter = s.iter ∧
    (s.clearFlags).errcmd = s.errcmd ∧ (s.clearFlags).schedule = s.schedule ∧
    (s.clearFlags).response = s.response ∧ (s.clearFlags).draws = s.draws := by
  simp [State.clearFlags]

/-! ## Point results: `v` and `flags`, and `draws` for a draw -/

@[simp] theorem setPointResult_fields (s : State) (p : Pair) (q : AffinePoint) :
    (s.setPointResult p q).cp = s.cp ∧ (s.setPointResult p q).cn = s.cn ∧
    (s.setPointResult p q).cb = s.cb ∧ (s.setPointResult p q).cgx = s.cgx ∧
    (s.setPointResult p q).cgy = s.cgy ∧ (s.setPointResult p q).cfg = s.cfg ∧
    (s.setPointResult p q).cmd = s.cmd ∧ (s.setPointResult p q).status = s.status ∧
    (s.setPointResult p q).flags = { s.flags with inf := decide (q = infinity) } ∧
    (s.setPointResult p q).ie = s.ie ∧ (s.setPointResult p q).iter = s.iter ∧
    (s.setPointResult p q).errcmd = s.errcmd ∧ (s.setPointResult p q).schedule = s.schedule ∧
    (s.setPointResult p q).response = s.response ∧ (s.setPointResult p q).draws = s.draws := by
  simp [State.setPointResult]

@[simp] theorem countDraw_fields (s : State) :
    (s.countDraw).v = s.v ∧ (s.countDraw).cp = s.cp ∧ (s.countDraw).cn = s.cn ∧ (s.countDraw).cb = s.cb ∧
    (s.countDraw).cgx = s.cgx ∧ (s.countDraw).cgy = s.cgy ∧ (s.countDraw).cfg = s.cfg ∧
    (s.countDraw).cmd = s.cmd ∧ (s.countDraw).status = s.status ∧ (s.countDraw).flags = s.flags ∧
    (s.countDraw).ie = s.ie ∧ (s.countDraw).iter = s.iter ∧ (s.countDraw).errcmd = s.errcmd ∧
    (s.countDraw).schedule = s.schedule ∧ (s.countDraw).response = s.response ∧
    (s.countDraw).draws = s.draws + 1 := by
  simp [State.countDraw]

@[simp] theorem pointOrDraw_fields (s : State) (valid : Bool) (p : Pair) (q : AffinePoint) :
    (s.pointOrDraw valid p q).cp = s.cp ∧ (s.pointOrDraw valid p q).cn = s.cn ∧
    (s.pointOrDraw valid p q).cb = s.cb ∧ (s.pointOrDraw valid p q).cgx = s.cgx ∧
    (s.pointOrDraw valid p q).cgy = s.cgy ∧ (s.pointOrDraw valid p q).cfg = s.cfg ∧
    (s.pointOrDraw valid p q).cmd = s.cmd ∧ (s.pointOrDraw valid p q).status = s.status ∧
    (s.pointOrDraw valid p q).ie = s.ie ∧ (s.pointOrDraw valid p q).iter = s.iter ∧
    (s.pointOrDraw valid p q).errcmd = s.errcmd ∧ (s.pointOrDraw valid p q).schedule = s.schedule ∧
    (s.pointOrDraw valid p q).response = s.response := by
  cases valid <;> simp [State.pointOrDraw]

/-- A point result writes FLAGS.INF and no other flag. -/
@[simp] theorem pointOrDraw_flags (s : State) (valid : Bool) (p : Pair) (q : AffinePoint) :
    (s.pointOrDraw valid p q).flags.c = s.flags.c ∧ (s.pointOrDraw valid p q).flags.lt = s.flags.lt ∧
    (s.pointOrDraw valid p q).flags.eq = s.flags.eq ∧ (s.pointOrDraw valid p q).flags.gt = s.flags.gt ∧
    (s.pointOrDraw valid p q).flags.ni = s.flags.ni := by
  cases valid <;> simp [State.pointOrDraw]

@[simp] theorem setIter_fields (s : State) (n : Nat) :
    (s.setIter n).v = s.v ∧ (s.setIter n).cp = s.cp ∧ (s.setIter n).cn = s.cn ∧ (s.setIter n).cb = s.cb ∧
    (s.setIter n).cgx = s.cgx ∧ (s.setIter n).cgy = s.cgy ∧ (s.setIter n).cfg = s.cfg ∧
    (s.setIter n).cmd = s.cmd ∧ (s.setIter n).status = s.status ∧ (s.setIter n).flags = s.flags ∧
    (s.setIter n).ie = s.ie ∧ (s.setIter n).iter = BitVec.ofNat 64 n ∧ (s.setIter n).errcmd = s.errcmd ∧
    (s.setIter n).schedule = s.schedule ∧ (s.setIter n).response = s.response ∧
    (s.setIter n).draws = s.draws := by
  simp [State.setIter]

/-! ## Completions: only STATUS, and ERRCMD for an error -/

@[simp] theorem successCompletion_fields (s : State) :
    (s.successCompletion).v = s.v ∧ (s.successCompletion).cp = s.cp ∧ (s.successCompletion).cn = s.cn ∧
    (s.successCompletion).cb = s.cb ∧ (s.successCompletion).cgx = s.cgx ∧
    (s.successCompletion).cgy = s.cgy ∧ (s.successCompletion).cfg = s.cfg ∧
    (s.successCompletion).cmd = s.cmd ∧
    (s.successCompletion).status = { s.status with busy := false, done := true } ∧
    (s.successCompletion).flags = s.flags ∧ (s.successCompletion).ie = s.ie ∧
    (s.successCompletion).iter = s.iter ∧ (s.successCompletion).errcmd = s.errcmd ∧
    (s.successCompletion).schedule = s.schedule ∧ (s.successCompletion).response = s.response ∧
    (s.successCompletion).draws = s.draws := by
  simp [State.successCompletion]

@[simp] theorem errorCompletion_fields (s : State) (e : ErrorCode) :
    (s.errorCompletion e).v = s.v ∧ (s.errorCompletion e).cp = s.cp ∧ (s.errorCompletion e).cn = s.cn ∧
    (s.errorCompletion e).cb = s.cb ∧ (s.errorCompletion e).cgx = s.cgx ∧
    (s.errorCompletion e).cgy = s.cgy ∧ (s.errorCompletion e).cfg = s.cfg ∧
    (s.errorCompletion e).cmd = s.cmd ∧ (s.errorCompletion e).flags = s.flags ∧
    (s.errorCompletion e).ie = s.ie ∧ (s.errorCompletion e).iter = s.iter ∧
    (s.errorCompletion e).errcmd = s.cmd ∧ (s.errorCompletion e).schedule = s.schedule ∧
    (s.errorCompletion e).response = s.response ∧ (s.errorCompletion e).draws = s.draws := by
  simp [State.errorCompletion]

@[simp] theorem errorCompletion_status (s : State) (e : ErrorCode) :
    (s.errorCompletion e).status =
      { s.status with busy := false, errv := true, errcode := errorNumber e } := rfl

/-! ## Accepting, acknowledging -/

@[simp] theorem acceptCommand_fields (s : State) (w : Limb) :
    (s.acceptCommand w).v = s.v ∧ (s.acceptCommand w).cp = s.cp ∧ (s.acceptCommand w).cn = s.cn ∧
    (s.acceptCommand w).cb = s.cb ∧ (s.acceptCommand w).cgx = s.cgx ∧ (s.acceptCommand w).cgy = s.cgy ∧
    (s.acceptCommand w).cfg = s.cfg ∧ (s.acceptCommand w).cmd = w ∧
    (s.acceptCommand w).status = { s.status with done := false, busy := true } ∧
    (s.acceptCommand w).flags = s.flags ∧ (s.acceptCommand w).ie = s.ie ∧
    (s.acceptCommand w).iter = s.iter ∧ (s.acceptCommand w).errcmd = s.errcmd ∧
    (s.acceptCommand w).schedule = s.schedule ∧ (s.acceptCommand w).response = s.response ∧
    (s.acceptCommand w).draws = s.draws := by
  simp [State.acceptCommand]

@[simp] theorem acknowledge_fields (s : State) (d : Limb) :
    (s.acknowledge d).v = s.v ∧ (s.acknowledge d).cp = s.cp ∧ (s.acknowledge d).cn = s.cn ∧
    (s.acknowledge d).cb = s.cb ∧ (s.acknowledge d).cgx = s.cgx ∧ (s.acknowledge d).cgy = s.cgy ∧
    (s.acknowledge d).cfg = s.cfg ∧ (s.acknowledge d).cmd = s.cmd ∧ (s.acknowledge d).flags = s.flags ∧
    (s.acknowledge d).ie = s.ie ∧ (s.acknowledge d).iter = s.iter ∧ (s.acknowledge d).errcmd = s.errcmd ∧
    (s.acknowledge d).schedule = s.schedule ∧ (s.acknowledge d).response = s.response ∧
    (s.acknowledge d).draws = s.draws := by
  simp [State.acknowledge]

end Sys2Proof.Machine
end

