-- ==== Sys2Proof/Laws/Operands.lean ====
section
/-! SUPPORT. Reading operand registers after writing them: single registers, pairs and points, and the bounds
of what a register holds. -/

namespace Sys2Proof.Machine

/-! ## Single registers -/

@[simp] theorem getV_setV_self (s : State) (r : Reg) (x : Vli) : (s.setV r x).getV r = x := by
  simp [State.getV, State.setV]

theorem getV_setV_ne (s : State) {r q : Reg} (x : Vli) (h : q ≠ r) : (s.setV r x).getV q = s.getV q := by
  have hn : r.toNat ≠ q.toNat := fun e => h (BitVec.eq_of_toNat_eq e.symm)
  simp [State.getV, State.setV, Vector.getElem_set_ne, hn]

theorem getV_setV (s : State) (r q : Reg) (x : Vli) :
    (s.setV r x).getV q = if q = r then x else s.getV q := by
  split
  · next h => rw [h, getV_setV_self]
  · next h => exact getV_setV_ne s x h

@[simp] theorem getV_setVNat_self (s : State) (r : Reg) (x : Nat) :
    (s.setVNat r x).getV r = BitVec.ofNat 256 x := getV_setV_self s r _

theorem getV_setVNat_ne (s : State) {r q : Reg} (x : Nat) (h : q ≠ r) :
    (s.setVNat r x).getV q = s.getV q := getV_setV_ne s _ h

theorem getV_setVNat (s : State) (r q : Reg) (x : Nat) :
    (s.setVNat r x).getV q = if q = r then BitVec.ofNat 256 x else s.getV q := getV_setV s r q _

/-- A register's value depends on the register file only. -/
theorem getV_congr {s t : State} (h : t.v = s.v) (r : Reg) : t.getV r = s.getV r := by
  simp only [State.getV, h]

/-- Two states with equal operand registers have equal register files. -/
theorem v_ext {s t : State} (h : ∀ r, t.getV r = s.getV r) : t.v = s.v := by
  apply Vector.ext
  intro i hi
  have := h (BitVec.ofNat 4 i)
  simpa [State.getV, Nat.mod_eq_of_lt hi] using this

theorem getV_toNat_lt (s : State) (r : Reg) : (s.getV r).toNat < 2 ^ 256 := (s.getV r).isLt

/-- Writing a value that fits is writing it without truncation. -/
theorem toNat_getV_setVNat_self (s : State) (r : Reg) {x : Nat} (h : x < 2 ^ 256) :
    ((s.setVNat r x).getV r).toNat = x := by
  rw [getV_setVNat_self, BitVec.toNat_ofNat, Nat.mod_eq_of_lt h]

/-! ## Pairs -/

theorem loReg_ne_hiReg (p : Pair) : loReg p ≠ hiReg p := by
  revert p; decide

theorem hiReg_ne_loReg (p : Pair) : hiReg p ≠ loReg p := (loReg_ne_hiReg p).symm

theorem getPair_toNat (s : State) (p : Pair) :
    (s.getPair p).toNat = (s.getV (loReg p)).toNat + 2 ^ 256 * (s.getV (hiReg p)).toNat := by
  have h := (s.getV (loReg p)).isLt
  rw [State.getPair, BitVec.toNat_append, ← Nat.shiftLeft_add_eq_or_of_lt h, Nat.shiftLeft_eq]
  omega

theorem getV_setPair (s : State) (p : Pair) (x : DoubleVli) (q : Reg) :
    (s.setPair p x).getV q =
      if q = hiReg p then x.extractLsb' 256 256 else if q = loReg p then x.extractLsb' 0 256 else s.getV q := by
  simp only [State.setPair, getV_setV]

/-- A product of two registers fits in a pair. -/
theorem mul_toNat_lt (x y : Vli) : x.toNat * y.toNat < 2 ^ 512 := by
  rw [show (512 : Nat) = 256 + 256 from rfl, Nat.pow_add]
  exact Nat.mul_lt_mul'' x.isLt y.isLt

/-- A value below 2^512 written to a pair reads back from its two halves. -/
theorem getPair_setPair_toNat (s : State) (p : Pair) {x : Nat} (h : x < 2 ^ 512) :
    ((s.setPair p (BitVec.ofNat 512 x)).getV (loReg p)).toNat +
      2 ^ 256 * ((s.setPair p (BitVec.ofNat 512 x)).getV (hiReg p)).toNat = x := by
  simp only [getV_setPair, if_neg (loReg_ne_hiReg p), if_true, BitVec.extractLsb'_toNat,
    BitVec.toNat_ofNat, Nat.mod_eq_of_lt h, Nat.shiftRight_eq_div_pow, Nat.pow_zero, Nat.div_one]
  have : x / 2 ^ 256 < 2 ^ 256 := by omega
  rw [Nat.mod_eq_of_lt this]
  omega

/-! ## Points -/

theorem getV_setPoint (s : State) (p : Pair) (q : AffinePoint) (r : Reg) :
    (s.setPoint p q).getV r =
      if r = hiReg p then BitVec.ofNat 256 q.y
      else if r = loReg p then BitVec.ofNat 256 q.x else s.getV r := by
  simp only [State.setPoint, getV_setVNat]

/-- A point with 256-bit coordinates reads back from the pair it was written to. -/
theorem getPoint_setPoint (s : State) (p : Pair) (q : AffinePoint) (hx : q.x < 2 ^ 256) (hy : q.y < 2 ^ 256) :
    (s.setPoint p q).getPoint p = q := by
  simp only [State.getPoint, getV_setPoint, if_neg (loReg_ne_hiReg p), if_true, BitVec.toNat_ofNat,
    Nat.mod_eq_of_lt hx, Nat.mod_eq_of_lt hy]

theorem getPoint_bounds (s : State) (p : Pair) :
    (s.getPoint p).x < 2 ^ 256 ∧ (s.getPoint p).y < 2 ^ 256 :=
  ⟨(s.getV _).isLt, (s.getV _).isLt⟩

end Sys2Proof.Machine
end

