-- ==== Sys2Proof/Laws/Ops.lean ====
section
/-! SUPPORT. What the shared operations of Machine/Ops.lean do: bit lengths, the two completions, and the words
the host reads. -/

namespace Sys2Proof.Machine

/-! ## Bit lengths -/

theorem bitlen_zero : bitlen 0 = 0 := rfl

/-- `bitlen n` is the least exponent of a power of two above `n`. -/
theorem bitlen_le_iff (n k : Nat) : bitlen n ≤ k ↔ n < 2 ^ k := by
  unfold bitlen
  split
  · next h => subst h; simp
  · next h => rw [Nat.succ_le_iff, Nat.log2_lt h]

theorem lt_two_pow_bitlen (n : Nat) : n < 2 ^ bitlen n := (bitlen_le_iff n _).mp le_rfl

theorem two_pow_le_of_lt_bitlen {n k : Nat} (h : k < bitlen n) : 2 ^ k ≤ n := by
  by_contra hn
  exact absurd ((bitlen_le_iff n k).mpr (by omega)) (by omega)

/-- A number in `[2^k, 2^(k+1))` has `k + 1` bits. -/
theorem bitlen_eq_succ {n k : Nat} (h1 : 2 ^ k ≤ n) (h2 : n < 2 ^ (k + 1)) : bitlen n = k + 1 := by
  have a := (bitlen_le_iff n (k + 1)).mpr h2
  have b : ¬ bitlen n ≤ k := fun h => absurd ((bitlen_le_iff n k).mp h) (by omega)
  omega

theorem bitlen_pos {n : Nat} (h : 1 ≤ n) : 1 ≤ bitlen n := by
  unfold bitlen; split <;> omega

/-- A positive number's top bit. -/
theorem two_pow_pred_bitlen_le {n : Nat} (h : 1 ≤ n) : 2 ^ (bitlen n - 1) ≤ n :=
  two_pow_le_of_lt_bitlen (by have := bitlen_pos h; omega)

/-- A 256-bit register has at most 256 bits. -/
theorem bitlen_toNat_le (x : Vli) : bitlen x.toNat ≤ 256 := (bitlen_le_iff _ _).mpr x.isLt

theorem nbitsN_le (s : State) : s.nbitsN ≤ 256 := bitlen_toNat_le s.cn

theorem nbitsP_le (s : State) : s.nbitsP ≤ 256 := bitlen_toNat_le s.cp

/-! ## The descriptor predicates -/

/-- With `CurveOK` the modulus CP is odd and at least 3, in both modes. -/
theorem curveOK_odd {s : State} (h : s.curveOK = true) : s.cp.toNat % 2 = 1 ∧ 3 ≤ s.cp.toNat := by
  unfold State.curveOK at h
  split at h
  · rw [of_decide_eq_true h]; decide
  · simpa using h

theorem curveOKn_iff (s : State) : s.curveOKn = true ↔ s.curveOK = true ∧ s.cn.toNat ≠ 0 := by
  simp [State.curveOKn]

/-- The descriptor predicates read CP, CN and MODE only. -/
theorem curveOK_congr {s t : State} (hp : t.cp = s.cp) (hc : t.cfg = s.cfg) : t.curveOK = s.curveOK := by
  simp only [State.curveOK, hp, hc]

/-! ## Completions -/

/-- A success completion answers a next state. -/
theorem succeed_eq (s : State) : succeed s = .next s.successCompletion := rfl

/-- An error completion answers a next state: the old one but for STATUS and ERRCMD. -/
theorem fail_eq (s : State) (e : ErrorCode) :
    fail s e = .next { s with
      status := { s.status with busy := false, errv := true, errcode := errorNumber e }
      errcmd := s.cmd } := rfl

@[simp] theorem getV_successCompletion (s : State) (r : Reg) : s.successCompletion.getV r = s.getV r := rfl

@[simp] theorem getV_errorCompletion (s : State) (e : ErrorCode) (r : Reg) :
    (s.errorCompletion e).getV r = s.getV r := rfl

@[simp] theorem getV_setCarry (s : State) (c : Bool) (r : Reg) : (s.setCarry c).getV r = s.getV r := rfl

@[simp] theorem getV_setOrder (s : State) (a b : Vli) (r : Reg) : (s.setOrder a b).getV r = s.getV r := rfl

@[simp] theorem getV_setNoInverse (s : State) (n : Bool) (r : Reg) :
    (s.setNoInverse n).getV r = s.getV r := rfl

@[simp] theorem getV_setInfinity (s : State) (q : AffinePoint) (r : Reg) :
    (s.setInfinity q).getV r = s.getV r := rfl

@[simp] theorem getV_countDraw (s : State) (r : Reg) : s.countDraw.getV r = s.getV r := rfl

@[simp] theorem getV_setIter (s : State) (n : Nat) (r : Reg) : (s.setIter n).getV r = s.getV r := rfl

/-- Each error has a code from 1 to 4. -/
theorem errorNumber_range (e : ErrorCode) : 1 ≤ (errorNumber e).toNat ∧ (errorNumber e).toNat ≤ 4 := by
  cases e <;> decide

/-! ## Reset -/

/-- Reset leaves the reset state in every register; only the model's own fields go on. -/
theorem applyReset_eq (s : State) (cut : Bool) :
    ∃ r d, s.applyReset cut = { State.reset with schedule := s.schedule, response := r, draws := d } := by
  cases cut
  · exact ⟨_, _, rfl⟩
  · exact ⟨_, _, rfl⟩

end Sys2Proof.Machine
end

