-- ==== Sys2Proof/Laws/Bus.lean ====
section
/-! SUPPORT. Limbs, the map's locations, and everything a host write can do, said once. -/

namespace Sys2Proof.Machine

/-! ## Limbs -/

theorem limbOf_append (a b c d : Limb) :
    limbOf (a ++ b ++ c ++ d) 0 = d ∧ limbOf (a ++ b ++ c ++ d) 1 = c ∧
    limbOf (a ++ b ++ c ++ d) 2 = b ∧ limbOf (a ++ b ++ c ++ d) 3 = a := by
  refine ⟨?_, ?_, ?_, ?_⟩ <;> ext i hi <;>
    simp only [limbOf, BitVec.getElem_extractLsb', BitVec.getLsbD_append, Fin.isValue, Fin.val_zero,
      Fin.val_one, Fin.val_two, Nat.mul_zero, Nat.mul_one, Nat.reduceMul, Nat.zero_add,
      show ((3 : Fin 4) : Nat) = 3 from rfl]
  · simp [hi]
  · simp [hi, show ¬ 64 + i < 64 by omega]
  · simp [hi, show ¬ 128 + i < 64 by omega, show ¬ 128 + i - 64 < 64 by omega,
      show 128 + i - 64 - 64 = i by omega]
  · simp [hi, show ¬ 192 + i < 64 by omega, show ¬ 192 + i - 64 < 64 by omega,
      show ¬ 192 + i - 64 - 64 < 64 by omega, show 192 + i - 64 - 64 - 64 = i by omega]

/-- A register is the concatenation of its limbs. -/
theorem limbs_eq (x : Vli) : (limbOf x 3 ++ limbOf x 2 ++ limbOf x 1 ++ limbOf x 0 : Vli) = x := by
  apply BitVec.eq_of_getLsbD_eq
  intro i hi
  simp only [limbOf, BitVec.getLsbD_append, BitVec.getLsbD_extractLsb', Fin.isValue, Fin.val_zero,
    Fin.val_one, Fin.val_two, show ((3 : Fin 4) : Nat) = 3 from rfl]
  repeat' split
  all_goals (rw [decide_eq_true (by omega), Bool.true_and]; exact congrArg x.getLsbD (by omega))

/-- Replacing a limb replaces that limb and no other. -/
theorem limbOf_setLimb (x : Vli) (i j : Fin 4) (d : Limb) :
    limbOf (setLimb x i d) j = if j = i then d else limbOf x j := by
  match i, j with
  | 0, 0 | 0, 1 | 0, 2 | 0, 3 | 1, 0 | 1, 1 | 1, 2 | 1, 3 | 2, 0 | 2, 1 | 2, 2 | 2, 3 | 3, 0 | 3, 1 | 3, 2 | 3, 3 =>
    simp [setLimb, limbOf_append]

/-- Registers with equal limbs are equal. -/
theorem limb_ext {x y : Vli} (h : ∀ i, limbOf x i = limbOf y i) : x = y := by
  rw [← limbs_eq x, ← limbs_eq y, h 0, h 1, h 2, h 3]

/-! ## Locations -/

theorem locate_v (r : Reg) (i : Fin 4) :
    locate (BitVec.ofNat 12 (0x200 + 0x20 * r.toNat + 8 * i.val)) = some (.v r i) := by
  revert r i; decide +kernel

theorem locate_halfn (i : Fin 4) : locate (BitVec.ofNat 12 (0x1A0 + 8 * i.val)) = some (.halfn i) := by
  revert i; decide +kernel

/-- The offset of a descriptor register's first limb (R82). -/
def descOffset : Desc → Nat
  | .cp => 0x100
  | .cn => 0x120
  | .cb => 0x140
  | .cgx => 0x160
  | .cgy => 0x180

theorem locate_desc (d : Desc) (i : Fin 4) :
    locate (BitVec.ofNat 12 (descOffset d + 8 * i.val)) = some (.desc d i) := by
  revert i; cases d <;> decide +kernel

/-- The operand and descriptor locations are exactly those at offsets 0x100 to 0x3FF (R87). -/
theorem isOperand_iff {off : BitVec 12} {l : Loc} (h : locate off = some l) :
    l.isOperand = true ↔ 0x100 ≤ off.toNat ∧ off.toNat ≤ 0x3FF := by
  have all : ∀ off : BitVec 12, (locate off).all (fun l =>
      l.isOperand == (decide (0x100 ≤ off.toNat) && decide (off.toNat ≤ 0x3FF))) = true := by
    decide +kernel
  have := all off
  rw [h] at this
  simp only [Option.all_some, beq_iff_eq] at this
  simp [this]

/-- The reserved offsets (R82, R83). -/
theorem locate_eq_none_iff (off : BitVec 12) : locate off = none ↔
    (0x040 ≤ off.toNat ∧ off.toNat < 0x100) ∨ (0x1C0 ≤ off.toNat ∧ off.toNat < 0x200) ∨
    0x400 ≤ off.toNat := by
  revert off; decide +kernel

theorem admitted_iff (off : BitVec 12) (lanes : BitVec 8) :
    admitted off lanes = true ↔ off.toNat % 8 = 0 ∧ lanes = 0xFF#8 := by
  simp [admitted]

/-! ## Reads -/

/-- A read of a location by an aligned transaction of the full width. -/
theorem busRead_of_locate {s : State} {off : BitVec 12} {l : Loc} (ha : off.toNat % 8 = 0)
    (h : locate off = some l) :
    s.busRead off 0xFF = if s.status.busy && l.isOperand then (0, .slverr) else (s.readLoc l, .okay) := by
  unfold State.busRead
  rw [if_pos (show admitted off 0xFF = true from (admitted_iff off _).mpr ⟨ha, rfl⟩), h]

/-! ## Writes -/

/-- A write to a location by an aligned transaction of the full width. -/
theorem busWrite_of_locate {s : State} {off : BitVec 12} {l : Loc} {d : Limb} (ha : off.toNat % 8 = 0)
    (h : locate off = some l) : s.busWrite off 0xFF d = s.writeLoc l d := by
  unfold State.busWrite
  rw [if_pos (show admitted off 0xFF = true from (admitted_iff off _).mpr ⟨ha, rfl⟩), h]

/-- A refused write changes nothing. -/
theorem busWrite_refused {s : State} {off : BitVec 12} {lanes : BitVec 8} {d : Limb}
    (h : admitted off lanes = false ∨ locate off = none) : s.busWrite off lanes d = (s, .slverr) := by
  unfold State.busWrite
  rcases h with h | h <;> split <;> simp_all

/-- Everything a host write can do to the state. -/
theorem busWrite_cases (s : State) (off : BitVec 12) (lanes : BitVec 8) (d : Limb) :
    (s.busWrite off lanes d).1 = s ∨
    (s.status.busy = false ∧ s.cfg.lock = false ∧ ∃ c, (s.busWrite off lanes d).1 = { s with cfg := c }) ∨
    ((s.status.busy = true ∨ s.status.errv = true) ∧
      (s.busWrite off lanes d).1 = { s with status := { s.status with cmddrop := true } }) ∨
    (s.status.busy = false ∧ s.status.errv = false ∧ (s.busWrite off lanes d).1 = s.acceptCommand d) ∨
    (s.busWrite off lanes d).1 = s.acknowledge d ∨
    (s.busWrite off lanes d).1 = s.writeIe d ∨
    (s.status.busy = false ∧ s.cfg.lock = false ∧ ∃ r x, (s.busWrite off lanes d).1 = s.setDesc r x) ∨
    (s.status.busy = false ∧ ∃ r x, (s.busWrite off lanes d).1 = s.setV r x) := by
  unfold State.busWrite
  split
  · split
    · exact .inl rfl
    · next l _ =>
      cases l <;> simp only [State.writeLoc]
      case id | flags | iter | errcmd => exact .inl trivial
      case cfg =>
        unfold State.writeCfg
        split
        · exact .inl rfl
        · next hb =>
          split
          · exact .inl rfl
          · next hl => exact .inr (.inl ⟨by simpa using hb, by simpa using hl, _, rfl⟩)
      case cmd =>
        unfold State.offer
        split
        · next h => exact .inr (.inr (.inl ⟨by simpa using h, rfl⟩))
        · next h =>
          refine .inr (.inr (.inr (.inl ⟨?_, ?_, rfl⟩)))
          · revert h; cases s.status.busy <;> simp
          · revert h; cases s.status.errv <;> simp
      case status => exact .inr (.inr (.inr (.inr (.inl trivial))))
      case ie => exact .inr (.inr (.inr (.inr (.inr (.inl trivial)))))
      case desc r i =>
        unfold State.writeDesc
        split
        · exact .inl rfl
        · next h =>
          refine .inr (.inr (.inr (.inr (.inr (.inr (.inl ⟨?_, ?_, _, _, rfl⟩))))))
          · revert h; cases s.status.busy <;> simp
          · revert h; cases s.cfg.lock <;> simp
      case halfn i => split <;> exact .inl rfl
      case v r i =>
        split
        · exact .inl rfl
        · next h => exact .inr (.inr (.inr (.inr (.inr (.inr (.inr ⟨by simpa using h, _, _, rfl⟩))))))
  · exact .inl rfl

/-- A transaction leaves what the write leaves, or the state as it was, with the response kept beside it. -/
theorem transact_cases (s : State) (t : Transaction) :
    ∃ r, s.transact t = { s with response := some r } ∨
      ∃ off lanes d, s.transact t = { (s.busWrite off lanes d).1 with response := some r } := by
  cases t with
  | read off lanes => exact ⟨_, .inl rfl⟩
  | write off lanes d => exact ⟨_, .inr ⟨off, lanes, d, rfl⟩⟩

/-- While BUSY a transaction can change the response, IE and STATUS's other bits, and nothing else. -/
theorem transact_busy {s : State} (hb : s.status.busy = true) (t : Transaction) :
    ∃ r ie st, st.busy = true ∧ s.transact t = { s with response := r, ie := ie, status := st } := by
  obtain ⟨r, h | ⟨off, lanes, d, h⟩⟩ := transact_cases s t
  · exact ⟨_, _, _, hb, h⟩
  · rcases busWrite_cases s off lanes d with e | ⟨h', -⟩ | ⟨-, e⟩ | ⟨h', -⟩ | e | e | ⟨h', -⟩ | ⟨h', -⟩
    · exact ⟨some r, s.ie, s.status, hb, by rw [h, e]⟩
    · simp [hb] at h'
    · exact ⟨some r, s.ie, { s.status with cmddrop := true }, hb, by rw [h, e]⟩
    · simp [hb] at h'
    · exact ⟨some r, s.ie, (s.acknowledge d).status, hb, by rw [h, e]; rfl⟩
    · exact ⟨some r, (s.writeIe d).ie, s.status, hb, by rw [h, e]; rfl⟩
    · simp [hb] at h'
    · simp [hb] at h'

end Sys2Proof.Machine
end

