-- ==== Sys2Proof/Laws/Decode.lean ====
section
/-! SUPPORT. The fields of a packed word, and a word as the packing of its fields. -/

namespace Sys2Proof

/-! ## The fields of a packed word -/

section
variable (imm : BitVec 8) (rc rb ra rd : Reg) (opc : BitVec 8)

@[simp] theorem opcOf_pack : opcOf (pack imm rc rb ra rd opc) = opc := by
  ext i hi; simp only [opcOf, pack, BitVec.getElem_extractLsb', BitVec.getLsbD_append]; simp [hi]

@[simp] theorem rdOf_pack : rdOf (pack imm rc rb ra rd opc) = rd := by
  ext i hi
  simp only [rdOf, pack, BitVec.getElem_extractLsb', BitVec.getLsbD_append]
  simp [hi, show ¬ (8 + i < 8) by omega]

@[simp] theorem raOf_pack : raOf (pack imm rc rb ra rd opc) = ra := by
  ext i hi
  simp only [raOf, pack, BitVec.getElem_extractLsb', BitVec.getLsbD_append]
  simp [hi, show ¬ (12 + i < 8) by omega, show 12 + i - 8 - 4 = i by omega, show ¬ (12 + i - 8 < 4) by omega]

@[simp] theorem rbOf_pack : rbOf (pack imm rc rb ra rd opc) = rb := by
  ext i hi
  simp only [rbOf, pack, BitVec.getElem_extractLsb', BitVec.getLsbD_append]
  simp [hi, show ¬ (16 + i < 8) by omega, show ¬ (16 + i - 8 < 4) by omega,
    show ¬ (16 + i - 8 - 4 < 4) by omega, show 16 + i - 8 - 4 - 4 = i by omega]

@[simp] theorem rcOf_pack : rcOf (pack imm rc rb ra rd opc) = rc := by
  ext i hi
  simp only [rcOf, pack, BitVec.getElem_extractLsb', BitVec.getLsbD_append]
  simp [hi, show ¬ (20 + i < 8) by omega, show ¬ (20 + i - 8 < 4) by omega,
    show ¬ (20 + i - 8 - 4 < 4) by omega, show ¬ (20 + i - 8 - 4 - 4 < 4) by omega,
    show 20 + i - 8 - 4 - 4 - 4 = i by omega]

@[simp] theorem immOf_pack : immOf (pack imm rc rb ra rd opc) = imm := by
  ext i hi
  simp only [immOf, pack, BitVec.getElem_extractLsb', BitVec.getLsbD_append]
  simp [hi, show ¬ (24 + i < 8) by omega, show ¬ (24 + i - 8 < 4) by omega,
    show ¬ (24 + i - 8 - 4 < 4) by omega, show ¬ (24 + i - 8 - 4 - 4 < 4) by omega,
    show ¬ (24 + i - 8 - 4 - 4 - 4 < 4) by omega, show 24 + i - 8 - 4 - 4 - 4 - 4 = i by omega]

@[simp] theorem upperOf_pack : upperOf (pack imm rc rb ra rd opc) = 0#32 := by
  ext i hi
  simp only [upperOf, pack, BitVec.getElem_extractLsb', BitVec.getLsbD_append]
  simp [show ¬ (32 + i < 8) by omega, show ¬ (32 + i - 8 < 4) by omega,
    show ¬ (32 + i - 8 - 4 < 4) by omega, show ¬ (32 + i - 8 - 4 - 4 < 4) by omega,
    show ¬ (32 + i - 8 - 4 - 4 - 4 < 4) by omega, show ¬ (32 + i - 8 - 4 - 4 - 4 - 4 < 8) by omega]

end

/-- A word with zero upper half is the packing of its fields. -/
theorem pack_fields {w : Limb} (h : upperOf w = 0#32) :
    pack (immOf w) (rcOf w) (rbOf w) (raOf w) (rdOf w) (opcOf w) = w := by
  unfold pack
  rw [← h]
  apply BitVec.eq_of_getLsbD_eq
  intro i hi
  simp only [upperOf, immOf, rcOf, rbOf, raOf, rdOf, opcOf, BitVec.getLsbD_append, BitVec.getLsbD_extractLsb']
  repeat' split
  all_goals first
    | (rw [decide_eq_true (by omega), Bool.true_and]; congr 1; omega)

/-- A word is the concatenation of its seven fields. -/
theorem fields_eq (w : Limb) :
    (upperOf w ++ immOf w ++ rcOf w ++ rbOf w ++ raOf w ++ rdOf w ++ opcOf w : Limb) = w := by
  apply BitVec.eq_of_getLsbD_eq
  intro i hi
  simp only [upperOf, immOf, rcOf, rbOf, raOf, rdOf, opcOf, BitVec.getLsbD_append, BitVec.getLsbD_extractLsb']
  repeat' split
  all_goals (rw [decide_eq_true (by omega), Bool.true_and]; exact congrArg w.getLsbD (by omega))

/-- A mask and a pattern compare a word field by field. -/
theorem mask_eq_iff (w : Limb) (mu pu : BitVec 32) (mi pi : BitVec 8) (mc pc mb pb ma pa md pd : Reg)
    (mo po : BitVec 8) :
    w &&& (mu ++ mi ++ mc ++ mb ++ ma ++ md ++ mo : Limb) = (pu ++ pi ++ pc ++ pb ++ pa ++ pd ++ po : Limb) ↔
      upperOf w &&& mu = pu ∧ immOf w &&& mi = pi ∧ rcOf w &&& mc = pc ∧ rbOf w &&& mb = pb ∧
      raOf w &&& ma = pa ∧ rdOf w &&& md = pd ∧ opcOf w &&& mo = po := by
  have inj : ∀ {n m : Nat} (a c : BitVec n) (b d : BitVec m), a ++ b = c ++ d ↔ a = c ∧ b = d := by
    intro n m a c b d
    refine ⟨fun h => ⟨?_, ?_⟩, fun h => by rw [h.1, h.2]⟩
    · apply BitVec.eq_of_getLsbD_eq
      intro i hi
      have := congrArg (BitVec.getLsbD · (m + i)) h
      simpa [BitVec.getLsbD_append] using this
    · apply BitVec.eq_of_getLsbD_eq
      intro i hi
      have := congrArg (BitVec.getLsbD · i) h
      simpa [BitVec.getLsbD_append, hi] using this
  have dist : ∀ {n m : Nat} (a c : BitVec n) (b d : BitVec m), (a ++ b) &&& (c ++ d) = (a &&& c) ++ (b &&& d) := by
    intro n m a c b d
    apply BitVec.eq_of_getLsbD_eq
    intro i hi
    simp only [BitVec.getLsbD_and, BitVec.getLsbD_append]
    split <;> rfl
  have e := fields_eq w
  generalize upperOf w = u, immOf w = i, rcOf w = c, rbOf w = b, raOf w = a, rdOf w = d, opcOf w = o at *
  subst e
  simp only [dist, inj, and_assoc]

/-! ## Pair fields and selectors -/

@[simp] theorem isEven_evenField (p : Pair) : isEven (evenField p) = true := by revert p; decide

@[simp] theorem pairOf_evenField (p : Pair) : pairOf (evenField p) = p := by revert p; decide

theorem evenField_pairOf {r : Reg} (h : isEven r = true) : evenField (pairOf r) = r := by
  revert r; decide

@[simp] theorem selOf_selField (s : Sel) : selOf (selField s) = some s := by cases s <;> rfl

theorem selField_selOf {r : Reg} {s : Sel} (h : selOf r = some s) : selField s = r := by
  revert r s; decide

/-- The selector field names a constant exactly when it is at most 5 (R115). -/
theorem selOf_isSome_iff (r : Reg) : (selOf r).isSome ↔ r.toNat ≤ 5 := by revert r; decide

/-! ## Acceptance -/

/-- `accept` answers the command it is given, and only when all three of its checks pass. -/
theorem accept_eq_ok {w : Limb} {f : Bool} {i j : Instr} :
    accept w f i = .ok j ↔ upperOf w = 0#32 ∧ f = true ∧ i.wf = true ∧ j = i := by
  unfold accept
  split
  · next h => exact ⟨fun e => ⟨h.1, h.2.1, h.2.2, by injection e with e; exact e.symm⟩, fun e => by rw [e.2.2.2]⟩
  · next h => exact ⟨fun e => (by cases e), fun e => absurd ⟨e.1, e.2.1, e.2.2.1⟩ h⟩

/-- Where a check fails the answer is ILLEGAL_FIELD. -/
theorem accept_eq_error {w : Limb} {f : Bool} {i : Instr} {e : ErrorCode} :
    accept w f i = .error e ↔ e = .illegalField ∧ ¬(upperOf w = 0#32 ∧ f = true ∧ i.wf = true) := by
  unfold accept
  split
  · next h => exact ⟨fun e => (by cases e), fun e => absurd h e.2⟩
  · next h => exact ⟨fun e => ⟨by injection e with e; exact e.symm, h⟩, fun e => by rw [e.1]⟩

end Sys2Proof
end

