-- ==== Sys2Proof/Laws/Exec.lean ====
section
/-! SUPPORT. What a command can do, said once: it writes results that keep the control registers and then
succeeds, or it fails with the whole state kept. -/

namespace Sys2Proof.Machine

/-- Every command either succeeds on a state that keeps STATUS and the control registers, or fails with a code
other than ILLEGAL_OPCODE. -/
theorem exec_cases (i : Instr) (s : State) :
    (∃ u, exec i s = succeed u ∧ u.status = s.status ∧ ControlKept s u ∧ u.schedule = s.schedule ∧
      u.response = s.response) ∨
    (∃ e, e ≠ .illegalOpcode ∧ exec i s = fail s e) := by
  cases i <;>
    simp only [exec, execNop, execAdd, execSub, execMul, execSqr, execShl, execShr, execCmpct, execCmpvt,
      compareRegs, execMov, execLdc, execWipe, execModadd, execModsub, execMmod, execModinv, execFmul, execFsqr,
      execFred, execDblj, execXyczadd, execXyczaddc, execPadd, execPmul]
  case dblj =>
    split
    · split
      · exact .inl ⟨_, rfl, by simp, by simp [ControlKept], by simp, by simp⟩
      · exact .inr ⟨_, by decide, rfl⟩
    · exact .inr ⟨_, by decide, rfl⟩
  case xyczadd =>
    split
    · split
      · exact .inl ⟨_, rfl, by simp, by simp [ControlKept], by simp, by simp⟩
      · exact .inr ⟨_, by decide, rfl⟩
    · exact .inr ⟨_, by decide, rfl⟩
  case xyczaddc =>
    split
    · split
      · exact .inl ⟨_, rfl, by simp, by simp [ControlKept], by simp, by simp⟩
      · exact .inr ⟨_, by decide, rfl⟩
    · exact .inr ⟨_, by decide, rfl⟩
  case pmul =>
    split
    · split
      · exact .inl ⟨_, rfl, by simp, by simp [ControlKept], by simp, by simp⟩
      · exact .inr ⟨_, by decide, rfl⟩
    · exact .inr ⟨_, by decide, rfl⟩
  case mmod | modinv | fmul | fsqr | fred | padd =>
    split
    · exact .inl ⟨_, rfl, by simp, by simp [ControlKept], by simp, by simp⟩
    · exact .inr ⟨_, by decide, rfl⟩
  all_goals exact .inl ⟨_, rfl, by simp, by simp [ControlKept], by simp, by simp⟩

/-- A command answers a next state, always. -/
theorem exec_next (i : Instr) (s : State) : ∃ t, exec i s = .next t := by
  rcases exec_cases i s with ⟨u, h, -⟩ | ⟨e, -, h⟩ <;> exact ⟨_, h⟩

/-- After a command the engine is idle: DONE without ERRV newly set, or ERRV with the code and ERRCMD. -/
theorem exec_status (i : Instr) {s t : State} (h : exec i s = .next t) :
    t.status = { s.status with busy := false, done := true } ∨
    ∃ e, e ≠ .illegalOpcode ∧
      t.status = { s.status with busy := false, errv := true, errcode := errorNumber e } := by
  rcases exec_cases i s with ⟨u, hu, hs, -⟩ | ⟨e, he, hf⟩
  · rw [hu, succeed_eq] at h
    cases h
    exact .inl (by simp [hs])
  · rw [hf, fail_eq] at h
    cases h
    exact .inr ⟨e, he, rfl⟩

end Sys2Proof.Machine
end

