-- ==== Sys2Proof/Laws/Modular.lean ====
section
/-! SUPPORT. The values of the modular functions: one correction is enough for canonical operands, and
Euclid's algorithm answers the inverse. -/

namespace Sys2Proof.Machine

/-! ## One correction -/

theorem modadd_lt (a b m : Nat) : modadd a b m < 2 ^ 256 := Nat.mod_lt _ (by decide)

theorem modsub_lt (a b m : Nat) : modsub a b m < 2 ^ 256 := by
  have h1 := Int.emod_lt_of_pos (if (a : Int) - b < 0 then (a : Int) - b + m else (a : Int) - b)
    (show (0 : Int) < 2 ^ 256 by decide)
  have h0 := Int.emod_nonneg (if (a : Int) - b < 0 then (a : Int) - b + m else (a : Int) - b)
    (show (2 ^ 256 : Int) ≠ 0 by decide)
  simp only [modsub]
  omega

/-- For canonical operands MODADD's value is the canonical sum (R180). -/
theorem modadd_canonical {a b m : Nat} (ha : a < m) (hb : b < m) (hm : m ≤ 2 ^ 256) :
    modadd a b m = (a + b) % m := by
  simp only [modadd]
  split
  · next h =>
    rw [Nat.mod_eq_sub_mod h, Nat.mod_eq_of_lt (by omega : a + b - m < m), Nat.mod_eq_of_lt (by omega)]
  · next h => rw [Nat.mod_eq_of_lt (by omega : a + b < m), Nat.mod_eq_of_lt (by omega)]

/-- For canonical operands MODSUB's value is the canonical difference (R181). -/
theorem modsub_canonical {a b m : Nat} (ha : a < m) (hb : b < m) (hm : m ≤ 2 ^ 256) :
    (modsub a b m : Int) = ((a : Int) - b) % m := by
  simp only [modsub]
  split
  · next h =>
    rw [Int.emod_eq_of_lt (by omega : (0 : Int) ≤ (a : Int) - b + m) (by omega)]
    rw [Int.toNat_of_nonneg (by omega), ← Int.add_emod_right, Int.emod_eq_of_lt (by omega) (by omega)]
  · next h =>
    rw [Int.emod_eq_of_lt (by omega : (0 : Int) ≤ (a : Int) - b) (by omega)]
    rw [Int.toNat_of_nonneg (by omega), Int.emod_eq_of_lt (by omega) (by omega)]

theorem modadd_canonical_lt {a b m : Nat} (ha : a < m) (hb : b < m) (hm : m ≤ 2 ^ 256) :
    modadd a b m < m := by
  rw [modadd_canonical ha hb hm]
  exact Nat.mod_lt _ (by omega)

theorem modsub_canonical_lt {a b m : Nat} (ha : a < m) (hb : b < m) (hm : m ≤ 2 ^ 256) :
    modsub a b m < m := by
  have := modsub_canonical ha hb hm
  have := Int.emod_lt_of_pos ((a : Int) - b) (show (0 : Int) < m by omega)
  omega

/-- A difference of equal operands is 0, for every modulus. -/
theorem modsub_self (a m : Nat) : modsub a a m = 0 := by simp [modsub]

/-- Two operands below the modulus have difference 0 only when they are equal. -/
theorem modsub_eq_zero {a b m : Nat} (ha : a < m) (hb : b < m) (hm : m ≤ 2 ^ 256)
    (h : modsub a b m = 0) : a = b := by
  have e := modsub_canonical ha hb hm
  rw [h] at e
  have := Int.dvd_of_emod_eq_zero e.symm
  obtain ⟨k, hk⟩ := this
  have : k = 0 := by
    by_contra hne
    rcases lt_or_gt_of_ne hne with hlt | hgt
    · nlinarith
    · nlinarith
  subst this
  omega

/-! ## Euclid's algorithm -/

/-- With enough fuel `euclid` answers the greatest common divisor, and the cofactor it carries along. -/
theorem euclid_spec (a m : Int) : ∀ (fuel r0 r1 : Nat) (t0 t1 : Int), r1 ≤ fuel →
    m ∣ t0 * a - r0 → m ∣ t1 * a - r1 →
    (euclid fuel r0 r1 t0 t1).1 = Nat.gcd r0 r1 ∧
    m ∣ (euclid fuel r0 r1 t0 t1).2 * a - (Nat.gcd r0 r1 : Nat) := by
  intro fuel
  induction fuel with
  | zero =>
    intro r0 r1 t0 t1 hr h0 _
    obtain rfl : r1 = 0 := by omega
    simpa [euclid] using h0
  | succ fuel ih =>
    intro r0 r1 t0 t1 hr h0 h1
    unfold euclid
    split
    · next h => subst h; simpa using h0
    · next h =>
      have hlt := Nat.mod_lt r0 (by omega : 0 < r1)
      have step : m ∣ (t0 - ((r0 / r1 : Nat) : Int) * t1) * a - ((r0 % r1 : Nat) : Int) := by
        have e : (t0 - ((r0 / r1 : Nat) : Int) * t1) * a - ((r0 % r1 : Nat) : Int) =
            (t0 * a - r0) - ((r0 / r1 : Nat) : Int) * (t1 * a - r1) := by
          have := Int.emod_add_mul_ediv (r0 : Int) r1
          push_cast
          linear_combination -this
        rw [e]
        exact dvd_sub h0 (Dvd.dvd.mul_left h1 _)
      have := ih r1 (r0 % r1) t1 (t0 - ((r0 / r1 : Nat) : Int) * t1) (by omega) h1 step
      rwa [Nat.gcd_comm r1, ← Nat.gcd_rec, Nat.gcd_comm r1 r0] at this

/-- `modinv` of a number coprime to the modulus is its inverse below the modulus, with `ni = 0`; of any other
number it is 0, with `ni = 1` (R186). -/
theorem modinv_spec (a m : Nat) (hm : 2 ≤ m) :
    (Nat.gcd (a % m) m = 1 →
      (modinv a m).2 = false ∧ (modinv a m).1 < m ∧ a * (modinv a m).1 % m = 1) ∧
    (Nat.gcd (a % m) m ≠ 1 → modinv a m = (0, true)) := by
  have hlt := Nat.mod_lt a (by omega : 0 < m)
  have e := euclid_spec a m m m (a % m) 0 1 hlt.le (by simp) (by
    have := Int.emod_add_mul_ediv (a : Int) m
    exact ⟨(a : Int) / m, by push_cast; linarith⟩)
  rw [Nat.gcd_comm] at e
  refine ⟨fun h => ?_, fun h => ?_⟩
  · rw [h] at e
    have hnn := Int.emod_nonneg (euclid m m (a % m) 0 1).2 (by omega : (m : Int) ≠ 0)
    have hub := Int.emod_lt_of_pos (euclid m m (a % m) 0 1).2 (by omega : (0 : Int) < m)
    simp only [modinv, e.1, if_true]
    refine ⟨trivial, by omega, ?_⟩
    have : ((a * ((euclid m m (a % m) 0 1).2 % (m : Int)).toNat % m : Nat) : Int) = 1 := by
      push_cast
      rw [Int.toNat_of_nonneg hnn, Int.mul_emod, Int.emod_emod, ← Int.mul_emod, mul_comm,
        Int.emod_eq_emod_iff_emod_sub_eq_zero.mpr (Int.emod_eq_zero_of_dvd (by simpa using e.2))]
      exact Int.emod_eq_of_lt (by omega) (by omega)
    exact_mod_cast this
  · simp only [modinv, e.1, if_neg h]

/-- The inverse is never 0 when it exists. -/
theorem modinv_pos {a m : Nat} (hm : 2 ≤ m) (h : Nat.gcd (a % m) m = 1) : 1 ≤ (modinv a m).1 := by
  have := ((modinv_spec a m hm).1 h).2.2
  by_contra h0
  rw [show (modinv a m).1 = 0 by omega] at this
  simp at this

/-- MODINV's value is below the modulus. -/
theorem modinv_lt (a m : Nat) (hm : 2 ≤ m) : (modinv a m).1 < m := by
  by_cases h : Nat.gcd (a % m) m = 1
  · exact ((modinv_spec a m hm).1 h).2.1
  · rw [(modinv_spec a m hm).2 h]; omega

/-! ## The field primitives -/

theorem fred_lt {p : Nat} (v : Nat) (hp : 0 < p) : fred p v < p := Nat.mod_lt v hp

theorem fmul_lt {p : Nat} (a b : Nat) (hp : 0 < p) : fmul p a b < p := fred_lt _ hp

theorem fsqr_lt {p : Nat} (a : Nat) (hp : 0 < p) : fsqr p a < p := fred_lt _ hp

/-- Halving is exact modulo an odd `p`: twice the half is the operand. -/
theorem two_mul_fhalf {p a : Nat} (hp : p % 2 = 1) : 2 * fhalf p a = a + if a % 2 = 1 then p else 0 := by
  unfold fhalf
  split <;> omega

theorem fhalf_lt {p a : Nat} (hp : p % 2 = 1) (ha : a < p) : fhalf p a < p := by
  have := two_mul_fhalf (a := a) hp
  split at this <;> omega

end Sys2Proof.Machine
end

