-- ==== Sys2Proof/Laws/Field.lean ====
section
/-! SUPPORT. The field primitives and the affine group law read in `ZMod p`, where the formulas are algebra. -/

namespace Sys2Proof.Machine

/-! ## The primitives -/

theorem cast_fred (p v : Nat) : ((fred p v : Nat) : ZMod p) = v := by simp [fred, mmod]

theorem cast_fmul (p a b : Nat) : ((fmul p a b : Nat) : ZMod p) = a * b := by simp [fmul, cast_fred]

theorem cast_fsqr (p a : Nat) : ((fsqr p a : Nat) : ZMod p) = a ^ 2 := by simp [fsqr, cast_fred, sq]

/-- One correction adds modulo `p` as soon as the second operand is canonical. -/
theorem cast_fadd {p a b : Nat} (hp : p ≤ 2 ^ 256) (ha : a < 2 ^ 256) (hb : b < p) :
    ((fadd p a b : Nat) : ZMod p) = a + b := by
  simp only [fadd, modadd]
  split
  · next h =>
    rw [Nat.mod_eq_of_lt (by omega), Nat.cast_sub h]
    simp
  · next h =>
    rw [Nat.mod_eq_of_lt (by omega)]
    simp

/-- One correction subtracts modulo `p` as soon as the second operand is canonical. -/
theorem cast_fsub {p a b : Nat} (hp : p ≤ 2 ^ 256) (ha : a < 2 ^ 256) (hb : b < p) :
    ((fsub p a b : Nat) : ZMod p) = a - b := by
  have e : ((fsub p a b : Nat) : Int) = if (a : Int) - b < 0 then (a : Int) - b + p else (a : Int) - b := by
    simp only [fsub, modsub]
    split <;> omega
  have := congrArg (Int.cast : Int → ZMod p) e
  rw [Int.cast_natCast] at this
  rw [this]
  split <;> simp

/-- Twice the half is the operand. -/
theorem cast_fhalf {p a : Nat} (hp : p % 2 = 1) : 2 * ((fhalf p a : Nat) : ZMod p) = a := by
  have := congrArg (Nat.cast : Nat → ZMod p) (two_mul_fhalf (a := a) hp)
  rw [Nat.cast_mul, Nat.cast_ofNat, Nat.cast_add] at this
  rw [this]
  split <;> simp

theorem fadd_canonical_lt {p a b : Nat} (ha : a < p) (hb : b < p) (hp : p ≤ 2 ^ 256) : fadd p a b < p :=
  modadd_canonical_lt ha hb hp

theorem fsub_canonical_lt {p a b : Nat} (ha : a < p) (hb : b < p) (hp : p ≤ 2 ^ 256) : fsub p a b < p :=
  modsub_canonical_lt ha hb hp

theorem fsub_lt (p a b : Nat) : fsub p a b < 2 ^ 256 := modsub_lt a b p

theorem fadd_lt (p a b : Nat) : fadd p a b < 2 ^ 256 := modadd_lt a b p

/-- Two numbers agree modulo `p` exactly when they agree in `ZMod p`. -/
theorem cast_eq_iff (p a b : Nat) : (a : ZMod p) = b ↔ a % p = b % p := ZMod.natCast_eq_natCast_iff a b p

/-- Canonical numbers that agree in `ZMod p` are equal. -/
theorem eq_of_cast_eq {p a b : Nat} (ha : a < p) (hb : b < p) (h : (a : ZMod p) = b) : a = b := by
  rwa [cast_eq_iff, Nat.mod_eq_of_lt ha, Nat.mod_eq_of_lt hb] at h

theorem cast_eq_zero_iff (p a : Nat) : (a : ZMod p) = 0 ↔ a % p = 0 := by
  rw [ZMod.natCast_eq_zero_iff, Nat.dvd_iff_mod_eq_zero]

/-! ## The group law -/

/-- For a prime `p` the group law's inverse is the field's. -/
theorem cast_inverseMod {p : Nat} (hp : p.Prime) (d : Int) (h : (d : ZMod p) ≠ 0) :
    ((inverseMod d p : Nat) : ZMod p) = (d : ZMod p)⁻¹ := by
  have : Fact p.Prime := ⟨hp⟩
  have hpos := hp.pos
  have hnn := Int.emod_nonneg d (by omega : (p : Int) ≠ 0)
  have hlt := Int.emod_lt_of_pos d (by omega : (0 : Int) < p)
  have hr : (((d % (p : Int)).toNat : Nat) : ZMod p) = (d : ZMod p) := by
    have e : (((d % (p : Int)).toNat : Nat) : Int) = d % (p : Int) := Int.toNat_of_nonneg hnn
    have := congrArg (Int.cast : Int → ZMod p) e
    rw [Int.cast_natCast] at this
    rw [this]
    simp
  have hne : (d % (p : Int)).toNat % p ≠ 0 := fun e => h (by rw [← hr]; exact (cast_eq_zero_iff _ _).mpr e)
  have hg : Nat.gcd ((d % (p : Int)).toNat % p) p = 1 := by
    rw [Nat.gcd_comm]
    exact (Nat.Prime.coprime_iff_not_dvd hp).mpr fun hd =>
      hne (by simpa using Nat.mod_eq_zero_of_dvd hd)
  obtain ⟨hf, -, he⟩ := (modinv_spec (d % (p : Int)).toNat p hp.two_le).1 hg
  simp only [inverseMod, hf]
  have := congrArg (Nat.cast : Nat → ZMod p) he
  rw [ZMod.natCast_mod, Nat.cast_mul, hr, Nat.cast_one] at this
  exact eq_inv_of_mul_eq_one_right this

/-- `A(MODE)` as an element of `ZMod p`. -/
theorem cast_curveA (c : Curve) : ((c.a : Int) : ZMod c.p) = if c.mode = .fast then 0 else -3 := by
  unfold Curve.a
  cases c.mode <;> simp

/-- `OnCurve` is canonical coordinates and the curve's equation in `ZMod p`. -/
theorem onCurve_iff (c : Curve) (q : AffinePoint) : c.onCurve q = true ↔
    q.x < c.p ∧ q.y < c.p ∧
      (q.y : ZMod c.p) ^ 2 = (q.x : ZMod c.p) ^ 3 + (c.a : Int) * (q.x : ZMod c.p) + (c.b : ZMod c.p) := by
  simp only [Curve.onCurve, Bool.and_eq_true, decide_eq_true_eq, and_assoc]
  refine and_congr_right fun _ => and_congr_right fun _ => ?_
  rw [← Int.dvd_iff_emod_eq_zero, ← ZMod.intCast_zmod_eq_zero_iff_dvd]
  push_cast
  constructor <;> intro h <;> linear_combination h

/-- The coordinates of the third point are canonical, and are the chord-and-tangent formulas in `ZMod p`. -/
theorem reflectedThird_spec (c : Curve) (hp : 0 < c.p) (l x1 y1 x2 : Int) :
    (c.reflectedThird l x1 y1 x2).x < c.p ∧ (c.reflectedThird l x1 y1 x2).y < c.p ∧
    ((c.reflectedThird l x1 y1 x2).x : ZMod c.p) = (l : ZMod c.p) ^ 2 - x1 - x2 ∧
    ((c.reflectedThird l x1 y1 x2).y : ZMod c.p) =
      (l : ZMod c.p) * (x1 - ((c.reflectedThird l x1 y1 x2).x : ZMod c.p)) - y1 := by
  have key : ∀ v : Int, (v % (c.p : Int)).toNat < c.p ∧ ((v % (c.p : Int)).toNat : Int) = v % (c.p : Int) := by
    intro v
    have hnn := Int.emod_nonneg v (by omega : (c.p : Int) ≠ 0)
    have hlt := Int.emod_lt_of_pos v (by omega : (0 : Int) < c.p)
    omega
  have cast : ∀ v : Int, (((v % (c.p : Int)).toNat : Nat) : ZMod c.p) = (v : ZMod c.p) := by
    intro v
    have := congrArg (Int.cast : Int → ZMod c.p) (key v).2
    rw [Int.cast_natCast] at this
    rw [this]
    simp
  refine ⟨(key _).1, (key _).1, ?_, ?_⟩
  · simp only [Curve.reflectedThird, cast]
    push_cast
    ring
  · simp only [Curve.reflectedThird, cast]
    push_cast
    simp

/-- The slope in `ZMod p`, for a prime `p`: the tangent's or the chord's. -/
theorem cast_slope (c : Curve) (hp : c.p.Prime) (x1 y1 x2 y2 : Int) :
    (x1 = x2 → ((2 * y1 : Int) : ZMod c.p) ≠ 0 →
      ((c.slope x1 y1 x2 y2 : Int) : ZMod c.p) * (2 * y1) = 3 * (x1 : ZMod c.p) ^ 2 + (c.a : Int)) ∧
    (x1 ≠ x2 → ((x2 - x1 : Int) : ZMod c.p) ≠ 0 →
      ((c.slope x1 y1 x2 y2 : Int) : ZMod c.p) * (x2 - x1) = y2 - y1) := by
  have : Fact c.p.Prime := ⟨hp⟩
  constructor
  · intro he hd
    simp only [Curve.slope, if_pos he, ZMod.intCast_mod, Int.cast_mul, Int.cast_natCast, cast_inverseMod hp _ hd]
    push_cast at hd ⊢
    rw [mul_assoc, inv_mul_cancel₀ hd]
    ring
  · intro he hd
    simp only [Curve.slope, if_neg he, ZMod.intCast_mod, Int.cast_mul, Int.cast_natCast, cast_inverseMod hp _ hd]
    push_cast at hd ⊢
    rw [mul_assoc, inv_mul_cancel₀ hd]
    ring

/-- An odd prime has an invertible 2. -/
theorem two_ne_zero_of_odd {p : Nat} (h : p % 2 = 1) (h3 : p ≠ 1) : (2 : ZMod p) ≠ 0 := by
  have := (cast_eq_zero_iff p 2).not.mpr (by rw [Nat.mod_eq_of_lt (by omega)]; decide)
  exact_mod_cast this

/-- The sum of a canonical point with itself, for an odd prime: `O` when `y ≡ 0`, else the tangent's formula. -/
theorem add_self_spec (c : Curve) (hp : c.p.Prime) (h2 : c.p % 2 = 1) (q : AffinePoint) (hy : q.y < c.p) :
    ((q.y : ZMod c.p) = 0 → c.add q q = infinity) ∧
    ((q.y : ZMod c.p) ≠ 0 →
      (c.add q q).x < c.p ∧ (c.add q q).y < c.p ∧
      ∃ l : ZMod c.p, l * (2 * q.y) = 3 * (q.x : ZMod c.p) ^ 2 + (c.a : Int) ∧
        ((c.add q q).x : ZMod c.p) = l ^ 2 - 2 * q.x ∧
        ((c.add q q).y : ZMod c.p) = l * (q.x - ((c.add q q).x : ZMod c.p)) - q.y) := by
  have : Fact c.p.Prime := ⟨hp⟩
  have two := two_ne_zero_of_odd h2 hp.one_lt.ne'
  constructor
  · intro h0
    have hy0 : q.y = 0 := by
      have := (cast_eq_zero_iff c.p q.y).mp h0
      rwa [Nat.mod_eq_of_lt hy] at this
    unfold Curve.add
    split
    · next h => exact h
    · rw [if_pos ⟨rfl, by simp [hy0]⟩]
  · intro h0
    have hinf : q ≠ infinity := by rintro rfl; exact h0 (by simp [infinity])
    have hyy : ¬(q.x = q.x ∧ (q.y + q.y) % c.p = 0) := by
      rintro ⟨-, h⟩
      have := (cast_eq_zero_iff c.p _).mpr h
      push_cast at this
      rw [← two_mul] at this
      rcases mul_eq_zero.mp this with h | h
      · exact two h
      · exact h0 h
    have e : c.add q q = c.reflectedThird (c.slope q.x q.y q.x q.y) q.x q.y q.x := by
      unfold Curve.add
      rw [if_neg hinf, if_neg hinf, if_neg hyy]
    obtain ⟨a, b, e1, e2⟩ := reflectedThird_spec c hp.pos (c.slope q.x q.y q.x q.y) q.x q.y q.x
    rw [e]
    refine ⟨a, b, (c.slope q.x q.y q.x q.y : Int), ?_, ?_, ?_⟩
    · have := (cast_slope c hp q.x q.y q.x q.y).1 rfl (by push_cast; exact mul_ne_zero two h0)
      simpa using this
    · rw [e1]; push_cast; ring
    · rw [e2]; push_cast; ring

/-- The sum of two points with different canonical x, for a prime: the chord's formula. -/
theorem add_chord_spec (c : Curve) (hp : c.p.Prime) (q1 q2 : AffinePoint) (h1 : q1 ≠ infinity)
    (h2 : q2 ≠ infinity) (hx1 : q1.x < c.p) (hx2 : q2.x < c.p) (hne : q1.x ≠ q2.x) :
    (c.add q1 q2).x < c.p ∧ (c.add q1 q2).y < c.p ∧
    ∃ l : ZMod c.p, l * ((q2.x : ZMod c.p) - q1.x) = (q2.y : ZMod c.p) - q1.y ∧
      ((c.add q1 q2).x : ZMod c.p) = l ^ 2 - q1.x - q2.x ∧
      ((c.add q1 q2).y : ZMod c.p) = l * (q1.x - ((c.add q1 q2).x : ZMod c.p)) - q1.y := by
  have : Fact c.p.Prime := ⟨hp⟩
  have hd : (q2.x : ZMod c.p) - q1.x ≠ 0 := fun h => hne (eq_of_cast_eq hx1 hx2 (sub_eq_zero.mp h).symm)
  have e : c.add q1 q2 = c.reflectedThird (c.slope q1.x q1.y q2.x q2.y) q1.x q1.y q2.x := by
    unfold Curve.add
    rw [if_neg h1, if_neg h2, if_neg (fun h => hne h.1)]
  obtain ⟨a, b, e1, e2⟩ := reflectedThird_spec c hp.pos (c.slope q1.x q1.y q2.x q2.y) q1.x q1.y q2.x
  rw [e]
  refine ⟨a, b, (c.slope q1.x q1.y q2.x q2.y : Int), ?_, ?_, ?_⟩
  · have := (cast_slope c hp q1.x q1.y q2.x q2.y).2 (by exact_mod_cast hne) (by push_cast; exact hd)
    simpa using this
  · rw [e1]; push_cast; ring
  · rw [e2]; push_cast; ring

end Sys2Proof.Machine
end

