-- ==== Sys2Proof/Laws/Prime.lean ====
section
/-! SUPPORT. `P_K1` and P-256's prime are prime, by Pratt certificates, so that what is said of a prime CP is said of
FAST mode and of a GENERIC curve. -/

namespace Sys2Proof

/-- `a^e mod p` by repeated squaring; `fuel` bounds the bits of `e`. -/
def powMod (p : Nat) : (fuel a e : Nat) → Nat
  | 0, _, _ => 1 % p
  | fuel + 1, a, e =>
    if e % 2 = 1 then a * powMod p fuel (a * a % p) (e / 2) % p else powMod p fuel (a * a % p) (e / 2)

theorem cast_powMod (p : Nat) : ∀ fuel a e : Nat, e < 2 ^ fuel →
    ((powMod p fuel a e : Nat) : ZMod p) = (a : ZMod p) ^ e := by
  intro fuel
  induction fuel with
  | zero =>
    intro a e h
    obtain rfl : e = 0 := by simpa using h
    simp [powMod]
  | succ fuel ih =>
    intro a e h
    have he : e / 2 < 2 ^ fuel := by rw [Nat.pow_succ] at h; omega
    have sq : (((a * a % p : Nat) : ZMod p)) ^ (e / 2) = (a : ZMod p) ^ (2 * (e / 2)) := by
      rw [ZMod.natCast_mod, Nat.cast_mul, ← pow_two, ← pow_mul]
    unfold powMod
    split
    · next hodd =>
      rw [ZMod.natCast_mod, Nat.cast_mul, ih _ _ he, sq, ← pow_succ']
      congr 1
      omega
    · next heven =>
      rw [ih _ _ he, sq]
      congr 1
      omega

/-- The numeric part of a Pratt certificate: the base `a` has order `p - 1` modulo `p`, whose prime factors
are `qs`. -/
def prattCheck (p a fuel : Nat) (qs : List Nat) : Bool :=
  decide (1 < p) && decide (qs.prod = p - 1) && decide (p - 1 < 2 ^ fuel) &&
    decide (powMod p fuel a (p - 1) = 1) && qs.all fun q => decide (powMod p fuel a ((p - 1) / q) ≠ 1)

theorem powMod_lt {p : Nat} (hp : 1 < p) : ∀ fuel a e : Nat, powMod p fuel a e < p := by
  intro fuel
  induction fuel with
  | zero => intro a e; exact Nat.mod_lt _ (by omega)
  | succ fuel ih =>
    intro a e
    unfold powMod
    split
    · exact Nat.mod_lt _ (by omega)
    · exact ih _ _

/-- A certificate whose factors are prime certifies its number. -/
theorem prime_of_pratt {p : Nat} (a fuel : Nat) (qs : List Nat) (hq : ∀ q ∈ qs, q.Prime)
    (h : prattCheck p a fuel qs = true) : p.Prime := by
  simp only [prattCheck, Bool.and_eq_true, decide_eq_true_eq, List.all_eq_true] at h
  obtain ⟨⟨⟨⟨hp, hprod⟩, hlt⟩, hone⟩, hne⟩ := h
  refine lucas_primality p (a : ZMod p) ?_ ?_
  · rw [← cast_powMod p fuel a _ hlt, hone, Nat.cast_one]
  · intro q hqp hdvd hone'
    rw [← hprod] at hdvd
    obtain ⟨r, hr, hqr⟩ := (Nat.Prime.prime hqp).dvd_prod_iff.mp hdvd
    obtain rfl : q = r := (Nat.prime_dvd_prime_iff_eq hqp (hq r hr)).mp hqr
    refine hne q hr ?_
    rw [← cast_powMod p fuel a _ (lt_of_le_of_lt (Nat.div_le_self _ _) hlt),
      show (1 : ZMod p) = ((1 : Nat) : ZMod p) from Nat.cast_one.symm,
      ZMod.natCast_eq_natCast_iff, Nat.ModEq, Nat.mod_eq_of_lt (powMod_lt hp _ _ _), Nat.mod_eq_of_lt hp] at hone'
    exact hone'

theorem prime_173378833005251801 : Nat.Prime 173378833005251801 :=
  prime_of_pratt 6 64 [2, 2, 2, 5, 5, 2621, 24809, 13331831] (by simp; norm_num) (by decide +kernel)

theorem prime_22149492674086928081353 : Nat.Prime 22149492674086928081353 :=
  prime_of_pratt 5 128 [2, 2, 2, 3, 5323, 173378833005251801]
    (by simp [prime_173378833005251801]; norm_num) (by decide +kernel)

theorem prime_132896956044521568488119 : Nat.Prime 132896956044521568488119 :=
  prime_of_pratt 6 128 [2, 3, 22149492674086928081353]
    (by simp [prime_22149492674086928081353]; norm_num) (by decide +kernel)

theorem prime_255515944373312847190720520512484175977 : Nat.Prime 255515944373312847190720520512484175977 :=
  prime_of_pratt 3 128 [2, 2, 2, 7, 7, 11, 1627, 2657, 4423, 41201, 96557, 7240687, 107590001]
    (by simp; norm_num) (by decide +kernel)

theorem prime_factor_pK1 :
    Nat.Prime 205115282021455665897114700593932402728804164701536103180137503955397371 :=
  prime_of_pratt 10 256
    [2, 3, 5, 29, 29, 31, 7723, 132896956044521568488119, 255515944373312847190720520512484175977]
    (by
      simp [prime_132896956044521568488119, prime_255515944373312847190720520512484175977]
      norm_num)
    (by decide +kernel)

/-- `P_K1` is prime. -/
theorem prime_pK1 : Config.pK1.Prime :=
  prime_of_pratt 3 256
    [2, 3, 7, 13441, 205115282021455665897114700593932402728804164701536103180137503955397371]
    (by simp [prime_factor_pK1]; norm_num) (by decide +kernel)

theorem prime_34282281433 : Nat.Prime 34282281433 :=
  prime_of_pratt 17 64 [2, 2, 2, 3, 7, 204061199] (by simp; norm_num) (by decide +kernel)

theorem prime_66417393611 : Nat.Prime 66417393611 :=
  prime_of_pratt 6 64 [2, 5, 53, 173, 197, 3677] (by simp; norm_num) (by decide +kernel)

theorem prime_11290956913871 : Nat.Prime 11290956913871 :=
  prime_of_pratt 13 64 [2, 5, 17, 66417393611] (by simp [prime_66417393611]; norm_num) (by decide +kernel)

theorem prime_46076956964474543 : Nat.Prime 46076956964474543 :=
  prime_of_pratt 5 64 [2, 23, 18169, 78283, 704251] (by simp; norm_num) (by decide +kernel)

theorem prime_774023187263532362759620327192479577272145303 :
    Nat.Prime 774023187263532362759620327192479577272145303 :=
  prime_of_pratt 3 256 [2, 3, 3, 2411, 34282281433, 11290956913871, 46076956964474543]
    (by simp [prime_34282281433, prime_11290956913871, prime_46076956964474543]; norm_num) (by decide +kernel)

theorem prime_factor_pP256 : Nat.Prime 835945042244614951780389953367877943453916927241 :=
  prime_of_pratt 11 256 [2, 2, 2, 3, 3, 3, 5, 774023187263532362759620327192479577272145303]
    (by simp [prime_774023187263532362759620327192479577272145303]; norm_num) (by decide +kernel)

/-- P-256's prime is prime. -/
theorem prime_pP256 : Config.pP256.Prime :=
  prime_of_pratt 6 256
    [2, 3, 5, 5, 17, 257, 641, 1531, 65537, 490463, 6700417, 835945042244614951780389953367877943453916927241]
    (by simp [prime_factor_pP256]; norm_num) (by decide +kernel)

end Sys2Proof
end

