-- ==== Sys2Proof/Laws/GroupLaw.lean ====
section
/-! SUPPORT. For an odd prime CP and a curve that is not singular and has `b ≢ 0` (so that `(0, 0)` is no point of
it), the group law of the rules is Mathlib's group of points of the same Weierstrass curve. -/

namespace Sys2Proof.Machine

/-- The curve's equation `y² = x³ + a·x + b` over `ZMod p`. -/
def Curve.weierstrass (c : Curve) : WeierstrassCurve.Affine (ZMod c.p) :=
  { a₁ := 0, a₂ := 0, a₃ := 0, a₄ := (c.a : Int), a₆ := (c.b : Nat) }

/-- The curve is not singular: `4a³ + 27b² ≢ 0`, and `b ≢ 0`. -/
def Curve.Smooth (c : Curve) : Prop :=
  (c.b : ZMod c.p) ≠ 0 ∧ 4 * ((c.a : Int) : ZMod c.p) ^ 3 + 27 * (c.b : ZMod c.p) ^ 2 ≠ 0

/-- `q` is the pair of coordinates of the point `P`, `(0, 0)` for the neutral element. -/
def Represents (c : Curve) (q : AffinePoint) (P : c.weierstrass.Point) : Prop :=
  (q = infinity ∧ P = 0) ∨
  (q ≠ infinity ∧ q.x < c.p ∧ q.y < c.p ∧
    ∃ h : c.weierstrass.Nonsingular (q.x : ZMod c.p) (q.y : ZMod c.p), P = .some _ _ h)

variable {c : Curve}

theorem weierstrass_negY (x y : ZMod c.p) : c.weierstrass.negY x y = -y := by
  simp [WeierstrassCurve.Affine.negY, Curve.weierstrass]

theorem weierstrass_addX (x1 x2 l : ZMod c.p) : c.weierstrass.addX x1 x2 l = l ^ 2 - x1 - x2 := by
  simp [WeierstrassCurve.Affine.addX, Curve.weierstrass]

theorem weierstrass_addY (x1 x2 y1 l : ZMod c.p) :
    c.weierstrass.addY x1 x2 y1 l = l * (x1 - c.weierstrass.addX x1 x2 l) - y1 := by
  rw [WeierstrassCurve.Affine.addY, weierstrass_negY, WeierstrassCurve.Affine.negAddY]
  ring

theorem weierstrass_equation (x y : ZMod c.p) :
    c.weierstrass.Equation x y ↔ y ^ 2 = x ^ 3 + (c.a : Int) * x + (c.b : ZMod c.p) := by
  simp [WeierstrassCurve.Affine.equation_iff, Curve.weierstrass]

/-- Off the neutral element a represented point has coordinates on the curve. -/
theorem Represents.onCurve {q : AffinePoint} {P : c.weierstrass.Point} (h : Represents c q P)
    (hq : q ≠ infinity) : c.onCurve q = true := by
  rcases h with ⟨h, -⟩ | ⟨-, hx, hy, hn, -⟩
  · exact absurd h hq
  · exact (onCurve_iff c q).mpr ⟨hx, hy, (weierstrass_equation _ _).mp hn.1⟩

/-- A represented point is valid. -/
theorem Represents.validPt {q : AffinePoint} {P : c.weierstrass.Point} (h : Represents c q P) :
    c.validPt q = true := by
  by_cases hq : q = infinity
  · simp [Curve.validPt, hq]
  · simp [Curve.validPt, h.onCurve hq]

/-- Coordinates represent one point at most, and a point has one pair of coordinates. -/
theorem Represents.inj {q1 q2 : AffinePoint} {P : c.weierstrass.Point} (h1 : Represents c q1 P)
    (h2 : Represents c q2 P) : q1 = q2 := by
  rcases h1 with ⟨h1, e1⟩ | ⟨-, hx1, hy1, hn1, e1⟩ <;> rcases h2 with ⟨h2, e2⟩ | ⟨-, hx2, hy2, hn2, e2⟩
  · rw [h1, h2]
  · rw [e1] at e2; exact absurd e2.symm (WeierstrassCurve.Affine.Point.some_ne_zero hn2)
  · rw [e2] at e1; exact absurd e1.symm (WeierstrassCurve.Affine.Point.some_ne_zero hn1)
  · rw [e1] at e2
    injection e2 with ex ey
    have := eq_of_cast_eq hx1 hx2 ex
    have := eq_of_cast_eq hy1 hy2 ey
    cases q1; cases q2; simp_all

theorem smooth_delta (h : c.Smooth) (hp : c.p.Prime) (h2 : c.p % 2 = 1) : c.weierstrass.Δ ≠ 0 := by
  have : Fact c.p.Prime := ⟨hp⟩
  have two := two_ne_zero_of_odd h2 hp.one_lt.ne'
  have e : c.weierstrass.Δ = -(2 ^ 4 * (4 * ((c.a : Int) : ZMod c.p) ^ 3 + 27 * (c.b : ZMod c.p) ^ 2)) := by
    simp only [WeierstrassCurve.Δ, WeierstrassCurve.b₂, WeierstrassCurve.b₄, WeierstrassCurve.b₆,
      WeierstrassCurve.b₈, Curve.weierstrass]
    ring
  rw [e, neg_ne_zero]
  exact mul_ne_zero (pow_ne_zero _ two) h.2

/-- Every valid pair of coordinates represents a point. -/
theorem exists_represents (hs : c.Smooth) (hp : c.p.Prime) (h2 : c.p % 2 = 1) {q : AffinePoint}
    (h : c.validPt q = true) : ∃ P, Represents c q P := by
  by_cases hq : q = infinity
  · exact ⟨0, .inl ⟨hq, rfl⟩⟩
  · have ho : c.onCurve q = true := by simpa [Curve.validPt, hq] using h
    obtain ⟨hx, hy, he⟩ := (onCurve_iff c q).mp ho
    exact ⟨_, .inr ⟨hq, hx, hy, (WeierstrassCurve.Affine.equation_iff_nonsingular_of_Δ_ne_zero
      (smooth_delta hs hp h2)).mp ((weierstrass_equation _ _).mpr he), rfl⟩⟩

/-- With `b ≢ 0` the pair `(0, 0)` is not on the curve, so a point's coordinates are never `O`. -/
theorem ne_infinity_of_nonsingular (hs : c.Smooth) {q : AffinePoint}
    (h : c.weierstrass.Nonsingular (q.x : ZMod c.p) (q.y : ZMod c.p)) : q ≠ infinity := by
  rintro rfl
  have := (weierstrass_equation _ _).mp h.1
  simp [infinity] at this
  exact hs.1 this.symm

/-- The group law of R221 is the group's addition. -/
theorem Represents.add [Fact c.p.Prime] (hs : c.Smooth) (h2 : c.p % 2 = 1) {q1 q2 : AffinePoint}
    {P1 P2 : c.weierstrass.Point} (h1 : Represents c q1 P1) (h2' : Represents c q2 P2) :
    Represents c (c.add q1 q2) (P1 + P2) := by
  have hp : c.p.Prime := Fact.out
  have two := two_ne_zero_of_odd h2 hp.one_lt.ne'
  have one1 := h1.onCurve
  have one2 := h2'.onCurve
  rcases h1 with ⟨e1, rfl⟩ | ⟨i1, hx1, hy1, hn1, rfl⟩
  · rw [zero_add]
    simpa [Curve.add, e1] using h2'
  rcases h2' with ⟨e2, rfl⟩ | ⟨i2, hx2, hy2, hn2, rfl⟩
  · rw [add_zero, show c.add q1 q2 = q1 by simp [Curve.add, e2, i1]]
    exact .inr ⟨i1, hx1, hy1, hn1, rfl⟩
  -- a result given by the formulas with the right slope represents the group's sum
  have build : ∀ l : ZMod c.p, (hxy : ¬((q1.x : ZMod c.p) = q2.x ∧ (q1.y : ZMod c.p) = c.weierstrass.negY q2.x q2.y)) →
      c.weierstrass.slope (q1.x : ZMod c.p) q2.x q1.y q2.y = l →
      (c.add q1 q2).x < c.p → (c.add q1 q2).y < c.p →
      ((c.add q1 q2).x : ZMod c.p) = l ^ 2 - q1.x - q2.x →
      ((c.add q1 q2).y : ZMod c.p) = l * (q1.x - ((c.add q1 q2).x : ZMod c.p)) - q1.y →
      Represents c (c.add q1 q2) (.some _ _ hn1 + .some _ _ hn2) := by
    intro l hxy hl hx hy ex ey
    rw [WeierstrassCurve.Affine.Point.add_some hxy]
    have hX : c.weierstrass.addX (q1.x : ZMod c.p) q2.x (c.weierstrass.slope (q1.x : ZMod c.p) q2.x q1.y q2.y) =
        (c.add q1 q2).x := by rw [hl, weierstrass_addX, ex]
    have hY : c.weierstrass.addY (q1.x : ZMod c.p) q2.x q1.y
        (c.weierstrass.slope (q1.x : ZMod c.p) q2.x q1.y q2.y) = (c.add q1 q2).y := by
      rw [weierstrass_addY, hX, hl, ey]
    have hns := WeierstrassCurve.Affine.nonsingular_add hn1 hn2 hxy
    rw [hX, hY] at hns
    refine .inr ⟨ne_infinity_of_nonsingular hs hns, hx, hy, hns, ?_⟩
    simp only [hX, hY]
  by_cases hx : q1.x = q2.x
  · by_cases hy : (q1.y + q2.y) % c.p = 0
    · have e : c.add q1 q2 = infinity := by simp [Curve.add, i1, i2, hx, hy]
      have hneg : (q1.y : ZMod c.p) = c.weierstrass.negY q2.x q2.y := by
        rw [weierstrass_negY]
        have := (cast_eq_zero_iff c.p _).mpr hy
        push_cast at this
        exact eq_neg_of_add_eq_zero_left this
      refine .inl ⟨e, ?_⟩
      exact WeierstrassCurve.Affine.Point.add_of_Y_eq (by rw [hx]) hneg
    · have eq1 := (weierstrass_equation _ _).mp hn1.1
      have eq2 := (weierstrass_equation _ _).mp hn2.1
      have hyy : q1.y = q2.y := by
        have h0 : ((q1.y : ZMod c.p) - q2.y) * (q1.y + q2.y) = 0 := by
          rw [hx] at eq1
          linear_combination eq1 - eq2
        rcases mul_eq_zero.mp h0 with h | h
        · exact eq_of_cast_eq hy1 hy2 (sub_eq_zero.mp h)
        · exact absurd ((cast_eq_zero_iff _ _).mp (by exact_mod_cast h)) hy
      obtain rfl : q1 = q2 := by cases q1; cases q2; simp_all
      have hy0 : (q1.y : ZMod c.p) ≠ 0 := by
        intro h
        apply hy
        apply (cast_eq_zero_iff _ _).mp
        push_cast
        rw [h, add_zero]
      obtain ⟨ax, ay, l, hl, ex, ey⟩ := (add_self_spec c hp h2 q1 hy1).2 hy0
      have hne : (q1.y : ZMod c.p) ≠ c.weierstrass.negY q1.x q1.y := by
        rw [weierstrass_negY]
        intro h
        have : (2 : ZMod c.p) * q1.y = 0 := by linear_combination h
        exact (mul_ne_zero two hy0) this
      refine build l (fun h => hne h.2) ?_ ax ay (by rw [ex]; ring) ey
      rw [WeierstrassCurve.Affine.slope_of_Y_ne rfl hne, weierstrass_negY, div_eq_iff (by
        rw [sub_neg_eq_add, ← two_mul]; exact mul_ne_zero two hy0)]
      simp only [Curve.weierstrass]
      linear_combination -hl
  · obtain ⟨ax, ay, l, hl, ex, ey⟩ := add_chord_spec c hp q1 q2 i1 i2 hx1 hx2 hx
    have hne : (q1.x : ZMod c.p) ≠ q2.x := fun h => hx (eq_of_cast_eq hx1 hx2 h)
    refine build l (fun h => hne h.1) ?_ ax ay ex ey
    rw [WeierstrassCurve.Affine.slope_of_X_ne hne, div_eq_iff (sub_ne_zero.mpr hne)]
    linear_combination hl

/-- `[k]P` of R222 is the group's `k`-th multiple. -/
theorem Represents.smul [Fact c.p.Prime] (hs : c.Smooth) (h2 : c.p % 2 = 1) {q : AffinePoint}
    {P : c.weierstrass.Point} (h : Represents c q P) : ∀ k : Nat, Represents c (c.smul k q) (k • P)
  | 0 => .inl ⟨rfl, zero_nsmul P⟩
  | k + 1 => by
    rw [succ_nsmul]
    exact (Represents.smul hs h2 h k).add hs h2 h

/-! ## Evaluating a scalar multiple -/

/-- Doubling and adding gives the multiple of R222. -/
theorem smul_eq_smulBinary (hs : c.Smooth) (hp : c.p.Prime) (h2 : c.p % 2 = 1) {q : AffinePoint}
    (hq : c.validPt q = true) (fuel k : Nat) (hk : k < 2 ^ fuel) : c.smul k q = c.smulBinary fuel k q := by
  have : Fact c.p.Prime := ⟨hp⟩
  have bin : ∀ fuel k : Nat, k < 2 ^ fuel → ∀ (q : AffinePoint) (P : c.weierstrass.Point), Represents c q P →
      Represents c (c.smulBinary fuel k q) (k • P) := by
    intro fuel
    induction fuel with
    | zero =>
      intro k hk q P _
      obtain rfl : k = 0 := by simpa using hk
      exact .inl ⟨rfl, zero_nsmul P⟩
    | succ fuel ih =>
      intro k hk q P h
      have hh := ih (k / 2) (by rw [Nat.pow_succ] at hk; omega) _ _ (h.add hs h2 h)
      unfold Curve.smulBinary
      have e : k • P = (k / 2) • (P + P) + (k % 2) • P := by
        rw [← two_nsmul, ← mul_nsmul', ← add_nsmul]
        congr 1
        omega
      split
      · next hodd =>
        rw [e, hodd, one_nsmul]
        exact hh.add hs h2 h
      · next heven =>
        rw [e, show k % 2 = 0 by omega, zero_nsmul, add_zero]
        exact hh
  obtain ⟨P, hP⟩ := exists_represents hs hp h2 hq
  exact (Represents.smul hs h2 hP k).inj (bin fuel k hk q P hP)

/-- On the known curves the group law is a group's. -/
theorem groupKnown_spec (h : c.groupKnown = true) : c.p.Prime ∧ c.p % 2 = 1 ∧ c.Smooth := by
  simp only [Curve.groupKnown, Bool.and_eq_true, Bool.or_eq_true, decide_eq_true_eq] at h
  obtain ⟨⟨hp, hb⟩, hd⟩ := h
  refine ⟨?_, ?_, fun e => hb ((cast_eq_zero_iff c.p c.b).mp e), fun e => hd ?_⟩
  · rcases hp with hp | hp <;> rw [hp]
    exacts [prime_pK1, prime_pP256]
  · rcases hp with hp | hp <;> rw [hp] <;> decide +kernel
  · refine Int.emod_eq_zero_of_dvd ((ZMod.intCast_zmod_eq_zero_iff_dvd _ _).mp ?_)
    push_cast
    exact e

/-- PMUL's multiple is the multiple of R222, on every curve. -/
theorem multiple_eq_smul (c : Curve) (k : Nat) {q : AffinePoint} (hq : c.validPt q = true) :
    c.multiple k q = c.smul k q := by
  unfold Curve.multiple
  cases h : c.groupKnown with
  | true =>
    obtain ⟨hp, h2, hs⟩ := groupKnown_spec h
    exact (smul_eq_smulBinary hs hp h2 hq _ k (lt_two_pow_bitlen k)).symm
  | false => rfl

/-- PMUL's result is the multiple of R222 for a valid point and a draw otherwise. -/
theorem pointOrDraw_multiple (s : State) (c : Curve) (rdp : Pair) (k : Nat) (q : AffinePoint) :
    s.pointOrDraw (c.validPt q) rdp (c.multiple k q) = s.pointOrDraw (c.validPt q) rdp (c.smul k q) := by
  cases h : c.validPt q with
  | true => rw [multiple_eq_smul c k h]
  | false => rfl

end Sys2Proof.Machine
end

