-- ==== Sys2Proof/Laws/PerInstr.lean ====
section
/-! SUPPORT. One fact for every command, proved constructor by constructor: its encoding has zero upper bits and
a legal opcode. -/

/-- The opcodes of 30_encoding.md R116. -/
def Sys2Proof.Laws.Encoding.opcodes : List (BitVec 8) :=
  [0x00, 0x01, 0x02, 0x03, 0x04, 0x05, 0x06, 0x07, 0x08, 0x09, 0x0A, 0x0B, 0x10, 0x11, 0x12, 0x13, 0x20, 0x21,
   0x22, 0x30, 0x31, 0x32, 0x33, 0x34]

/-- The encoding of `i` has zeros in bits 63:32 (R110) and an opcode of the map in bits 7:0 (R116). -/
def Sys2Proof.Laws.Encoding.Statement (i : Sys2Proof.Instr) : Prop :=
  Sys2Proof.upperOf (Sys2Proof.encode i) = 0#32 ∧
    Sys2Proof.opcOf (Sys2Proof.encode i) ∈ Sys2Proof.Laws.Encoding.opcodes

namespace Sys2Proof.Laws

theorem Encoding.of_pack (imm : BitVec 8) (rc rb ra rd : Reg) {opc : BitVec 8} (h : opc ∈ Encoding.opcodes) :
    upperOf (pack imm rc rb ra rd opc) = 0#32 ∧ opcOf (pack imm rc rb ra rd opc) ∈ Encoding.opcodes := by
  simpa using h

theorem Encoding.nop : Encoding.Statement (.nop) :=
  Encoding.of_pack _ _ _ _ _ (by decide)

theorem Encoding.add (a b c : Reg) : Encoding.Statement (.add a b c) :=
  Encoding.of_pack _ _ _ _ _ (by decide)

theorem Encoding.sub (a b c : Reg) : Encoding.Statement (.sub a b c) :=
  Encoding.of_pack _ _ _ _ _ (by decide)

theorem Encoding.mul (p : Pair) (a b : Reg) : Encoding.Statement (.mul p a b) :=
  Encoding.of_pack _ _ _ _ _ (by decide)

theorem Encoding.sqr (p : Pair) (a : Reg) : Encoding.Statement (.sqr p a) :=
  Encoding.of_pack _ _ _ _ _ (by decide)

theorem Encoding.shl (a b : Reg) (n : BitVec 8) : Encoding.Statement (.shl a b n) :=
  Encoding.of_pack _ _ _ _ _ (by decide)

theorem Encoding.shr (a b : Reg) (n : BitVec 8) : Encoding.Statement (.shr a b n) :=
  Encoding.of_pack _ _ _ _ _ (by decide)

theorem Encoding.cmpct (a b : Reg) : Encoding.Statement (.cmpct a b) :=
  Encoding.of_pack _ _ _ _ _ (by decide)

theorem Encoding.cmpvt (a b : Reg) : Encoding.Statement (.cmpvt a b) :=
  Encoding.of_pack _ _ _ _ _ (by decide)

theorem Encoding.mov (a b : Reg) : Encoding.Statement (.mov a b) :=
  Encoding.of_pack _ _ _ _ _ (by decide)

theorem Encoding.ldc (a : Reg) (l : Sel) : Encoding.Statement (.ldc a l) :=
  Encoding.of_pack _ _ _ _ _ (by decide)

theorem Encoding.wipe : Encoding.Statement (.wipe) :=
  Encoding.of_pack _ _ _ _ _ (by decide)

theorem Encoding.modadd (a b c d : Reg) : Encoding.Statement (.modadd a b c d) :=
  Encoding.of_pack _ _ _ _ _ (by decide)

theorem Encoding.modsub (a b c d : Reg) : Encoding.Statement (.modsub a b c d) :=
  Encoding.of_pack _ _ _ _ _ (by decide)

theorem Encoding.mmod (a : Reg) (p : Pair) (b : Reg) : Encoding.Statement (.mmod a p b) :=
  Encoding.of_pack _ _ _ _ _ (by decide)

theorem Encoding.modinv (a b c : Reg) : Encoding.Statement (.modinv a b c) :=
  Encoding.of_pack _ _ _ _ _ (by decide)

theorem Encoding.fmul (a b c : Reg) : Encoding.Statement (.fmul a b c) :=
  Encoding.of_pack _ _ _ _ _ (by decide)

theorem Encoding.fsqr (a b : Reg) : Encoding.Statement (.fsqr a b) :=
  Encoding.of_pack _ _ _ _ _ (by decide)

theorem Encoding.fred (a : Reg) (p : Pair) : Encoding.Statement (.fred a p) :=
  Encoding.of_pack _ _ _ _ _ (by decide)

theorem Encoding.dblj (a b c : Reg) : Encoding.Statement (.dblj a b c) :=
  Encoding.of_pack _ _ _ _ _ (by decide)

theorem Encoding.xyczadd (a b c d : Reg) : Encoding.Statement (.xyczadd a b c d) :=
  Encoding.of_pack _ _ _ _ _ (by decide)

theorem Encoding.xyczaddc (a b c d : Reg) : Encoding.Statement (.xyczaddc a b c d) :=
  Encoding.of_pack _ _ _ _ _ (by decide)

theorem Encoding.padd (p q r : Pair) : Encoding.Statement (.padd p q r) :=
  Encoding.of_pack _ _ _ _ _ (by decide)

theorem Encoding.pmul (p q : Pair) (a : Reg) : Encoding.Statement (.pmul p q a) :=
  Encoding.of_pack _ _ _ _ _ (by decide)

end Sys2Proof.Laws
end

