-- ==== Sys2Proof/Laws/Point.lean ====
section
/-! SUPPORT. The point formulas: results that fit their registers, operands read back after they are written,
and the shared half of the two co-Z formulas. -/

namespace Sys2Proof.Machine

/-! ## In-place operands -/

theorem nodup3_iff (a b c : Reg) : [a, b, c].Nodup ↔ distinct3 a b c = true := by
  simp [distinct3]

theorem nodup4_iff (a b c d : Reg) : [a, b, c, d].Nodup ↔ distinct4 a b c d = true := by
  simp [distinct4, distinct3]
  grind

theorem getV_setJacobian_of_notMem (s : State) {a b c r : Reg} (q : Jacobian) (h : r ∉ [a, b, c]) :
    (s.setJacobian a b c q).getV r = s.getV r := by
  simp at h
  simp [State.setJacobian, getV_setVNat, h]

theorem getV_setCoZ_of_notMem (s : State) {a b c d r : Reg} (q : CoZPair) (h : r ∉ [a, b, c, d]) :
    (s.setCoZ a b c d q).getV r = s.getV r := by
  simp at h
  simp [State.setCoZ, getV_setVNat, h]

/-- A triple with 256-bit values reads back from the three registers it was written to. -/
theorem getJacobian_setJacobian (s : State) {a b c : Reg} (h : [a, b, c].Nodup) (q : Jacobian)
    (hx : q.x < 2 ^ 256) (hy : q.y < 2 ^ 256) (hz : q.z < 2 ^ 256) :
    (s.setJacobian a b c q).getJacobian a b c = q := by
  simp only [List.nodup_cons, List.mem_cons, List.not_mem_nil, or_false, not_or] at h
  simp only [State.setJacobian, State.getJacobian, getV_setVNat, if_neg h.1.1, if_neg h.1.2,
    if_neg h.2.1, if_true, BitVec.toNat_ofNat, Nat.mod_eq_of_lt hx, Nat.mod_eq_of_lt hy, Nat.mod_eq_of_lt hz]

/-- A co-Z pair with 256-bit values reads back from the four registers it was written to. -/
theorem getCoZ_setCoZ (s : State) {a b c d : Reg} (h : [a, b, c, d].Nodup) (q : CoZPair)
    (hx1 : q.p1.x < 2 ^ 256) (hy1 : q.p1.y < 2 ^ 256) (hx2 : q.p2.x < 2 ^ 256) (hy2 : q.p2.y < 2 ^ 256) :
    (s.setCoZ a b c d q).getCoZ a b c d = q := by
  simp only [List.nodup_cons, List.mem_cons, List.not_mem_nil, or_false, not_or] at h
  simp only [State.setCoZ, State.getCoZ, getV_setVNat, if_neg h.1.1, if_neg h.1.2.1, if_neg h.1.2.2,
    if_neg h.2.1.1, if_neg h.2.1.2, if_neg h.2.2.1, if_true, BitVec.toNat_ofNat, Nat.mod_eq_of_lt hx1,
    Nat.mod_eq_of_lt hy1, Nat.mod_eq_of_lt hx2, Nat.mod_eq_of_lt hy2]

/-! ## The formulas -/

theorem doubleJacobian_of_z_eq_zero (mode : Mode) (p : Nat) {q : Jacobian} (h : q.z = 0) :
    doubleJacobian mode p q = q := if_pos h

/-- The doubling's results fit their registers, for every input. -/
theorem doubleJacobian_lt (mode : Mode) {p : Nat} (hp : 0 < p) (hp' : p ≤ 2 ^ 256) {q : Jacobian}
    (h : q.z ≠ 0) : (doubleJacobian mode p q).x < 2 ^ 256 ∧ (doubleJacobian mode p q).y < 2 ^ 256 ∧
      (doubleJacobian mode p q).z < 2 ^ 256 := by
  unfold doubleJacobian
  rw [if_neg h]
  exact ⟨fsub_lt _ _ _, fsub_lt _ _ _, lt_of_lt_of_le (fmul_lt _ _ hp) hp'⟩

/-- The co-Z results fit their registers, for every input. -/
theorem coZAdd_lt {p : Nat} (hp : 0 < p) (hp' : p ≤ 2 ^ 256) (q : CoZPair) :
    (coZAdd p q).p1.x < 2 ^ 256 ∧ (coZAdd p q).p1.y < 2 ^ 256 ∧ (coZAdd p q).p2.x < 2 ^ 256 ∧
    (coZAdd p q).p2.y < 2 ^ 256 :=
  ⟨lt_of_lt_of_le (fmul_lt _ _ hp) hp', lt_of_lt_of_le (fmul_lt _ _ hp) hp', fsub_lt _ _ _, fsub_lt _ _ _⟩

theorem coZAddConjugate_lt (p : Nat) (q : CoZPair) :
    (coZAddConjugate p q).p1.x < 2 ^ 256 ∧ (coZAddConjugate p q).p1.y < 2 ^ 256 ∧
    (coZAddConjugate p q).p2.x < 2 ^ 256 ∧ (coZAddConjugate p q).p2.y < 2 ^ 256 :=
  ⟨fsub_lt _ _ _, fsub_lt _ _ _, fsub_lt _ _ _, fsub_lt _ _ _⟩

/-- Subtracting two canonical values one after the other, or their sum at once, is the same. -/
theorem fsub_fsub {p a b c : Nat} (hp : p ≤ 2 ^ 256) (ha : a < p) (hb : b < p) (hc : c < p) :
    fsub p (fsub p a b) c = fsub p a (fadd p b c) := by
  have hab := fsub_canonical_lt ha hb hp
  have hbc := fadd_canonical_lt hb hc hp
  refine eq_of_cast_eq (p := p) (fsub_canonical_lt hab hc hp) (fsub_canonical_lt ha hbc hp) ?_
  rw [cast_fsub hp (by omega) hc, cast_fsub hp (by omega) hb, cast_fsub hp (by omega) hbc,
    cast_fadd hp (by omega) hc]
  ring

/-- The two co-Z formulas agree on the sum. -/
theorem coZAddConjugate_p2 {p : Nat} (hp : 0 < p) (hp' : p ≤ 2 ^ 256) (q : CoZPair) :
    (coZAddConjugate p q).p2 = (coZAdd p q).p2 := by
  simp only [coZAddConjugate, coZAdd]
  rw [fsub_fsub hp' (fsqr_lt _ hp) (fmul_lt _ _ hp) (fmul_lt _ _ hp)]

/-! ## Scalar multiples -/

/-- A point whose `n`-th multiple is `O` has multiples that repeat with period `n`. -/
theorem smul_add_order (c : Curve) (q : AffinePoint) {n : Nat} (h : c.smul n q = infinity) (k : Nat) :
    c.smul (k + n) q = c.smul k q := by
  induction k with
  | zero => simpa [Curve.smul] using h
  | succ k ih => rw [show k + 1 + n = (k + n) + 1 by omega, Curve.smul, ih, Curve.smul]

theorem smul_one (c : Curve) (q : AffinePoint) : c.smul 1 q = q := by simp [Curve.smul, Curve.add]

end Sys2Proof.Machine
end

