-- ==== Sys2Proof/Laws/Step.lean ====
section
/-! SUPPORT. The step, turn by turn. -/

namespace Sys2Proof.Machine

/-- With turns to come, a step is the first of them on the state that has the rest. -/
theorem step_cons {s : State} {t : Turn} {rest : List Turn} (h : s.schedule = t :: rest) :
    step s = runTurn t { s with schedule := rest } := by
  simp only [step, nextMove, h]

/-- With no turns to come, a step is the engine's turn. -/
theorem step_nil {s : State} (h : s.schedule = []) : step s = engineTurn s := by
  simp only [step, nextMove, h]

/-- Where the engine moves next, the step is its turn on the state without that turn. -/
theorem step_engineMovesNext {s s' : State} (h : EngineMovesNext s s') : step s = engineTurn s' := by
  rcases h with ⟨hs, rfl⟩ | ⟨rest, hs, rfl⟩
  · exact step_nil hs
  · exact step_cons hs

/-- The state the engine works on is the state before, but for the schedule. -/
theorem eq_of_engineMovesNext {s s' : State} (h : EngineMovesNext s s') :
    s' = { s with schedule := s'.schedule } := by
  rcases h with ⟨-, rfl⟩ | ⟨rest, -, rfl⟩ <;> rfl

/-- The engine's turn: an idle core keeps its state; a busy one fails on a word that does not decode, and
otherwise runs the command. -/
theorem engineTurn_cases (s : State) :
    (s.status.busy = false ∧ engineTurn s = .next s) ∨
    (s.status.busy = true ∧
      ((∃ e, decode s.cmd = .error e ∧ engineTurn s = fail s e) ∨
       (∃ i, decode s.cmd = .ok i ∧ engineTurn s = exec i s))) := by
  unfold engineTurn
  cases hb : s.status.busy
  · exact .inl ⟨rfl, rfl⟩
  · refine .inr ⟨rfl, ?_⟩
    simp only [engineStep]
    cases hd : decode s.cmd with
    | error e => exact .inl ⟨e, rfl, rfl⟩
    | ok i => exact .inr ⟨i, rfl, rfl⟩

/-- After the engine's turn: nothing changed; or results that keep STATUS and the control registers, then the
success completion; or the error completion. -/
theorem engineTurn_next {s t : State} (h : engineTurn s = .next t) :
    (s.status.busy = false ∧ t = s) ∨
    (s.status.busy = true ∧
      ((∃ e, t = s.errorCompletion e) ∨
       (∃ i u, decode s.cmd = .ok i ∧ exec i s = .next t ∧ t = u.successCompletion ∧ u.status = s.status ∧
          ControlKept s u ∧ u.schedule = s.schedule ∧ u.response = s.response))) := by
  rcases engineTurn_cases s with ⟨hb, he⟩ | ⟨hb, ⟨e, -, he⟩ | ⟨i, hd, he⟩⟩
  · rw [he] at h; cases h; exact .inl ⟨hb, rfl⟩
  · rw [he] at h; cases h; exact .inr ⟨hb, .inl ⟨e, rfl⟩⟩
  · rw [he] at h
    have hx := h
    rcases exec_cases i s with ⟨u, hu, hs, hk, hsch, hr⟩ | ⟨e, -, hf⟩
    · rw [hu] at h; cases h; exact .inr ⟨hb, .inr ⟨i, u, hd, hx, rfl, hs, hk, hsch, hr⟩⟩
    · rw [hf] at h; cases h; exact .inr ⟨hb, .inl ⟨e, rfl⟩⟩

/-- The engine's turn always answers a next state. -/
theorem engineTurn_total (s : State) : ∃ t, engineTurn s = .next t := by
  rcases engineTurn_cases s with ⟨-, h⟩ | ⟨-, ⟨e, -, h⟩ | ⟨i, -, h⟩⟩
  · exact ⟨_, h⟩
  · exact ⟨_, h⟩
  · rw [h]; exact exec_next i s

/-- After the engine's turn the engine is idle. -/
theorem engineTurn_idle {s t : State} (h : engineTurn s = .next t) : t.status.busy = false := by
  rcases engineTurn_next h with ⟨hb, rfl⟩ | ⟨-, ⟨e, rfl⟩ | ⟨i, u, -, -, rfl, -⟩⟩
  · exact hb
  · rfl
  · rfl

end Sys2Proof.Machine
end

