-- ==== Sys2Proof/Machine/Assembly.lean ====
section
/-! DEFINITION. The assembler's spelling of the commands (30_encoding.md R126) and the pseudo-instructions (R127).
Syntax only: no step of the machine depends on this file. -/

namespace Sys2Proof.Machine

/-- `v0` to `v15` (R126). -/
def regName (r : Reg) : String := "v" ++ toString r.toNat

/-- A pair operand is written as its even register (R126). -/
def pairName (p : Pair) : String := "v" ++ toString (2 * p.toNat)

/-- The LDC selectors (R126). -/
def selName : Sel → String
  | .p => "P"
  | .n => "N"
  | .halfn => "HALFN"
  | .b => "B"
  | .gx => "GX"
  | .gy => "GY"

/-- The mnemonics of R116. -/
def mnemonic : Instr → String
  | .nop => "NOP"
  | .add _ _ _ => "ADD"
  | .sub _ _ _ => "SUB"
  | .mul _ _ _ => "MUL"
  | .sqr _ _ => "SQR"
  | .shl _ _ _ => "SHL"
  | .shr _ _ _ => "SHR"
  | .cmpct _ _ => "CMPCT"
  | .cmpvt _ _ => "CMPVT"
  | .mov _ _ => "MOV"
  | .ldc _ _ => "LDC"
  | .wipe => "WIPE"
  | .modadd _ _ _ _ => "MODADD"
  | .modsub _ _ _ _ => "MODSUB"
  | .mmod _ _ _ => "MMOD"
  | .modinv _ _ _ => "MODINV"
  | .fmul _ _ _ => "FMUL"
  | .fsqr _ _ => "FSQR"
  | .fred _ _ => "FRED"
  | .dblj _ _ _ => "DBLJ"
  | .xyczadd _ _ _ _ => "XYCZADD"
  | .xyczaddc _ _ _ _ => "XYCZADDC"
  | .padd _ _ _ => "PADD"
  | .pmul _ _ _ => "PMUL"

/-- The operands of a command, in the order of R126. -/
def operandNames : Instr → List String
  | .nop => []
  | .add rd ra rb => [regName rd, regName ra, regName rb]
  | .sub rd ra rb => [regName rd, regName ra, regName rb]
  | .mul rdp ra rb => [pairName rdp, regName ra, regName rb]
  | .sqr rdp ra => [pairName rdp, regName ra]
  | .shl rd ra s => [regName rd, regName ra, toString s.toNat]
  | .shr rd ra s => [regName rd, regName ra, toString s.toNat]
  | .cmpct ra rb => [regName ra, regName rb]
  | .cmpvt ra rb => [regName ra, regName rb]
  | .mov rd ra => [regName rd, regName ra]
  | .ldc rd sel => [regName rd, selName sel]
  | .wipe => []
  | .modadd rd ra rb rc => [regName rd, regName ra, regName rb, regName rc]
  | .modsub rd ra rb rc => [regName rd, regName ra, regName rb, regName rc]
  | .mmod rd rap rc => [regName rd, pairName rap, regName rc]
  | .modinv rd ra rc => [regName rd, regName ra, regName rc]
  | .fmul rd ra rb => [regName rd, regName ra, regName rb]
  | .fsqr rd ra => [regName rd, regName ra]
  | .fred rd rap => [regName rd, pairName rap]
  | .dblj rx ry rz => [regName rx, regName ry, regName rz]
  | .xyczadd rx1 ry1 rx2 ry2 => [regName rx1, regName ry1, regName rx2, regName ry2]
  | .xyczaddc rx1 ry1 rx2 ry2 => [regName rx1, regName ry1, regName rx2, regName ry2]
  | .padd rdp rap rbp => [pairName rdp, pairName rap, pairName rbp]
  | .pmul rdp rap rb => [pairName rdp, pairName rap, regName rb]

/-- Operands, separated by commas. -/
def joinOperands : List String → String
  | [] => ""
  | [a] => " " ++ a
  | a :: rest => " " ++ a ++ "," ++ joinOperands rest

/-- The line of a command (R126), in its canonical spelling. -/
def assembly (i : Instr) : String := mnemonic i ++ joinOperands (operandNames i)

/-- A pseudo-instruction (R127). -/
inductive Pseudo where
  /-- CMP ra, rb. -/
  | cmp (ra rb : Reg)
  /-- CLR rd. -/
  | clr (rd : Reg)
  /-- MODDBL rd, ra, rc. -/
  | moddbl (rd ra rc : Reg)
  /-- LDG rdp. -/
  | ldg (rdp : Pair)
  /-- FCOPY rd, ra. -/
  | fcopy (rd ra : Reg)
  deriving DecidableEq, Repr

/-- The commands a pseudo-instruction stands for, in the order the host offers them (R127). -/
def expandPseudo : Pseudo → List Instr
  | .cmp ra rb => [.cmpct ra rb]
  | .clr rd => [.sub rd rd rd]
  | .moddbl rd ra rc => [.modadd rd ra ra rc]
  | .ldg rdp => [.ldc (rdp ++ 0#1) .gx, .ldc (rdp ++ 1#1) .gy]
  | .fcopy rd ra => [.mov rd ra]

end Sys2Proof.Machine
end

