-- ==== Sys2Proof/Tests/Slice0.lean ====
section
/-! SUPPORT. Tests of single steps, with the results that spec/95_test_vectors.md gives, and for each statement with
hypotheses a witness that meets them. Every number of a test comes from the row named in its comment. -/

namespace Sys2Proof.Tests

open Sys2Proof Sys2Proof.Machine

-- one theorem after the other: each waiting theorem would hold a thread of its own
set_option Elab.async false

/-! ## Small states -/

/-- `s` with some operand registers written. -/
def load (s : State) (rs : List (Reg × Vli)) : State := rs.foldl (fun s r => s.setV r.1 r.2) s

/-- secp256k1's constants (95 section 0). -/
def p : Vli := 0xFFFFFFFFFFFFFFFFFFFFFFFFFFFFFFFFFFFFFFFFFFFFFFFFFFFFFFFEFFFFFC2F
def n : Vli := 0xFFFFFFFFFFFFFFFFFFFFFFFFFFFFFFFEBAAEDCE6AF48A03BBFD25E8CD0364141
def gx : Vli := 0x79BE667EF9DCBBAC55A06295CE870B07029BFCDB2DCE28D959F2815B16F81798
def gy : Vli := 0x483ADA7726A3C4655DA4FBFC0E1108A8FD17B448A68554199C47D08FFB10D4B8

/-- `2G` of secp256k1 (95 section 6.1). -/
def g2x : Vli := 0xC6047F9441ED7D6D3045406E95C07CD85C778E4B8CEF3CA7ABAC09B95C709EE5
def g2y : Vli := 0x1AE168FEA63DC339A3C58419466CEAEEF7F632653266D0E1236431A950CFE52A

/-- `3G` of secp256k1 (95 section 6.2). -/
def g3x : Vli := 0xF9308A019258C31049344F85F89D5229B531C845836F99B08601F113BCE036F9
def g3y : Vli := 0x388F7B0F632DE8140FE337E62A37F3566500A99934C2231B6CB9FD7584B8E672

/-- P-256's constants (95 section 0). -/
def p256 : Vli := 0xFFFFFFFF00000001000000000000000000000000FFFFFFFFFFFFFFFFFFFFFFFF
def p256gx : Vli := 0x6B17D1F2E12C4247F8BCE6E563A440F277037D812DEB33A0F4A13945D898C296
def p256gy : Vli := 0x4FE342E2FE1A7F9B8EE7EB4A7C0F9E162BCE33576B315ECECBB6406837BF51F5

/-- The reset state with the secp256k1 descriptor, MODE = 0. -/
def k1 : State := { State.reset with cp := p, cn := n, cb := 7, cgx := gx, cgy := gy }

/-- The reset state with the P-256 descriptor, MODE = 1. -/
def nist : State :=
  { State.reset with
    cp := p256
    cn := 0xFFFFFFFF00000000FFFFFFFFFFFFFFFFBCE6FAADA7179E84F3B9CAC2FC632551
    cb := 0x5AC635D8AA3A93E7B3EBBD55769886BC651D06B0CC53B0F63BCE3C3E27D2604B
    cgx := p256gx
    cgy := p256gy
    cfg := { mode := .generic, lock := false } }

/-- A small GENERIC curve, `y² = x³ - 3x + 1` over 7, whose group has order 5. -/
def tiny : State :=
  { State.reset with cp := 7, cn := 5, cb := 1, cgx := 0, cgy := 1, cfg := { mode := .generic, lock := false } }

/-- Operand registers, every flag and ITER set. -/
def full : State :=
  { load k1 [(0, 1), (15, 2)] with flags := ⟨true, true, true, true, true, true⟩, iter := 257 }

/-- The core with `w` accepted and the given turns to come. -/
def busy (s : State) (w : Limb) (turns : List Turn) : State := { s.acceptCommand w with schedule := turns }

/-- The secp256k1 state, locked. -/
def locked : State := { k1 with cfg := { mode := .fast, lock := true } }

/-- DONE pending, with its interrupt enabled. -/
def done : State :=
  { State.reset with status := ⟨false, true, false, false, 0⟩, ie := { doneIe := true, errIe := false } }

/-- A pending OPERAND error. -/
def failed (s : State) : State := { s with status := ⟨false, false, true, false, 4⟩ }

/-- The points (0, 1) and (4, 5) of the small curve, in V0 to V3. -/
def coZ : State := load tiny [(0, 0), (1, 1), (2, 4), (3, 5)]

/-- `s` with the given turns to come. -/
def turns (s : State) (ts : List Turn) : State := { s with schedule := ts }

/-- The state one step after `w` was accepted. -/
def after (s : State) (w : Limb) : Option State :=
  match step (s.withCommand w) with
  | .next t => some t
  | .fault _ => none
  | .refused _ => none

/-- STATUS and ERRCMD one step after `w` was accepted. -/
def outcome (s : State) (w : Limb) : Option (Limb × Limb) := (after s w).map fun t => (t.statusWord, t.errcmd)

/-! ## Well-formedness: each check refuses an ill-formed command -/

theorem test_wf_dblj : (Instr.dblj 0 1 2).wf = true ∧ (Instr.dblj 0 0 2).wf = false ∧
    (Instr.dblj 0 1 0).wf = false ∧ (Instr.dblj 0 1 1).wf = false := by decide

theorem test_wf_xyczadd : (Instr.xyczadd 0 1 2 3).wf = true ∧ (Instr.xyczadd 1 1 2 3).wf = false ∧
    (Instr.xyczadd 0 1 2 0).wf = false ∧ (Instr.xyczadd 0 1 2 2).wf = false := by decide

theorem test_wf_xyczaddc : (Instr.xyczaddc 0 1 2 3).wf = true ∧ (Instr.xyczaddc 0 1 0 3).wf = false ∧
    (Instr.xyczaddc 0 1 1 3).wf = false ∧ (Instr.xyczaddc 0 1 2 1).wf = false := by decide

/-! ## Decoding (95 sections 2.1 and 2.2): every constructor from a word written out in the spec -/

theorem test_decode_vli : decode 0x00000000 = .ok .nop ∧ decode 0x00021301 = .ok (.add 3 1 2) ∧
    decode 0x00021302 = .ok (.sub 3 1 2) ∧ decode 0x00032003 = .ok (.mul 0 2 3) ∧
    decode 0x00004004 = .ok (.sqr 0 4) ∧ decode 0x01001205 = .ok (.shl 2 1 1) ∧
    decode 0xFF001106 = .ok (.shr 1 1 255) ∧ decode 0x00021007 = .ok (.cmpct 1 2) ∧
    decode 0x00021008 = .ok (.cmpvt 1 2) ∧ decode 0x00002909 = .ok (.mov 9 2) ∧
    decode 0x0000180A = .ok (.ldc 8 .n) ∧ decode 0x0000000B = .ok .wipe := by decide

theorem test_decode_modular : decode 0x00721310 = .ok (.modadd 3 1 2 7) ∧
    decode 0x00721311 = .ok (.modsub 3 1 2 7) ∧ decode 0x00700212 = .ok (.mmod 2 0 7) ∧
    decode 0x00701313 = .ok (.modinv 3 1 7) ∧ decode 0x00CDEF10 = .ok (.modadd 15 14 13 12) := by decide

theorem test_decode_field : decode 0x00054020 = .ok (.fmul 0 4 5) ∧ decode 0x00002121 = .ok (.fsqr 1 2) ∧
    decode 0x00000322 = .ok (.fred 3 0) := by decide

/-- The pair fields 4, 0, 2 of PADD and 2, 0 of PMUL are the pairs 2, 0, 1 and 1, 0. -/
theorem test_decode_point : decode 0x00021030 = .ok (.dblj 0 1 2) ∧
    decode 0x00321031 = .ok (.xyczadd 0 1 2 3) ∧ decode 0x00321032 = .ok (.xyczaddc 0 1 2 3) ∧
    decode 0x00020433 = .ok (.padd 2 0 1) ∧ decode 0x00080234 = .ok (.pmul 1 0 8) := by decide

/-- LDC's selectors GX and GY, the pseudo-instructions CLR and MODDBL (95 section 2.1), and an odd-numbered
register in a shift. -/
theorem test_decode_more : decode 0x0000400A = .ok (.ldc 0 .gx) ∧ decode 0x0000510A = .ok (.ldc 1 .gy) ∧
    decode 0x00055502 = .ok (.sub 5 5 5) ∧ decode 0x00711310 = .ok (.modadd 3 1 1 7) ∧
    decode 0xFF00FF05 = .ok (.shl 15 15 255) := by decide

/-- X1 to X4. -/
theorem test_decode_illegal_opcode : decode 0x0C = .error .illegalOpcode ∧
    decode 0xFF = .error .illegalOpcode ∧ decode 0x35 = .error .illegalOpcode ∧
    decode 0x000000010000000C = .error .illegalOpcode := by decide

/-- X5 to X12. -/
theorem test_decode_illegal_field : decode 0x00032103 = .error .illegalField ∧
    decode 0x00121301 = .error .illegalField ∧ decode 0x01021301 = .error .illegalField ∧
    decode 0x0000000100021301 = .error .illegalField ∧ decode 0x0000600A = .error .illegalField ∧
    decode 0x00020030 = .error .illegalField ∧ decode 0x00321131 = .error .illegalField ∧
    decode 0x00080134 = .error .illegalField := by decide

/-- The table-word entry reads a row's word and nothing above its bits. -/
theorem test_decodeTableWord : decodeTableWord 32 0x00021301 = some (.add 3 1 2) ∧
    decodeTableWord 32 0x0C = none ∧ decodeTableWord 8 0xFF00 = some .nop := by decide

/-- Section 2.1's assembly column, and its pseudo-instructions with their words. -/
theorem test_assembly : assembly (.pmul 1 0 8) = "PMUL v2, v0, v8" ∧
    assembly (.shr 1 1 255) = "SHR v1, v1, 255" ∧ assembly (.ldc 8 .n) = "LDC v8, N" ∧ assembly .nop = "NOP" ∧
    (expandPseudo (.cmp 1 2)).map encode = [0x00021007] ∧ (expandPseudo (.clr 5)).map encode = [0x00055502] ∧
    (expandPseudo (.moddbl 3 1 7)).map encode = [0x00711310] ∧
    (expandPseudo (.ldg 0)).map encode = [0x0000400A, 0x0000510A] ∧
    (expandPseudo (.fcopy 9 2)).map encode = [0x00002909] := by decide +kernel

/-! ## Checks at the engine step (95 section 2.2) -/

/-- X12 and X13: ILLEGAL_FIELD outranks CURVE, and FMUL without a descriptor is CURVE. -/
theorem test_check_order : outcome State.reset 0x00080134 = some (0x204, 0x00080134) ∧
    outcome State.reset 0x00021020 = some (0x304, 0x00021020) := by decide +kernel

/-- X14 to X18: the descriptors CurveOK admits. -/
theorem test_curveOK : outcome { State.reset with cp := p + 2 } 0x00054020 = some (0x304, 0x00054020) ∧
    outcome { nist with cp := 2 ^ 255 } 0x00054020 = some (0x304, 0x00054020) ∧
    outcome { nist with cp := 1 } 0x00054020 = some (0x304, 0x00054020) ∧
    outcome { nist with cp := 3 } 0x00054020 = some (0x2, 0) ∧
    outcome { nist with cp := p } 0x00054020 = some (0x2, 0) := by decide +kernel

/-- X19, and X20 to X24: CurveOKn and the value checks. -/
theorem test_value_checks : outcome { k1 with cn := 0 } 0x00080234 = some (0x304, 0x00080234) ∧
    outcome { k1 with cn := 0 } 0x00054020 = some (0x2, 0) ∧
    outcome State.reset 0x00700212 = some (0x404, 0x00700212) ∧
    outcome (load State.reset [(7, 8)]) 0x00701313 = some (0x404, 0x00701313) ∧
    outcome (load State.reset [(7, 1)]) 0x00701313 = some (0x404, 0x00701313) ∧
    outcome State.reset 0x00701313 = some (0x404, 0x00701313) ∧
    outcome (load k1 [(8, n + 1)]) 0x00080234 = some (0x404, 0x00080234) := by decide +kernel

/-! ## VLI commands (95 section 3) -/

/-- L27. -/
theorem test_nop :
    (after State.reset 0x00000000).map
      (fun t => (t.statusWord, t.errcmd)) =
    some (0x2, 0) := by decide +kernel

/-- L1. -/
theorem test_add_wraps :
    (after (load State.reset [(1, -1), (2, 1)]) 0x00021301).map
      (fun t => (t.getV 3, t.flags.c)) =
    some (0, true) := by decide +kernel

/-- L3. -/
theorem test_add_in_place :
    (after (load State.reset [(1, -1), (2, -1)]) 0x00021101).map
      (fun t => (t.getV 1, t.flags.c)) =
    some (-2, true) := by decide +kernel

/-- L4. -/
theorem test_sub_borrows :
    (after (load State.reset [(2, 1)]) 0x00021302).map
      (fun t => (t.getV 3, t.flags.c)) =
    some (-1, true) := by decide +kernel

/-- L5, the CLR pseudo-instruction. -/
theorem test_sub_clears :
    (after (load State.reset [(5, 42)]) 0x00055502).map
      (fun t => (t.getV 5, t.flags.c)) =
    some (0, false) := by decide +kernel

/-- L7. -/
theorem test_mul_largest :
    (after (load State.reset [(2, -1), (3, -1)]) 0x00032003).map
      (fun t => (t.getV 0, t.getV 1)) =
    some (1, -2) := by decide +kernel

/-- L9. -/
theorem test_mul_over_its_operands :
    (after (load State.reset [(0, 3), (1, 5)]) 0x00010003).map
      (fun t => (t.getV 0, t.getV 1)) =
    some (15, 0) := by decide +kernel

/-- L11. -/
theorem test_sqr_crosses_the_halves :
    (after (load State.reset [(4, 2 ^ 128)]) 0x00004004).map
      (fun t => (t.getV 0, t.getV 1)) =
    some (0, 1) := by decide +kernel

/-- L13. -/
theorem test_shl_drops_the_top_bit :
    (after (load State.reset [(1, 2 ^ 255 + 1)]) 0x01001205).map
      (fun t => t.getV 2) =
    some 2 := by decide +kernel

/-- L14. -/
theorem test_shl_largest :
    (after (load State.reset [(1, 1)]) 0xFF001205).map
      (fun t => t.getV 2) =
    some (2 ^ 255) := by decide +kernel

/-- L16. -/
theorem test_shr_largest :
    (after (load State.reset [(1, 2 ^ 255)]) 0xFF001106).map
      (fun t => t.getV 1) =
    some 1 := by decide +kernel

/-- L17. -/
theorem test_shr_drops :
    (after (load State.reset [(1, 2 ^ 255 - 1)]) 0xFF001106).map
      (fun t => t.getV 1) =
    some 0 := by decide +kernel

/-- L18. -/
theorem test_cmpct_less :
    (after (load State.reset [(1, 5), (2, 7)]) 0x00021007).map
      (fun t => t.flagsWord) =
    some 0x2 := by decide +kernel

/-- L20. -/
theorem test_cmpct_unsigned :
    (after (load State.reset [(1, -1), (2, 2 ^ 255)]) 0x00021007).map
      (fun t => t.flagsWord) =
    some 0x8 := by decide +kernel

/-- L21. -/
theorem test_cmpvt_greater :
    (after (load State.reset [(1, 7), (2, 5)]) 0x00021008).map
      (fun t => t.flagsWord) =
    some 0x8 := by decide +kernel

/-- L22. -/
theorem test_mov :
    (after (load State.reset [(2, 42)]) 0x00002909).map
      (fun t => t.getV 9) =
    some 42 := by decide +kernel

/-- L24. -/
theorem test_ldc_halfn :
    (after k1 0x0000280A).map
      (fun t => t.getV 8) =
    some 0x7FFFFFFFFFFFFFFFFFFFFFFFFFFFFFFF5D576E7357A4501DDFE92F46681B20A0 := by decide +kernel

/-- L25. -/
theorem test_ldc_after_reset :
    (after State.reset 0x0000080A).map
      (fun t => t.getV 8) =
    some 0 := by decide +kernel

/-- L26. -/
theorem test_wipe :
    (after full 0x0000000B).map
      (fun t => (t.getV 0, t.getV 15, t.flagsWord, t.iter, t.cp)) =
    some (0, 0, 0, 257, p) := by decide +kernel

/-! ## Modular commands (95 section 4) -/

/-- M4. -/
theorem test_modadd_corrects_once :
    (after (load State.reset [(1, -1), (2, -1), (7, 7)]) 0x00721310).map
      (fun t => t.getV 3) =
    some (-9) := by decide +kernel

/-- M5. -/
theorem test_modadd_modulus_zero :
    (after (load State.reset [(1, -1), (2, 2)]) 0x00721310).map
      (fun t => t.getV 3) =
    some 1 := by decide +kernel

/-- M6. -/
theorem test_modsub_borrows :
    (after (load State.reset [(2, 1), (7, p)]) 0x00721311).map
      (fun t => t.getV 3) =
    some (p - 1) := by decide +kernel

/-- M8. -/
theorem test_modsub_out_of_range :
    (after (load State.reset [(2, -1), (7, 7)]) 0x00721311).map
      (fun t => t.getV 3) =
    some 8 := by decide +kernel

/-- Q1. -/
theorem test_mmod_full_width :
    (after (load State.reset [(0, -1), (1, -1), (7, p)]) 0x00700212).map
      (fun t => t.getV 2) =
    some 0x1000007A2000E90A0 := by decide +kernel

/-- Q5. -/
theorem test_mmod_small_modulus :
    (after (load State.reset [(1, 1), (7, 3)]) 0x00700212).map
      (fun t => t.getV 2) =
    some 1 := by decide +kernel

/-- Q8. -/
theorem test_modinv_full_width :
    (after (load State.reset [(1, gx), (7, p)]) 0x00701313).map
      (fun t => (t.getV 3, t.flags.ni)) =
    some (0x237AFDF1D2938D86870AAEB8AD77626A67B8E794ABFB076BE61D003687CA9EF6, false) := by decide +kernel

/-- Q13. -/
theorem test_modinv_none :
    (after (load State.reset [(1, 10), (3, 4), (7, 15)]) 0x00701313).map
      (fun t => (t.getV 3, t.flags.ni)) =
    some (0, true) := by decide +kernel

/-! ## Field commands (95 section 5) -/

/-- F2. -/
theorem test_fmul_fast :
    (after (load k1 [(4, gx), (5, gy)]) 0x00054020).map
      (fun t => t.getV 0) =
    some 0xFD3DC529C6EB60FB9D166034CF3C1A5A72324AA9DFD3428A56D7E1CE0179FD9B := by decide +kernel

/-- F10. -/
theorem test_fmul_generic :
    (after (load nist [(4, 2 ^ 255), (5, 4)]) 0x00054020).map
      (fun t => t.getV 0) =
    some 0x00000001FFFFFFFDFFFFFFFFFFFFFFFFFFFFFFFE000000000000000000000002 := by decide +kernel

/-- F3. -/
theorem test_fsqr :
    (after (load k1 [(2, gx)]) 0x00002121).map
      (fun t => t.getV 1) =
    some 0x8550E7D238FCF3086BA9ADCF0FB52A9DE3652194D06CB5BB38D50229B854FC49 := by decide +kernel

/-- F5. -/
theorem test_fred_fast :
    (after (load k1 [(0, -1), (1, -1)]) 0x00000322).map
      (fun t => t.getV 3) =
    some 0x1000007A2000E90A0 := by decide +kernel

/-- F11. -/
theorem test_fred_generic :
    (after (load nist [(0, -1), (1, -1)]) 0x00000322).map
      (fun t => t.getV 3) =
    some 0x00000004FFFFFFFDFFFFFFFFFFFFFFFEFFFFFFFBFFFFFFFF0000000000000002 := by decide +kernel

/-! ## Point commands (95 section 6) -/

/-- D1. -/
theorem test_dblj_fast :
    (after (load k1 [(0, gx), (1, gy), (2, 1)]) 0x00021030).map
      (fun t => (t.getV 0, t.getV 1, t.getV 2)) =
    some (0x9F454B0107AA38770864610F47EA76D56DA3E23FBDA578B1E4750110ACD96A08,
        0x6AD22B093EA5991EEDEBFAFC97EC1B694877EC67C362707F0BFD122C37F5B80D, gy) := by decide +kernel

/-- D6. -/
theorem test_dblj_generic :
    (after (load nist [(0, 0xAC5F47CC84B1091EE2F39B958E9103C9DC0DF603B7ACCE83D284E51762630A59), (1,
        0x7F1A1719F0D3FCDA773F5A53E07CF0B15E719AB9598AF6765DB20341BDFA8FAA), (2, 2)]) 0x00021030).map
      (fun t => (t.getV 0, t.getV 1, t.getV 2)) =
    some (0xA5E3D691346D6B2FC39F54B73F3790E012D089ADD87773C79F6120E475B1C3E6,
        0x4D10BD80F0D5F188670471CA68DABFCEFF88C68ECD17A1FAB37C6321A5EBA282,
        0xFE342E33E1A7F9B4EE7EB4A7C0F9E162BCE33572B315ECECBB6406837BF51F54) := by decide +kernel

/-- Z1. -/
theorem test_xyczadd :
    (after (load k1 [(0, 0x72F065439BFB11453409C71AF2E5920F5AF2C2EF3C51F044B481D9CD5A73F0A8), (1,
        0xB3F3B2BFAADA891A60CCA114AC98C39D6EDE11E439EE42EA773D88A81CB21C86), (2,
        0x9F454B0107AA38770864610F47EA76D56DA3E23FBDA578B1E4750110ACD96A08), (3,
        0x6AD22B093EA5991EEDEBFAFC97EC1B694877EC67C362707F0BFD122C37F5B80D)]) 0x00321031).map
      (fun t => (t.getV 0, t.getV 1, t.getV 2, t.getV 3)) =
    some (0xACDDA06DD9D2E65B0E46374A69F1213E93D080B8D0A3D9794C9BA0FF1C280256,
        0xEC1075CC4044AF590671B39880A7D05DE5FCB73055903364BE80B2C5E95D044E,
        0x2032A43BE6C1B5FAD475943A45178C20F2F637E1D645A21880DBE5E8B63C21E7,
        0xBBA1AD7F3B00BDC6AAE827FC54C6EB0595D3F5B7C3FB5940C1652249300B2C1D) := by decide +kernel

/-- Section 6.2, degenerate inputs. -/
theorem test_xyczadd_equal_x :
    (after (load k1 [(0, 5), (1, 11), (2, 5), (3, 20)]) 0x00321031).map
      (fun t => (t.getV 0, t.getV 1, t.getV 2, t.getV 3)) =
    some (0, 0, 81, p - 729) := by decide +kernel

/-- Z2. -/
theorem test_xyczaddc :
    (after (load k1 [(0, 0x72F065439BFB11453409C71AF2E5920F5AF2C2EF3C51F044B481D9CD5A73F0A8), (1,
        0xB3F3B2BFAADA891A60CCA114AC98C39D6EDE11E439EE42EA773D88A81CB21C86), (2,
        0x9F454B0107AA38770864610F47EA76D56DA3E23FBDA578B1E4750110ACD96A08), (3,
        0x6AD22B093EA5991EEDEBFAFC97EC1B694877EC67C362707F0BFD122C37F5B80D)]) 0x00321032).map
      (fun t => (t.getV 0, t.getV 1, t.getV 2, t.getV 3)) =
    some (0xACDDA06DD9D2E65B0E46374A69F1213E93D080B8D0A3D9794C9BA0FF1C280256,
        0x13EF8A33BFBB50A6F98E4C677F582FA21A0348CFAA6FCC9B417F4D3916A2F7E1,
        0x2032A43BE6C1B5FAD475943A45178C20F2F637E1D645A21880DBE5E8B63C21E7,
        0xBBA1AD7F3B00BDC6AAE827FC54C6EB0595D3F5B7C3FB5940C1652249300B2C1D) := by decide +kernel

/-- Section 6.2, degenerate inputs. -/
theorem test_xyczaddc_equal_x :
    (after (load k1 [(0, 5), (1, 11), (2, 5), (3, 20)]) 0x00321032).map
      (fun t => (t.getV 0, t.getV 1, t.getV 2, t.getV 3)) =
    some (961, 29791, 81, p - 729) := by decide +kernel

/-- A1. -/
theorem test_padd_doubles :
    (after (load k1 [(0, gx), (1, gy), (2, gx), (3, gy)]) 0x00020433).map
      (fun t => (t.getV 4, t.getV 5, t.flags.inf)) =
    some (g2x, g2y, false) := by decide +kernel

/-- A4. -/
theorem test_padd_opposite :
    (after (load k1 [(0, gx), (1, gy), (2, gx), (3,
        0xB7C52588D95C3B9AA25B0403F1EEF75702E84BB7597AABE663B82F6F04EF2777)]) 0x00020433).map
      (fun t => (t.getV 4, t.getV 5, t.flags.inf)) =
    some (0, 0, true) := by decide +kernel

/-- K9, with CN = 5 in place of the full order, so that the multiple is evaluated as R222 defines it. -/
theorem test_pmul_of_infinity :
    (after (load { k1 with cn := 5 } [(8, 5)]) 0x00080234).map
      (fun t => (t.getV 2, t.getV 3, t.flags.inf, t.iter)) =
    some (0, 0, true, 4) := by decide +kernel

/-- CN = 1: the scalar 1 is regularized to 2 (R240), and `[2]G` is A1. -/
theorem test_pmul_small_order :
    (after (load { k1 with cn := 1 } [(0, gx), (1, gy), (8, 1)]) 0x00080234).map
      (fun t => (t.getV 2, t.getV 3, t.flags.inf, t.iter)) =
    some (g2x, g2y, false, 2) := by decide +kernel

/-! ## The window (95 section 7.3) -/

/-- B1 to B5: a narrow, a misaligned, a reserved and a BUSY read. -/
theorem test_reads_refused : k1.busRead 0x000 0x0F = (0, .slverr) ∧ k1.busRead 0x004 0xFF = (0, .slverr) ∧
    k1.busRead 0x040 0xFF = (0, .slverr) ∧ k1.busRead 0x400 0xFF = (0, .slverr) ∧
    (busy k1 0 []).busRead 0x200 0xFF = (0, .slverr) := by decide +kernel

/-- B6, B7, B9, B10: writes of a BUSY core to CFG and CMD, and of a locked one to CP and CFG. -/
theorem test_writes_refused : (busy k1 0 []).busWrite 0x008 0xFF 1 = (busy k1 0 [], .slverr) ∧
    ((busy k1 0 []).busWrite 0x010 0xFF 0x0B).1.statusWord = 0x9 ∧
    ((busy k1 0 []).busWrite 0x010 0xFF 0x0B).1.cmd = 0 ∧
    locked.busWrite 0x100 0xFF 1 = (locked, .slverr) ∧ locked.busWrite 0x008 0xFF 1 = (locked, .okay) := by
  decide +kernel

/-- B11: MODE and LOCK in one write. -/
theorem test_write_cfg : (State.reset.busWrite 0x008 0xFF 3).1.cfgWord = 3 ∧
    (State.reset.busWrite 0x008 0xFF 3).2 = .okay := by decide +kernel

/-- B13: the acknowledge of an error keeps CMDDROP. -/
theorem test_acknowledge :
    ({ k1 with status := ⟨false, false, true, true, 3⟩ } : State).statusWord = 0x30C ∧
    (({ k1 with status := ⟨false, false, true, true, 3⟩ } : State).busWrite 0x018 0xFF 4).1.statusWord = 8 := by
  decide +kernel

/-- B14: `irq` is high with DONE and DONE_IE, and low once DONE is acknowledged. -/
theorem test_irq : done.statusWord = 2 ∧ done.ieWord = 1 ∧ done.irq = true ∧
    (done.busWrite 0x018 0xFF 2).1.irq = false := by decide +kernel

/-- B15: V8 from its limbs; and the limbs of CP (section 7.4's order, least significant first). -/
theorem test_limbs :
    ((full.busWrite 0x300 0xFF 3).1.busWrite 0x308 0xFF 0).1.getV 8 = 3 ∧
    k1.busRead 0x100 0xFF = (0xFFFFFFFEFFFFFC2F, .okay) ∧ k1.busRead 0x118 0xFF = (-1, .okay) ∧
    k1.busRead 0x1A0 0xFF = (0xDFE92F46681B20A0, .okay) := by decide +kernel

/-- ID, and CFG with both bit lengths 256. -/
theorem test_id_and_cfg : State.reset.busRead 0x000 0xFF = (0x0010040145434331, .okay) ∧
    k1.busRead 0x008 0xFF = (0x0000010001000000, .okay) := by decide +kernel

/-- A placed word runs at the next step. -/
theorem test_withFetchWord : (k1.withFetchWord 32 0x00021301).cmd = 0x00021301 ∧
    (k1.withFetchWord 32 0x00021301).status.busy = true ∧
    outcome (k1.withFetchWord 32 0x0B) 0x00021301 = some (2, 0) := by decide +kernel

/-! ## Methods (95 sections 4, 5 and 6.5) -/

/-- Q1 by the align-and-subtract method, F5 by the two-fold method. -/
theorem test_reducers : mmodMethod (2 ^ 512 - 1) p.toNat = 0x1000007A2000E90A0 ∧
    fastReduce (2 ^ 512 - 1) = 0x1000007A2000E90A0 := by decide +kernel

/-- The ladder on the two bits of 3 gives section 6.2's `3G`. -/
theorem test_ladder : ladder .fast p.toNat ⟨gx.toNat, gy.toNat⟩ 3 2 = (⟨g3x.toNat, g3y.toNat⟩, 2) := by
  decide +kernel

/-- Section 6.3: the regularized scalars of 0, 1, `2^256 - n - 1`, `2^256 - n` and `n`. -/
theorem test_regularize :
    regularize 0 n.toNat = 0x1FFFFFFFFFFFFFFFFFFFFFFFFFFFFFFFD755DB9CD5E9140777FA4BD19A06C8282 ∧
    regularize 1 n.toNat = 0x1FFFFFFFFFFFFFFFFFFFFFFFFFFFFFFFD755DB9CD5E9140777FA4BD19A06C8283 ∧
    regularize (2 ^ 256 - n.toNat - 1) n.toNat =
      0x1FFFFFFFFFFFFFFFFFFFFFFFFFFFFFFFEBAAEDCE6AF48A03BBFD25E8CD0364140 ∧
    regularize (2 ^ 256 - n.toNat) n.toNat = 2 ^ 256 ∧
    regularize n.toNat n.toNat = 0x1FFFFFFFFFFFFFFFFFFFFFFFFFFFFFFFD755DB9CD5E9140777FA4BD19A06C8282 := by
  decide +kernel

/-! ## Witnesses: the hypotheses of each statement are met -/

/-- The engine moves next in a BUSY state with no turns to come, and in one whose first turn is the engine's. -/
theorem busy_engineMovesNext (s : State) (w : Limb) (rest : List Turn) :
    EngineMovesNext (busy s w []) (busy s w []) ∧
    EngineMovesNext (busy s w (.engine :: rest)) (busy s w rest) := ⟨.inl ⟨rfl, rfl⟩, .inr ⟨rest, rfl, rfl⟩⟩

theorem witness_DecodeInvertsEncode : (Instr.dblj 0 1 2).wf = true ∧ (Instr.xyczaddc 15 14 13 12).wf = true ∧
    (Instr.shl 15 15 255).wf = true := by decide

theorem witness_EncodeInvertsDecode : decode 0 = .ok .nop ∧ decode 0xFF00FF05 = .ok (.shl 15 15 255) ∧
    decode 0x0002CE34 = .ok (.pmul 7 6 2) := by decide

theorem witness_ReservedOpcodesAreIllegal :
    [0x0C, 0x0F, 0x14, 0x1F, 0x23, 0x2F, 0x35, 0xFF].all (fun w => decide (decode w = .error .illegalOpcode)) ∧
    [0x00, 0x0B, 0x10, 0x13, 0x20, 0x22, 0x30, 0x34].all (fun w => decide (decode w ≠ .error .illegalOpcode)) ∧
    EngineMovesNext (busy k1 0x0C []) (busy k1 0x0C []) ∧ (busy k1 0x0C []).status.busy = true ∧
    decode (busy k1 0x0C []).cmd = .error .illegalOpcode ∧
    EngineMovesNext (busy k1 0x0C [.engine, .reset true]) (busy k1 0x0C [.reset true]) ∧
    (busy k1 0x0C [.engine, .reset true]).status.busy = true ∧
    decode (busy k1 0x0C [.engine, .reset true]).cmd = .error .illegalOpcode :=
  ⟨by decide, by decide, (busy_engineMovesNext _ _ []).1, rfl, by decide, (busy_engineMovesNext _ _ _).2, rfl,
    by decide⟩

theorem witness_WordsDecodeByTheTable : (∃ r ∈ tableRows, opcOf 0x600A = r.pattern.setWidth 8) ∧
    (∀ i, decode 0x600A ≠ .ok i) ∧ (∃ r ∈ tableRows, opcOf 0x0000000100021301 = r.pattern.setWidth 8) ∧
    ∀ i, decode 0x0000000100021301 ≠ .ok i := by
  refine ⟨by decide, fun i => ?_, by decide, fun i => ?_⟩
  · rw [show decode 0x600A = .error .illegalField by decide]
    exact nofun
  · rw [show decode 0x0000000100021301 = .error .illegalField by decide]
    exact nofun

theorem witness_StepRunsTheDecodedCommand : (busy k1 0x0B []).status.busy = true ∧
    decode (busy k1 0x0B []).cmd = .ok .wipe ∧ (busy k1 0x0B []).schedule = [] ∧
    (busy k1 0x0B [.engine, .engine]).schedule = .engine :: [.engine] := by decide +kernel

theorem witness_StepFailsAnUndecodableCommand :
    (EngineMovesNext (busy k1 0x0C []) (busy k1 0x0C []) ∧ (busy k1 0x0C []).status.busy = true ∧
      decode (busy k1 0x0C []).cmd = .error .illegalOpcode) ∧
    (EngineMovesNext (busy k1 0x600A [.engine, .engine]) (busy k1 0x600A [.engine]) ∧
      (busy k1 0x600A [.engine, .engine]).status.busy = true ∧
      decode (busy k1 0x600A [.engine, .engine]).cmd = .error .illegalField) :=
  ⟨⟨(busy_engineMovesNext _ _ []).1, rfl, by decide⟩, (busy_engineMovesNext _ _ _).2, rfl, by decide⟩

theorem witness_StepTakesTheFirstTurn : State.reset.schedule = [] ∧ State.reset.status.busy = false ∧
    (turns k1 [.engine]).schedule = .engine :: [] ∧ (turns k1 [.engine]).status.busy = false ∧
    (turns k1 [.host (.read 0 0xFF), .engine]).schedule = .host (.read 0 0xFF) :: [.engine] ∧
    (turns k1 [.host (.write 0x028 0xFF 3)]).schedule = .host (.write 0x028 0xFF 3) :: [] ∧
    turns k1 [] = { turns k1 [.host (.write 0x028 0xFF 3)] with schedule := [] } ∧
    ((turns k1 []).busWrite 0x028 0xFF 3).2 = .okay ∧
    (turns k1 [.reset true]).schedule = .reset true :: [] := by decide +kernel

theorem witness_OfferedCommandRuns :
    (turns k1 [.host (.write 0x010 0xFF 0x0B), .engine]).status.busy = false ∧
    (turns k1 [.host (.write 0x010 0xFF 0x0B), .engine]).status.errv = false ∧
    (turns k1 [.host (.write 0x010 0xFF 0x0B), .engine]).schedule =
      .host (.write 0x010 0xFF 0x0B) :: .engine :: [] ∧
    decode 0x0B = .ok .wipe ∧ decode 0x0C = .error .illegalOpcode := by decide +kernel

/-- A schedule with a reset, for the first clause; and one with host turns and an engine turn, for the second. -/
theorem witness_BusyEngineCompletes : (busy k1 0x0B [.reset true]).status.busy = true ∧
    (busy k1 0x0B [.host (.write 0x018 0xFF 0xE), .engine]).status.busy = true ∧
    ∀ cut, Turn.reset cut ∉ (busy k1 0x0B [.host (.write 0x018 0xFF 0xE), .engine]).schedule := by decide

/-- One BUSY state for each clause. -/
theorem witness_ChecksDecideTheCompletion :
    ¬OpcodeLegal (busy k1 0x0C []).cmd ∧
    (OpcodeLegal (busy k1 0x100B []).cmd ∧ ¬FieldsLegal (busy k1 0x100B []).cmd) ∧
    (OpcodeLegal (busy State.reset 0x00021020 []).cmd ∧ FieldsLegal (busy State.reset 0x00021020 []).cmd ∧
      ¬CurveLegal (busy State.reset 0x00021020 []) (busy State.reset 0x00021020 []).cmd) ∧
    (OpcodeLegal (busy k1 0x00080234 []).cmd ∧ FieldsLegal (busy k1 0x00080234 []).cmd ∧
      CurveLegal (busy k1 0x00080234 []) (busy k1 0x00080234 []).cmd ∧
      ValuesLegal (busy k1 0x00080234 []) (busy k1 0x00080234 []).cmd) ∧
    (OpcodeLegal (busy k1 0x00700212 []).cmd ∧ FieldsLegal (busy k1 0x00700212 []).cmd ∧
      CurveLegal (busy k1 0x00700212 []) (busy k1 0x00700212 []).cmd ∧
      ¬ValuesLegal (busy k1 0x00700212 []) (busy k1 0x00700212 []).cmd) ∧
    (busy k1 0x00700212 []).status.busy = true ∧
    EngineMovesNext (busy k1 0x00700212 []) (busy k1 0x00700212 []) ∧
    EngineMovesNext (busy k1 0x00700212 [.engine]) (busy k1 0x00700212 []) := by
  simp only [OpcodeLegal, FieldsLegal, RegisterFieldsLegal, CurveLegal, ValuesLegal]
  refine ⟨?_, ⟨?_, ?_⟩, ⟨?_, ?_, ?_⟩, ⟨?_, ?_, ?_, ?_⟩, ⟨?_, ?_, ?_, ?_⟩, rfl,
    busy_engineMovesNext _ _ []⟩ <;> decide +kernel

/-- The boundary values of the value check. -/
theorem witness_ChecksDecideTheCompletion_values :
    ValuesLegal (load k1 [(7, 1)]) 0x00700212 ∧ ValuesLegal (load k1 [(7, 3)]) 0x00701313 ∧
    ¬ValuesLegal (load k1 [(7, 1)]) 0x00701313 ∧ ¬ValuesLegal (load k1 [(7, 2)]) 0x00701313 ∧
    ValuesLegal (load k1 [(8, n)]) 0x00080234 ∧ ¬ValuesLegal (load k1 [(8, n + 1)]) 0x00080234 := by
  simp only [ValuesLegal]
  refine ⟨?_, ?_, ?_, ?_, ?_, ?_⟩ <;> decide +kernel

theorem witness_NoCommandWritesTheDescriptor : ∃ t, exec (.fmul 0 1 2) k1 = .next t := exec_next _ _

theorem witness_FlagsHaveTheirWritersOnly : (∃ t, exec (.mmod 0 0 7) k1 = .next t ∧ ¬Done k1 t) ∧
    writesC (.mmod 0 0 7) = false ∧ writesOrder (.mmod 0 0 7) = false ∧ writesNi (.mmod 0 0 7) = false ∧
    writesInf (.mmod 0 0 7) = false := by
  have h : exec (.mmod 0 0 7) k1 = fail k1 .operand := by
    have h0 : (k1.getV 7).toNat = 0 := by decide +kernel
    simp only [exec, execMmod]
    exact if_neg (not_not.mpr h0)
  refine ⟨⟨_, h, ?_⟩, by decide⟩
  unfold Done
  decide +kernel

theorem witness_OnlyPmulWritesIter : ∃ t, exec (.pmul 1 0 8) tiny = .next t ∧ t.iter ≠ tiny.iter := by
  have h1 : tiny.curveOKn = true := by decide +kernel
  have h2 : (tiny.getV 8).toNat ≤ tiny.cn.toNat := by decide +kernel
  have h3 : BitVec.ofNat 64 (tiny.nbitsN + 1) ≠ 0 := by decide +kernel
  simp only [exec, execPmul, h1, h2, if_true, succeed]
  exact ⟨_, rfl, h3⟩

theorem witness_OnlyPointCommandsDraw :
    (∃ t, exec (.padd 2 0 1) (load k1 [(0, 1), (1, 1)]) = .next t) ∧
    takesDraw (.padd 2 0 1) (load k1 [(0, 1), (1, 1)]) = true ∧
    takesDraw (.pmul 2 0 8) (load k1 [(0, 1), (1, 1)]) = true ∧ takesDraw (.padd 2 0 1) k1 = false ∧
    takesDraw (.padd 2 0 1) State.reset = false ∧
    takesDraw (.pmul 2 0 8) (load k1 [(0, 1), (1, 1), (8, -1)]) = false := by
  refine ⟨?_, by decide +kernel, by decide +kernel, by decide +kernel, by decide +kernel, by decide +kernel⟩
  exact exec_next _ _

theorem witness_IntegerCommandsIgnoreTheDescriptor :
    descriptorFree (.add 1 2 3) = true ∧ (∃ t, exec (.add 1 2 3) k1 = .next t) ∧
    descriptorFree (.modinv 1 2 3) = true ∧ ∃ t, exec (.modinv 1 2 3) k1 = .next t :=
  ⟨rfl, exec_next _ _, rfl, exec_next _ _⟩

theorem witness_MulAndSqrWriteTheExactProduct : opcOf 0x00032103 = 0x03#8 ∧ (rdOf 0x00032103).getLsbD 0 = true ∧
    opcOf 0x00004F04 = 0x04#8 ∧ (rdOf 0x00004F04).getLsbD 0 = true := by decide

theorem witness_ComparesSetOneOrderFlag : opcOf 0x00021107 = 0x07#8 ∧ rdOf 0x00021107 ≠ 0 ∧
    opcOf 0x00021F08 = 0x08#8 ∧ rdOf 0x00021F08 ≠ 0 := by decide

theorem witness_MovAndLdcCopy : opcOf 0x0000600A = 0x0A#8 ∧ 5 < (raOf 0x0000600A).toNat ∧
    opcOf 0x0000F00A = 0x0A#8 ∧ 5 < (raOf 0x0000F00A).toNat ∧ ¬5 < (raOf 0x0000500A).toNat := by decide

/-- The sum of V1 and V2 in a state that also has `m` in V7. -/
def sum (a b m : Vli) : Nat :=
  ((load State.reset [(1, a), (2, b), (7, m)]).getV 1).toNat +
    ((load State.reset [(1, a), (2, b), (7, m)]).getV 2).toNat

/-- Operands at and beside the modulus for each clause of both corrections: `a + b` is 6, 7 and `2^256`, and `b`
is `a` and `a + 1`. -/
theorem witness_ModaddAndModsubCorrectOnce :
    (sum 3 3 7 = 6 ∧ 6 < 7 ∧ 3 < 7) ∧ (sum 3 4 7 = 7 ∧ 7 ≤ 7 ∧ 4 < 7) ∧
    (sum (-1) 1 0 = 2 ^ 256 ∧ 0 ≤ 2 ^ 256) ∧ (4 ≤ 4 ∧ 4 < 7) ∧ (3 < 4 ∧ 3 < 7) := by decide +kernel

theorem witness_ModaddUndoesModsub : (3 : Reg) ≠ 2 ∧ (3 : Reg) ≠ 7 ∧
    ((load State.reset [(1, 1), (2, 6), (7, 7)]).getV 1).toNat <
      ((load State.reset [(1, 1), (2, 6), (7, 7)]).getV 7).toNat ∧
    ((load State.reset [(1, 1), (2, 6), (7, 7)]).getV 2).toNat <
      ((load State.reset [(1, 1), (2, 6), (7, 7)]).getV 7).toNat := by decide +kernel

theorem witness_MmodWritesTheRemainder : ((load State.reset [(7, 1)]).getV 7).toNat ≠ 0 ∧
    (State.reset.getV 7).toNat = 0 ∧ opcOf 0x00701212 = 0x12#8 ∧ (raOf 0x00701212).getLsbD 0 = true := by
  decide +kernel

/-- A modulus for each clause: 3 with a coprime and with a zero operand; and 0, 1 and 2, which are OPERAND. -/
theorem witness_ModinvWritesTheInverse :
    (((load State.reset [(1, 2), (7, 3)]).getV 7).toNat % 2 = 1 ∧
      ((load State.reset [(1, 2), (7, 3)]).getV 7).toNat ≠ 1) ∧
    Nat.gcd (2 % 3) 3 = 1 ∧ Nat.gcd (3 % 3) 3 ≠ 1 ∧ Nat.gcd (10 % 15) 15 ≠ 1 ∧
    (State.reset.getV 7).toNat % 2 = 0 ∧ ((load State.reset [(7, 1)]).getV 7).toNat = 1 ∧
    ((load State.reset [(7, 2)]).getV 7).toNat % 2 = 0 := by decide +kernel

theorem witness_FieldCommandsReduceModuloCp : k1.cfg.mode = .fast ∧ nist.cfg.mode = .generic ∧ k1.curveOK = true ∧ nist.curveOK = true ∧
    ({ tiny with cp := 3 } : State).curveOK = true ∧ State.reset.curveOK = false ∧
    ({ tiny with cp := 4 } : State).curveOK = false ∧ opcOf 0x00001322 = 0x22#8 ∧
    (raOf 0x00001322).getLsbD 0 = true := by decide +kernel

theorem witness_FmulOfTheInverseIsOne : (3 : Reg) ≠ 1 ∧ k1.curveOK = true ∧ k1.cp.toNat.Prime ∧
    (load k1 [(1, gx), (7, p)]).getV 7 = (load k1 [(1, gx), (7, p)]).cp ∧
    1 ≤ ((load k1 [(1, gx), (7, p)]).getV 1).toNat ∧
    ((load k1 [(1, gx), (7, p)]).getV 1).toNat < (load k1 [(1, gx), (7, p)]).cp.toNat :=
  ⟨by decide, by decide +kernel, prime_pK1, by decide +kernel, by decide +kernel, by decide +kernel⟩

theorem witness_DbljWritesTheDoubling : [(0 : Reg), 1, 2].Nodup ∧ ¬[(0 : Reg), 0, 2].Nodup ∧ k1.curveOK = true ∧
    State.reset.curveOK = false ∧ k1.getV 2 = 0 ∧ (load k1 [(2, 1)]).getV 2 ≠ 0 ∧
    (load k1 [(2, p)]).getV 2 ≠ 0 := by decide +kernel

theorem witness_XyczaddWritesTheFormula : [(0 : Reg), 1, 2, 3].Nodup ∧ ¬[(0 : Reg), 1, 2, 0].Nodup ∧
    k1.curveOK = true ∧ (load k1 [(0, 5), (2, 5)]).getV 0 = (load k1 [(0, 5), (2, 5)]).getV 2 ∧
    State.reset.curveOK = false := by decide +kernel

theorem witness_XyczaddcWritesTheFormula : [(12 : Reg), 13, 14, 15].Nodup ∧ ¬[(0 : Reg), 1, 1, 3].Nodup ∧
    nist.curveOK = true ∧ State.reset.curveOK = false := by decide +kernel

theorem witness_PaddWritesTheSum : k1.curveOK = true ∧
    k1.curve.validPt ((load k1 [(0, gx), (1, gy)]).getPoint 0) = true ∧
    k1.curve.validPt (k1.getPoint 1) = true ∧ k1.curve.validPt ((load k1 [(0, 1), (1, 1)]).getPoint 0) = false ∧
    State.reset.curveOK = false ∧
    (opcOf 0x00020533 = 0x33#8 ∧ (rdOf 0x00020533).getLsbD 0 = true) ∧
    (opcOf 0x00021433 = 0x33#8 ∧ (raOf 0x00021433).getLsbD 0 = true) ∧
    (opcOf 0x00030433 = 0x33#8 ∧ (rbOf 0x00030433).getLsbD 0 = true) := by decide +kernel

/-- `G` with itself, `G` with `2G`, and `O`, on secp256k1; and a GENERIC curve. -/
theorem witness_GroupLawIsChordAndTangent : k1.curve.p.Prime ∧ k1.curve.p ≠ 2 ∧ k1.curve.mode = .fast ∧
    nist.curve.mode = .generic ∧ k1.curve.validPt infinity = true ∧
    k1.curve.validPt ⟨gx.toNat, gy.toNat⟩ = true ∧ k1.curve.validPt ⟨g2x.toNat, g2y.toNat⟩ = true ∧
    (⟨gx.toNat, gy.toNat⟩ : AffinePoint) ≠ infinity ∧ (⟨g2x.toNat, g2y.toNat⟩ : AffinePoint) ≠ infinity ∧
    gx.toNat ≠ g2x.toNat ∧ (gy.toNat + gy.toNat) % k1.curve.p ≠ 0 :=
  ⟨prime_pK1, by decide +kernel⟩

theorem prime_seven : tiny.cp.toNat.Prime := by
  rw [show tiny.cp.toNat = 7 from rfl]
  norm_num

theorem witness_ScalarMultiplesAdd :
    (tiny.curve.p.Prime ∧ tiny.curve.p ≠ 2 ∧ tiny.curve.b % tiny.curve.p ≠ 0 ∧
      (4 * tiny.curve.a ^ 3 + 27 * (tiny.curve.b : Int) ^ 2) % tiny.curve.p ≠ 0 ∧
      tiny.curve.validPt ⟨0, 1⟩ = true) ∧
    (k1.curve.p.Prime ∧ k1.curve.p ≠ 2 ∧ k1.curve.b % k1.curve.p ≠ 0 ∧
      (4 * k1.curve.a ^ 3 + 27 * (k1.curve.b : Int) ^ 2) % k1.curve.p ≠ 0 ∧
      k1.curve.validPt ⟨gx.toNat, gy.toNat⟩ = true) :=
  ⟨⟨prime_seven, by decide +kernel⟩, ⟨prime_pK1, by decide +kernel⟩⟩

theorem witness_PmulWritesTheScalarMultiple :
    (load k1 [(0, gx), (1, gy), (8, n)]).curveOKn = true ∧
    ((load k1 [(0, gx), (1, gy), (8, n)]).getV 8).toNat ≤ k1.cn.toNat ∧
    k1.curve.validPt ((load k1 [(0, gx), (1, gy), (8, n)]).getPoint 0) = true ∧
    k1.cn.toNat < ((load k1 [(8, n + 1)]).getV 8).toNat ∧ State.reset.curveOKn = false ∧
    ({ k1 with cn := 0 } : State).curveOKn = false ∧
    (opcOf 0x00080334 = 0x34#8 ∧ (rdOf 0x00080334).getLsbD 0 = true) ∧
    (opcOf 0x00081234 = 0x34#8 ∧ (raOf 0x00081234).getLsbD 0 = true) := by decide +kernel

/-- On the small curve the point (0, 1) has order CN = 5; the scalars are 0, 1, 2 and CN. -/
theorem witness_PmulOfAPointOfOrderCn :
    [0, 1, 2, 5].all (fun k => (load tiny [(1, 1), (8, k)]).curveOKn &&
      decide (((load tiny [(1, 1), (8, k)]).getV 8).toNat ≤ (load tiny [(1, 1), (8, k)]).cn.toNat) &&
      (load tiny [(1, 1), (8, k)]).curve.validPt ((load tiny [(1, 1), (8, k)]).getPoint 0) &&
      decide ((load tiny [(1, 1), (8, k)]).curve.smul (load tiny [(1, 1), (8, k)]).cn.toNat
        ((load tiny [(1, 1), (8, k)]).getPoint 0) = infinity)) = true := by decide +kernel

/-- `G` of secp256k1 with `Z = 1`, and (0, 1) of the small curve. -/
theorem witness_DbljDoublesThePoint :
    ([(0 : Reg), 1, 2].Nodup ∧ k1.curveOK = true ∧ k1.cp.toNat.Prime ∧
      k1.curve.onCurve ⟨gx.toNat, gy.toNat⟩ = true ∧
      ((load k1 [(0, gx), (1, gy), (2, 1)]).getV 2).toNat % k1.cp.toNat ≠ 0 ∧
      StandsFor k1.cp.toNat ((load k1 [(0, gx), (1, gy), (2, 1)]).getJacobian 0 1 2) ⟨gx.toNat, gy.toNat⟩) ∧
    (tiny.curveOK = true ∧ tiny.cp.toNat.Prime ∧ tiny.curve.onCurve ⟨0, 1⟩ = true ∧
      StandsFor tiny.cp.toNat ((load tiny [(0, 0), (1, 1), (2, 2)]).getJacobian 0 1 2) ⟨0, 1⟩) := by
  refine ⟨⟨by decide, by decide +kernel, prime_pK1, by decide +kernel, by decide +kernel, ?_⟩, by decide +kernel,
    prime_seven, by decide +kernel, ?_⟩ <;> unfold StandsFor <;> decide +kernel

/-- (0, 1) and (4, 5) of the small curve with `z = 1`, so `z' = 4`. -/
theorem witness_CoZCommandsAddThePoints :
    [(0 : Reg), 1, 2, 3].Nodup ∧ coZ.curveOK = true ∧ coZ.cp.toNat.Prime ∧
    (∀ r ∈ [(0 : Reg), 1, 2, 3], (coZ.getV r).toNat < coZ.cp.toNat) ∧
    coZ.curve.onCurve ⟨0, 1⟩ = true ∧ coZ.curve.onCurve ⟨4, 5⟩ = true ∧
    (⟨0, 1⟩ : AffinePoint) ≠ infinity ∧ (⟨4, 5⟩ : AffinePoint) ≠ infinity ∧ 1 % coZ.cp.toNat ≠ 0 ∧
    StandsFor coZ.cp.toNat ⟨(coZ.getV 0).toNat, (coZ.getV 1).toNat, 1⟩ ⟨0, 1⟩ ∧
    StandsFor coZ.cp.toNat ⟨(coZ.getV 2).toNat, (coZ.getV 3).toNat, 1⟩ ⟨4, 5⟩ ∧ coZ.getV 0 ≠ coZ.getV 2 ∧
    ((4 : Nat) : Int) = (((1 : Nat) : Int) * ((coZ.getV 2).toNat - (coZ.getV 0).toNat)) % coZ.cp.toNat := by
  refine ⟨by decide, by decide +kernel, prime_seven, by decide +kernel, by decide +kernel, by decide +kernel,
    by decide, by decide, by decide +kernel, ?_, ?_, by decide +kernel, by decide +kernel⟩ <;>
    unfold StandsFor <;> decide +kernel

theorem witness_ReducersAreExact : 2 ^ 512 - 1 < 2 ^ 512 ∧ 1 ≤ p.toNat ∧ p.toNat < 2 ^ 256 ∧
    mmodMethod (2 ^ 512 - 1) 1 = 0 ∧ fastReduce (p.toNat) = 0 := by decide +kernel

/-- The least and the largest scalar of CN = 1 and of secp256k1. -/
theorem witness_RegularizationFixesTheIterationCount : (0 ≤ 1 ∧ 1 ≤ 1) ∧ (n.toNat ≤ n.toNat ∧ 1 ≤ n.toNat) ∧
    regularize 0 1 = 2 ∧ regularize 1 1 = 2 ∧ bitlen (regularize 0 n.toNat) = 257 := by decide +kernel

/-- The disjuncts, at the ends of the reserved ranges; the offsets next to them are answered. -/
theorem witness_RefusedTransactionsChangeNothing : (0x004 : BitVec 12).toNat % 8 ≠ 0 ∧ (0x0F : BitVec 8) ≠ 0xFF#8 ∧
    (0x040 ≤ (0x040 : BitVec 12).toNat ∧ (0x0F8 : BitVec 12).toNat ≤ 0x0F8) ∧
    (0x1C0 ≤ (0x1C0 : BitVec 12).toNat ∧ (0x1F8 : BitVec 12).toNat ≤ 0x1F8) ∧
    0x400 ≤ (0x400 : BitVec 12).toNat ∧ 0x400 ≤ (0xFF8 : BitVec 12).toNat ∧
    [0x038, 0x100, 0x1B8, 0x200, 0x3F8].all (fun off => decide ((k1.busRead off 0xFF).2 = .okay)) := by
  decide +kernel

theorem witness_ReadsHaveNoSideEffect :
    (turns k1 [.host (.read 0x018 0xFF)]).schedule = .host (.read 0x018 0xFF) :: [] ∧
    ∃ t u, step (turns k1 [.host (.read 0x018 0xFF)]) = .next t ∧
      step { t with schedule := .host (.read 0x018 0xFF) :: [] } = .next u := ⟨rfl, _, _, rfl, rfl⟩

/-- The ends of each range. -/
theorem witness_BusyAndLockRefuse : (busy k1 0 []).status.busy = true ∧ locked.cfg.lock = true ∧
    (0x100 ≤ (0x100 : BitVec 12).toNat ∧ (0x3FF : BitVec 12).toNat ≤ 0x3FF) ∧
    (0x100 ≤ (0x100 : BitVec 12).toNat ∧ (0x198 : BitVec 12).toNat ≤ 0x198) ∧
    (0x008 : BitVec 12).toNat = 0x008 ∧ (0x000 : BitVec 12).toNat ≠ 0x008 := by decide +kernel

theorem witness_CommandOffer : (busy k1 0 []).status.busy = true ∧
    (failed k1).status.errv = true ∧ (failed k1).status.busy = false ∧
    k1.status.busy = false ∧ k1.status.errv = false := by decide +kernel

theorem witness_StatusWriteClears : ∀ j ∈ [1, 2, 3], ((0xE : Limb).getLsbD j = true ∧ (0x1 : Limb).getLsbD j = false) :=
  by decide

theorem witness_OperandLimbsAreReadAndWritten : k1.status.busy = false ∧ 0 < 4 ∧ 3 < 4 ∧
    0x200 + 0x20 * (15 : Reg).toNat + 8 * 3 = 0x3F8 := by decide +kernel

/-- The first and the last descriptor limb, and HALFN's last. -/
theorem witness_RegisterMap : k1.status.busy = false ∧ k1.cfg.lock = false ∧
    0 < 4 ∧ 3 < 4 ∧ 0x180 + 8 * 3 = 0x198 ∧ 0x1A0 + 8 * 3 = 0x1B8 := by decide +kernel

/-- One limb write to CP and one to CGY. -/
theorem test_descriptor_limb_write : (k1.busWrite 0x118 0xFF 5).2 = .okay ∧
    (k1.busWrite 0x118 0xFF 5).1.cp.extractLsb' 192 64 = 5 ∧
    (k1.busWrite 0x118 0xFF 5).1.cp.extractLsb' 0 192 = k1.cp.extractLsb' 0 192 ∧
    (k1.busWrite 0x180 0xFF 5).1.cgy.extractLsb' 0 64 = 5 ∧
    (k1.busWrite 0x180 0xFF 5).1.cgy.extractLsb' 64 192 = k1.cgy.extractLsb' 64 192 := by decide +kernel

theorem witness_FourWritesLoadADescriptorRegister : k1.status.busy = false ∧ k1.cfg.lock = false := by
  decide +kernel

/-- R85: byte 0 is the least significant. -/
theorem test_byte_lanes : lane 0x8877665544332211 0 = 0x11 ∧ lane 0x8877665544332211 7 = 0x88 ∧
    ofLanes 0x11 0x22 0x33 0x44 0x55 0x66 0x77 0x88 = 0x8877665544332211 := by decide

/-- The first address after the window, whatever BASE is. -/
theorem witness_WindowAddressesAndByteLanes : Config.base + 4095 < Config.base + 4096 ∧
    Config.base + 4096 ≤ Config.base + 4096 := ⟨by omega, by omega⟩

theorem witness_CfgFieldsAndWrite : (1 ≠ 0 ∧ bitlen 1 = 1 ∧ bitlen (2 ^ 256 - 1) = 256) ∧
    k1.status.busy = false ∧ k1.cfg.lock = false ∧ locked.status.busy = false ∧
    locked.cfg.lock = true := by decide +kernel

theorem witness_IrqFollowsThePendingBits : done.irq = true ∧
    ∃ t r, done.busWrite 0x018 0xFF 0x6 = (t, r) := ⟨by decide +kernel, _, _, rfl⟩

theorem witness_LockFreezesTheDescriptor :
    (turns locked [.host (.write 0x100 0xFF 5)]).cfg.lock = true ∧
    (∀ cut rest, (turns locked [.host (.write 0x100 0xFF 5)]).schedule ≠ .reset cut :: rest) ∧
    ∃ t, step (turns locked [.host (.write 0x100 0xFF 5)]) = .next t :=
  ⟨rfl, fun _ _ h => (nomatch (List.cons.inj h).1), _, rfl⟩

theorem witness_ResetTurnRestoresEveryRegister : (turns locked [.reset true]).schedule = .reset true :: [] ∧
    (turns (busy locked 0x0B []) [.reset false, .engine]).schedule = .reset false :: [.engine] := by decide +kernel

theorem witness_StepKeepsTheInvariant : (busy full 0x0B []).status.Consistent ∧ (busy k1 0x0B []).Inv ∧
    (failed k1).Inv ∧ ∃ t, step (busy k1 0x0B []) = .next t := by
  refine ⟨?_, ?_, ?_, ⟨_, rfl⟩⟩ <;>
    simp only [State.Inv, Status.Consistent, Flags.OrderExclusive] <;> decide +kernel

end Sys2Proof.Tests
end

section
/-! The interrupt line: `irq` through the two pending bits and their enables (R48), and what a write to STATUS
leaves of it (R90). -/

namespace Sys2Proof.Machine

/-- `irq` is the disjunction of the two enabled pending bits (R48). -/
theorem irq_eq_true_iff (s : State) : s.irq = true ↔
    (s.status.done = true ∧ s.ie.doneIe = true) ∨ (s.status.errv = true ∧ s.ie.errIe = true) := by
  simp only [State.irq, Bool.or_eq_true, Bool.and_eq_true]

theorem irq_eq_false_of_not_pending {s : State} (hd : s.status.done = false) (he : s.status.errv = false) :
    s.irq = false := by
  simp [State.irq, hd, he]

/-- `irq` reads nothing but DONE, ERRV and IE. -/
theorem irq_congr {s t : State} (hd : t.status.done = s.status.done) (he : t.status.errv = s.status.errv)
    (hi : t.ie = s.ie) : t.irq = s.irq := by
  simp only [State.irq, hd, he, hi]

/-- Location 0x018 is STATUS (R82), so a write there is the acknowledgement (R90). -/
theorem busWrite_status (s : State) (d : Limb) : s.busWrite 0x018 0xFF d = (s.acknowledge d, .okay) :=
  busWrite_of_locate (l := .status) (by decide) (by decide)

/-- A 1 at bit 1 clears DONE (R90). -/
theorem acknowledge_done_of_getLsbD {s : State} {d : Limb} (h : d.getLsbD 1 = true) :
    (s.acknowledge d).status.done = false := by
  simp [State.acknowledge, h]

/-- A 1 at bit 2 clears ERRV (R90). -/
theorem acknowledge_errv_of_getLsbD {s : State} {d : Limb} (h : d.getLsbD 2 = true) :
    (s.acknowledge d).status.errv = false := by
  simp [State.acknowledge, h]

/-- Settles O55: the level by `irq_eq_true_iff`; the word 0x6 acknowledges DONE and ERRV, after which no source is
pending; and CMDDROP is not among the fields `irq` reads. -/
theorem irqFollowsThePendingBits : Obligations.IrqFollowsThePendingBits := by
  intro s
  refine ⟨irq_eq_true_iff s, fun t r hw => ?_, fun b => irq_congr rfl rfl rfl⟩
  obtain ⟨rfl, -⟩ := Prod.mk.inj ((busWrite_status s 0x6).symm.trans hw)
  exact irq_eq_false_of_not_pending (acknowledge_done_of_getLsbD (by decide))
    (acknowledge_errv_of_getLsbD (by decide))

end Sys2Proof.Machine
end

section
/-! The refused transactions: narrow, misaligned and reserved ones (R81, R83), and those that BUSY and LOCK refuse
(R87, R88). -/

namespace Sys2Proof.Machine

/-! ## Which transactions reach a location -/

/-- A transaction is refused by its form or its offset (R81, R83), or it is an aligned one of the full width to a
location. -/
theorem refused_or_locate (off : BitVec 12) (lanes : BitVec 8) :
    (admitted off lanes = false ∨ locate off = none) ∨
      off.toNat % 8 = 0 ∧ lanes = 0xFF#8 ∧ ∃ l, locate off = some l := by
  cases ha : admitted off lanes with
  | false => exact .inl (.inl rfl)
  | true =>
    obtain ⟨hoff, hlanes⟩ := (admitted_iff off lanes).mp ha
    cases hl : locate off with
    | none => exact .inl (.inr rfl)
    | some l => exact .inr ⟨hoff, hlanes, l, rfl⟩

theorem admitted_eq_false_iff (off : BitVec 12) (lanes : BitVec 8) :
    admitted off lanes = false ↔ off.toNat % 8 ≠ 0 ∨ lanes ≠ 0xFF#8 := by
  rw [← Bool.not_eq_true, admitted_iff, not_and_or]

/-- A refused read returns 0 (R81, R83); `busWrite_refused` is the same for a write. -/
theorem busRead_refused {s : State} {off : BitVec 12} {lanes : BitVec 8}
    (h : admitted off lanes = false ∨ locate off = none) : s.busRead off lanes = (0, .slverr) := by
  unfold State.busRead
  rcases h with ha | hl
  · rw [ha]; rfl
  · rw [hl]; exact ite_self _

/-- Settles O45: its conditions make the transaction one that is not admitted or one to a reserved offset. -/
theorem refusedTransactionsChangeNothing : Obligations.RefusedTransactionsChangeNothing := by
  intro s off lanes d h
  have href : admitted off lanes = false ∨ locate off = none := by
    rw [admitted_eq_false_iff, locate_eq_none_iff]
    rcases h with halign | hlanes | hreserved
    · exact .inl (.inl halign)
    · exact .inl (.inr hlanes)
    · exact .inr (by omega)
  exact ⟨busRead_refused href, busWrite_refused href⟩

/-! ## The locations that BUSY and LOCK concern -/

/-- The offsets 0x100 to 0x19F, aligned or not, are the descriptor registers' (R82). -/
theorem exists_desc_of_locate {off : BitVec 12} {l : Loc} (h : locate off = some l)
    (hlo : 0x100 ≤ off.toNat) (hhi : off.toNat < 0x1A0) : ∃ r i, l = .desc r i := by
  have all : ∀ off : BitVec 12, 0x100 ≤ off.toNat → off.toNat < 0x1A0 →
      ∃ r ∈ [Desc.cp, .cn, .cb, .cgx, .cgy], ∃ i, locate off = some (.desc r i) := by
    decide +kernel
  obtain ⟨r, -, i, hri⟩ := all off hlo hhi
  exact ⟨r, i, Option.some.inj (h.symm.trans hri)⟩

/-- CFG's eight bytes (R82). -/
theorem locate_eq_cfg_iff (off : BitVec 12) :
    locate off = some .cfg ↔ 0x008 ≤ off.toNat ∧ off.toNat < 0x010 := by
  revert off; decide +kernel

/-! ## BUSY and LOCK -/

/-- Only CFG shows LOCK. -/
theorem readLoc_lock (s : State) (b : Bool) {l : Loc} (h : l ≠ .cfg) :
    State.readLoc { s with cfg := { s.cfg with lock := b } } l = s.readLoc l := by
  cases l with
  | cfg => exact absurd rfl h
  | desc r i => cases r <;> rfl
  | _ => rfl

/-- R87 at a location: while BUSY a write to an operand or descriptor location is refused. -/
theorem writeLoc_operand_of_busy {s : State} {l : Loc} (hb : s.status.busy = true) (hl : l.isOperand = true)
    (d : Limb) : s.writeLoc l d = (s, .slverr) := by
  cases l with
  | desc r i => simp [State.writeLoc, State.writeDesc, hb]
  | halfn i => simp [State.writeLoc, hb]
  | v r i => simp [State.writeLoc, hb]
  | _ => cases hl

theorem writeLoc_cfg_of_busy {s : State} (hb : s.status.busy = true) (d : Limb) :
    s.writeLoc .cfg d = (s, .slverr) := by
  simp [State.writeLoc, State.writeCfg, hb]

/-- R88 at a location: while LOCK = 1 a write to a descriptor limb is refused. -/
theorem writeLoc_desc_of_lock {s : State} (hk : s.cfg.lock = true) (r : Desc) (i : Fin 4) (d : Limb) :
    s.writeLoc (.desc r i) d = (s, .slverr) := by
  simp [State.writeLoc, State.writeDesc, hk]

/-- A write is refused when the location it would reach refuses it, whatever its alignment and width. -/
theorem busWrite_eq_refused {s : State} {off : BitVec 12} {d : Limb} (lanes : BitVec 8)
    (h : ∀ l, locate off = some l → s.writeLoc l d = (s, .slverr)) :
    s.busWrite off lanes d = (s, .slverr) := by
  obtain href | ⟨hoff, rfl, l, hl⟩ := refused_or_locate off lanes
  · exact busWrite_refused href
  · rw [← h l hl]
    exact busWrite_of_locate hoff hl

/-- R87 for reads. -/
theorem busRead_operand_of_busy {s : State} {off : BitVec 12} (lanes : BitVec 8) (hb : s.status.busy = true)
    (hlo : 0x100 ≤ off.toNat) (hhi : off.toNat ≤ 0x3FF) : s.busRead off lanes = (0, .slverr) := by
  obtain href | ⟨hoff, rfl, l, hl⟩ := refused_or_locate off lanes
  · exact busRead_refused href
  · have hop : l.isOperand = true := (isOperand_iff hl).mpr ⟨hlo, hhi⟩
    refine (busRead_of_locate hoff hl).trans (if_pos ?_)
    rw [hb, hop, Bool.and_true]

/-- R88: reads other than CFG's are the same for both values of LOCK. -/
theorem busRead_lock (s : State) {off : BitVec 12} (lanes : BitVec 8) (h : off.toNat ≠ 0x008) (b : Bool) :
    State.busRead { s with cfg := { s.cfg with lock := b } } off lanes = s.busRead off lanes := by
  obtain href | ⟨hoff, rfl, l, hl⟩ := refused_or_locate off lanes
  · rw [busRead_refused href, busRead_refused href]
  · have hcfg : l ≠ .cfg := by
      rintro rfl
      have := (locate_eq_cfg_iff off).mp hl
      omega
    refine (busRead_of_locate hoff hl).trans (Eq.trans ?_ (busRead_of_locate hoff hl).symm)
    rw [readLoc_lock s b hcfg]

/-- Settles O47: a refused write is one whose location refuses it (`busWrite_eq_refused`); the offsets of the
rules are the operand locations, CFG, and the descriptor limbs. -/
theorem busyAndLockRefuse : Obligations.BusyAndLockRefuse := by
  intro s off lanes d
  refine ⟨fun hb hlo hhi => ⟨busRead_operand_of_busy lanes hb hlo hhi, ?_⟩, fun hb hoff => ?_,
    fun hk hlo hhi => ?_, busRead_lock s lanes⟩
  · exact busWrite_eq_refused lanes fun l hl =>
      writeLoc_operand_of_busy hb ((isOperand_iff hl).mpr ⟨hlo, hhi⟩) d
  · have hcfg : locate off = some .cfg := (locate_eq_cfg_iff off).mpr (by omega)
    refine busWrite_eq_refused lanes fun l hl => ?_
    obtain rfl : Loc.cfg = l := Option.some.inj (hcfg.symm.trans hl)
    exact writeLoc_cfg_of_busy hb d
  · refine busWrite_eq_refused lanes fun l hl => ?_
    obtain ⟨r, i, rfl⟩ := exists_desc_of_locate hl hlo (by omega)
    exact writeLoc_desc_of_lock hk r i d

end Sys2Proof.Machine
end

section
/-! The write to STATUS, field by field (R90). -/

namespace Sys2Proof.Machine

/-- A 1 at bit 2 clears ERRCODE with ERRV (R90). -/
theorem acknowledge_errcode_of_getLsbD {s : State} {d : Limb} (h : d.getLsbD 2 = true) :
    (s.acknowledge d).status.errcode = 0 := by
  simp [State.acknowledge, h]

/-- A 1 at bit 3 clears CMDDROP (R90). -/
theorem acknowledge_cmddrop_of_getLsbD {s : State} {d : Limb} (h : d.getLsbD 3 = true) :
    (s.acknowledge d).status.cmddrop = false := by
  simp [State.acknowledge, h]

/-- A 0 at bit 1 keeps DONE (R90). -/
theorem acknowledge_done_of_not_getLsbD {s : State} {d : Limb} (h : d.getLsbD 1 = false) :
    (s.acknowledge d).status.done = s.status.done := by
  simp only [State.acknowledge, h, Bool.not_false, Bool.and_true]

/-- A 0 at bit 2 keeps the error, ERRV with its ERRCODE (R90). -/
theorem acknowledge_error_of_not_getLsbD {s : State} {d : Limb} (h : d.getLsbD 2 = false) :
    (s.acknowledge d).status.errv = s.status.errv ∧ (s.acknowledge d).status.errcode = s.status.errcode := by
  simp only [State.acknowledge, h, Bool.not_false, Bool.and_true, Bool.false_eq_true, if_false, and_self]

/-- A 0 at bit 3 keeps CMDDROP (R90). -/
theorem acknowledge_cmddrop_of_not_getLsbD {s : State} {d : Limb} (h : d.getLsbD 3 = false) :
    (s.acknowledge d).status.cmddrop = s.status.cmddrop := by
  simp only [State.acknowledge, h, Bool.not_false, Bool.and_true]

/-- Settles O49: the write is the acknowledgement (`busWrite_status`), which has a lemma for each bit set and each
bit clear. -/
theorem statusWriteClears : Obligations.StatusWriteClears := by
  intro s d
  exact ⟨s.acknowledge d, busWrite_status s d, rfl, rfl,
    acknowledge_done_of_getLsbD, acknowledge_done_of_not_getLsbD,
    fun h => ⟨acknowledge_errv_of_getLsbD h, acknowledge_errcode_of_getLsbD h⟩,
    acknowledge_error_of_not_getLsbD,
    acknowledge_cmddrop_of_getLsbD, acknowledge_cmddrop_of_not_getLsbD⟩

end Sys2Proof.Machine
end

section
/-! The words of the commands (30_encoding.md): the value of a packed word (R124), the opcode table field by
field (R116, R117), what the decoder answers for each word (R119, R121), and the word of a decoded command. -/

namespace Sys2Proof

open Sys2Proof.Machine

/-! ## The value of a packed word -/

/-- The value of a concatenation, high part first. -/
theorem toNat_append_eq_add {n m : Nat} (a : BitVec n) (b : BitVec m) :
    (a ++ b).toNat = a.toNat * 2 ^ m + b.toNat := by
  rw [BitVec.toNat_append, ← Nat.shiftLeft_add_eq_or_of_lt b.isLt, Nat.shiftLeft_eq]

/-- The encoding arithmetic of R124. -/
theorem toNat_pack (imm : BitVec 8) (rc rb ra rd : Reg) (opc : BitVec 8) :
    (pack imm rc rb ra rd opc).toNat =
      opc.toNat + rd.toNat * 2 ^ 8 + ra.toNat * 2 ^ 12 + rb.toNat * 2 ^ 16 + rc.toNat * 2 ^ 20
        + imm.toNat * 2 ^ 24 := by
  simp only [pack, toNat_append_eq_add, BitVec.toNat_ofNat]
  omega

/-- Settles O3: the value of a packed word is `toNat_pack`, and the examples are four closed words. -/
theorem encodingArithmetic : Obligations.EncodingArithmetic :=
  ⟨toNat_pack, by decide, by decide, by decide, by decide⟩

/-! ## The opcode table, field by field -/

/-- A row of the table from its masks for IMM8, RC, RB, RA and RD: every row fixes bits 63:32 and OPC, and every
bit it fixes besides OPC is zero. -/
def rowOf (imm : BitVec 8) (rc rb ra rd : Reg) (opc : BitVec 8) : TableRow where
  mask := BitVec.allOnes 32 ++ imm ++ rc ++ rb ++ ra ++ rd ++ BitVec.allOnes 8
  pattern := pack 0 0 0 0 0 opc

theorem tableRows_eq_rowOf : tableRows =
    [rowOf 0xFF 0xF 0xF 0xF 0xF 0x00, rowOf 0xFF 0xF 0 0 0 0x01, rowOf 0xFF 0xF 0 0 0 0x02,
     rowOf 0xFF 0xF 0 0 1 0x03, rowOf 0xFF 0xF 0xF 0 1 0x04, rowOf 0 0xF 0xF 0 0 0x05,
     rowOf 0 0xF 0xF 0 0 0x06, rowOf 0xFF 0xF 0 0 0xF 0x07, rowOf 0xFF 0xF 0 0 0xF 0x08,
     rowOf 0xFF 0xF 0xF 0 0 0x09, rowOf 0xFF 0xF 0xF 0 0 0x0A, rowOf 0xFF 0xF 0xF 0xF 0xF 0x0B,
     rowOf 0xFF 0 0 0 0 0x10, rowOf 0xFF 0 0 0 0 0x11, rowOf 0xFF 0 0xF 1 0 0x12,
     rowOf 0xFF 0 0xF 0 0 0x13, rowOf 0xFF 0xF 0 0 0 0x20, rowOf 0xFF 0xF 0xF 0 0 0x21,
     rowOf 0xFF 0xF 0xF 1 0 0x22, rowOf 0xFF 0xF 0 0 0 0x30, rowOf 0xFF 0 0 0 0 0x31,
     rowOf 0xFF 0 0 0 0 0x32, rowOf 0xFF 0xF 1 1 1 0x33, rowOf 0xFF 0xF 0 1 1 0x34] := rfl

theorem matches_rowOf_iff (w : Limb) (imm : BitVec 8) (rc rb ra rd : Reg) (opc : BitVec 8) :
    w &&& (rowOf imm rc rb ra rd opc).mask = (rowOf imm rc rb ra rd opc).pattern ↔
      opcOf w = opc ∧ upperOf w = 0#32 ∧ rdOf w &&& rd = 0#4 ∧ raOf w &&& ra = 0#4 ∧ rbOf w &&& rb = 0#4 ∧
        rcOf w &&& rc = 0#4 ∧ immOf w &&& imm = 0#8 := by
  rw [rowOf, pack, mask_eq_iff, BitVec.and_allOnes, BitVec.and_allOnes]
  tauto

/-- A register field that is fixed whole is zero (R117). -/
@[simp] theorem and_fifteen_eq_zero_iff (r : Reg) : r &&& 15#4 = 0#4 ↔ r = 0#4 := by revert r; decide

/-- A register field with bit 0 fixed is a pair field (R113). -/
@[simp] theorem and_one_eq_zero_iff (r : Reg) : r &&& 1#4 = 0#4 ↔ isEven r = true := by revert r; decide

/-- IMM8 fixed whole is zero (R117). -/
@[simp] theorem and_255_eq_self (x : BitVec 8) : x &&& 255#8 = x := BitVec.and_allOnes

/-- The rows' opcodes are the map of R116. -/
theorem opcodeLegal_iff (w : Limb) : OpcodeLegal w ↔ opcOf w ∈ Laws.Encoding.opcodes := by
  have hrows : tableRows.map (·.pattern.setWidth 8) = Laws.Encoding.opcodes := by decide
  simp only [OpcodeLegal, ← hrows, List.mem_map, eq_comm]

/-! ## What the decoder answers -/

/-- The answer of R121's first two checks, whose outcomes are `opcode` and `fields`. -/
def DecidedByChecks (opcode fields : Prop) : Except ErrorCode Instr → Prop
  | .ok _ => opcode ∧ fields
  | .error .illegalOpcode => ¬opcode
  | .error .illegalField => opcode ∧ ¬fields
  | .error .curve => False
  | .error .operand => False

/-- Where `accept`'s three checks are the field check of a legal opcode, its answer is the checks'. -/
theorem accept_decidedByChecks {opcode fields : Prop} {w : Limb} {f : Bool} {i : Instr} (ho : opcode)
    (hf : fields ↔ upperOf w = 0#32 ∧ f = true ∧ i.wf = true) : DecidedByChecks opcode fields (accept w f i) := by
  unfold accept
  split
  · next h => exact ⟨ho, hf.mpr h⟩
  · next h => exact ⟨ho, fun hw => h (hf.mp hw)⟩

/-- The register-field check in the decoder's own terms (R115, R118). -/
theorem registerFieldsLegal_iff (w : Limb) : RegisterFieldsLegal w ↔
    (opcOf w = 0x0A#8 → (selOf (raOf w)).isSome = true) ∧
    (opcOf w = 0x30#8 → distinct3 (rdOf w) (raOf w) (rbOf w) = true) ∧
    (opcOf w = 0x31#8 ∨ opcOf w = 0x32#8 → distinct4 (rdOf w) (raOf w) (rbOf w) (rcOf w) = true) := by
  simp only [RegisterFieldsLegal, nodup3_iff, nodup4_iff, selOf_isSome_iff]

/-- Arm by arm of the decoder: the opcode picks one row of the table, and `accept` checks that row's fields. -/
theorem decode_decidedByChecks (w : Limb) : DecidedByChecks (OpcodeLegal w) (FieldsLegal w) (decode w) := by
  simp only [FieldsLegal, registerFieldsLegal_iff, tableRows_eq_rowOf, matches_rowOf_iff, List.mem_cons,
    List.not_mem_nil, or_false, exists_eq_or_imp, exists_eq_left, BitVec.ofNat_eq_ofNat, BitVec.and_zero,
    and_fifteen_eq_zero_iff, and_one_eq_zero_iff, and_255_eq_self, true_and, and_true, decode]
  split
  case h_25 =>
    simp only [DecidedByChecks, opcodeLegal_iff, Laws.Encoding.opcodes, List.mem_cons, List.not_mem_nil, or_false,
      not_or]
    and_intros <;> assumption
  case h_11 h =>
    have ho : OpcodeLegal w := by simp [opcodeLegal_iff, h, Laws.Encoding.opcodes]
    cases hs : selOf (raOf w) with
    | none => exact ⟨ho, fun hf => by simpa [hs] using hf.2.1 h⟩
    | some =>
      refine accept_decidedByChecks ho ?_
      simp [h, Instr.wf, and_assoc]
  all_goals
    next h =>
      refine accept_decidedByChecks (by simp [opcodeLegal_iff, h, Laws.Encoding.opcodes]) ?_
      simp [h, Instr.wf, and_assoc]

/-- The decoder's answers, one for each outcome of the opcode and the field check. -/
theorem decode_cases (w : Limb) :
    (¬OpcodeLegal w ∧ decode w = .error .illegalOpcode) ∨
    (OpcodeLegal w ∧ ¬FieldsLegal w ∧ decode w = .error .illegalField) ∨
    (OpcodeLegal w ∧ FieldsLegal w ∧ ∃ i, decode w = .ok i) := by
  have h := decode_decidedByChecks w
  cases hd : decode w with
  | ok i => rw [hd] at h; exact .inr (.inr ⟨h.1, h.2, i, rfl⟩)
  | error e =>
    rw [hd] at h
    cases e with
    | illegalOpcode => exact .inl ⟨h, rfl⟩
    | illegalField => exact .inr (.inl ⟨h.1, h.2, rfl⟩)
    | curve => exact h.elim
    | operand => exact h.elim

/-- ILLEGAL_OPCODE exactly where the first check of R121 fails. -/
theorem decode_eq_illegalOpcode_iff (w : Limb) : decode w = .error .illegalOpcode ↔ ¬OpcodeLegal w := by
  rcases decode_cases w with ⟨ho, hd⟩ | ⟨ho, -, hd⟩ | ⟨ho, -, i, hd⟩ <;> simp [ho, hd]

/-- ILLEGAL_FIELD exactly where the second check of R121 is the first that fails. -/
theorem decode_eq_illegalField_iff (w : Limb) :
    decode w = .error .illegalField ↔ OpcodeLegal w ∧ ¬FieldsLegal w := by
  rcases decode_cases w with ⟨ho, hd⟩ | ⟨ho, hf, hd⟩ | ⟨ho, hf, i, hd⟩ <;> simp [*]

/-- A command exactly where both checks pass. -/
theorem exists_decode_eq_ok_iff (w : Limb) : (∃ i, decode w = .ok i) ↔ OpcodeLegal w ∧ FieldsLegal w := by
  rcases decode_cases w with ⟨ho, hd⟩ | ⟨ho, hf, hd⟩ | ⟨ho, hf, i, hd⟩ <;> simp [*]

/-- OPC is the low byte of the word (R111). -/
theorem toNat_opcOf (w : Limb) : (opcOf w).toNat = w.toNat % 256 := by
  simp [opcOf]

/-- The four ranges of R119 are the opcodes outside the map of R116. -/
theorem notMem_opcodes_iff (o : BitVec 8) : o ∉ Laws.Encoding.opcodes ↔
    (0x0C ≤ o.toNat ∧ o.toNat ≤ 0x0F) ∨ (0x14 ≤ o.toNat ∧ o.toNat ≤ 0x1F) ∨
    (0x23 ≤ o.toNat ∧ o.toNat ≤ 0x2F) ∨ 0x35 ≤ o.toNat := by
  simp only [Laws.Encoding.opcodes, List.mem_cons, List.not_mem_nil, or_false, ← BitVec.toNat_inj,
    BitVec.ofNat_eq_ofNat, BitVec.toNat_ofNat]
  omega

/-! ## The word of a decoded command -/

/-- An accepted command encodes to the word if the command that `accept` is given does. -/
theorem encode_of_accept {w : Limb} {f : Bool} {i j : Instr} (h : accept w f i = .ok j)
    (he : upperOf w = 0#32 → f = true → encode i = w) : encode j = w ∧ j.wf = true := by
  obtain ⟨hu, hf, hwf, rfl⟩ := accept_eq_ok.mp h
  exact ⟨he hu hf, hwf⟩

/-- A word that decodes is the encoding of its command, which is well formed: the fields that no operand stands for
are zero (R117), and a pair or selector field is the field of its pair or selector (R113, R115). -/
theorem encode_of_decode {w : Limb} {i : Instr} (h : decode w = .ok i) : encode i = w ∧ i.wf = true := by
  simp only [decode] at h
  split at h
  case h_25 => cases h
  case h_11 ho =>
    cases hs : selOf (raOf w) with
    | none => simp [hs] at h
    | some sel =>
      simp only [hs] at h
      refine encode_of_accept h fun hu hf => ?_
      simp only [Bool.and_eq_true, beq_iff_eq] at hf
      rw [← pack_fields hu, encode]
      simp [hf, ho, selField_selOf hs]
  all_goals
    next ho =>
      refine encode_of_accept h fun hu hf => ?_
      simp only [Bool.and_eq_true, beq_iff_eq] at hf
      rw [← pack_fields hu, encode]
      simp [hf, ho, evenField_pairOf]

end Sys2Proof
end

section
/-! The checks of R121 that read the state: on the command word (`CurveLegal`, `ValuesLegal`), on the decoded command,
and in the engine's completion step. -/

namespace Sys2Proof.Machine

/-! ## The checks on a decoded command -/

/-- The curve check of R122 on a command: `CurveOK` for the field and point commands, `CurveOKn` for PMUL. -/
def CurveCheckPasses (s : State) : Instr → Prop
  | .fmul _ _ _ => s.curveOK = true
  | .fsqr _ _ => s.curveOK = true
  | .fred _ _ => s.curveOK = true
  | .dblj _ _ _ => s.curveOK = true
  | .xyczadd _ _ _ _ => s.curveOK = true
  | .xyczaddc _ _ _ _ => s.curveOK = true
  | .padd _ _ _ => s.curveOK = true
  | .pmul _ _ _ => s.curveOKn = true
  | _ => True

/-- The value check of R123 on a command, on the registers of `s`. -/
def ValueCheckPasses (s : State) : Instr → Prop
  | .mmod _ _ rc => (s.getV rc).toNat ≠ 0
  | .modinv _ _ rc => (s.getV rc).toNat % 2 = 1 ∧ (s.getV rc).toNat ≠ 1
  | .pmul _ _ rb => (s.getV rb).toNat ≤ s.cn.toNat
  | _ => True

theorem curveLegal_encode_iff (s : State) (i : Instr) : CurveLegal s (encode i) ↔ CurveCheckPasses s i := by
  cases i <;> simp [CurveLegal, CurveCheckPasses, encode]

theorem valuesLegal_encode_iff (s : State) (i : Instr) : ValuesLegal s (encode i) ↔ ValueCheckPasses s i := by
  cases i <;> simp [ValuesLegal, ValueCheckPasses, encode]

/-- Every meaning that reads the curve checks it after its in-place fields, which are legal in a well-formed command. -/
theorem exec_of_not_curveCheckPasses {s : State} {i : Instr} (hwf : i.wf = true) (hc : ¬CurveCheckPasses s i) :
    exec i s = fail s .curve := by
  cases i
  case fmul | fsqr | fred | padd | pmul => exact if_neg hc
  case dblj | xyczadd | xyczaddc => exact (if_pos hwf).trans (if_neg hc)
  all_goals exact absurd trivial hc

/-- The value check comes after the curve check; only PMUL has both. -/
theorem exec_of_not_valueCheckPasses {s : State} {i : Instr} (hc : CurveCheckPasses s i) (hv : ¬ValueCheckPasses s i) :
    exec i s = fail s .operand := by
  cases i
  case mmod | modinv => exact if_neg hv
  case pmul => exact (if_pos hc).trans (if_neg hv)
  all_goals exact absurd trivial hv

/-- With every check passed a command writes its results, which keep STATUS, and succeeds. -/
theorem exec_of_checks_pass {s : State} {i : Instr} (hwf : i.wf = true) (hc : CurveCheckPasses s i)
    (hv : ValueCheckPasses s i) : ∃ u, exec i s = succeed u ∧ u.status = s.status := by
  cases i
  case mmod | modinv => exact ⟨_, if_pos hv, by simp⟩
  case fmul | fsqr | fred | padd => exact ⟨_, if_pos hc, by simp⟩
  case dblj | xyczadd | xyczaddc => exact ⟨_, (if_pos hwf).trans (if_pos hc), by simp⟩
  case pmul => exact ⟨_, (if_pos hc).trans (if_pos hv), by simp⟩
  all_goals exact ⟨_, rfl, by simp⟩

/-! ## The engine's turn -/

/-- An error completion, as the statements say it (R272). -/
theorem failedWith_of_eq_fail {r : Result} {s t : State} {e : ErrorCode} (h : r = fail s e) (ht : r = .next t) :
    FailedWith (errorNumber e) s t := by
  rw [h, fail_eq] at ht
  cases ht
  rfl

/-- The success completion of results that keep STATUS (R273). -/
theorem done_of_eq_succeed {r : Result} {s u t : State} (h : r = succeed u) (hu : u.status = s.status)
    (ht : r = .next t) : Done s t := by
  rw [h, succeed_eq] at ht
  cases ht
  simp [Done, hu]

theorem engineStep_of_decode_error {s : State} {e : ErrorCode} (h : decode s.cmd = .error e) :
    engineStep s = fail s e := by
  simp only [engineStep, h]

/-- A word that passes the first two checks of R121 is the encoding of the command the engine runs. -/
theorem engineStep_of_fieldsLegal {s : State} (ho : OpcodeLegal s.cmd) (hf : FieldsLegal s.cmd) :
    ∃ i, encode i = s.cmd ∧ i.wf = true ∧ engineStep s = exec i s := by
  obtain ⟨i, hd⟩ := (exists_decode_eq_ok_iff s.cmd).mpr ⟨ho, hf⟩
  obtain ⟨hw, hwf⟩ := encode_of_decode hd
  exact ⟨i, hw, hwf, by simp only [engineStep, hd]⟩

/-- The third check of R121 is the first that fails. -/
theorem engineStep_of_not_curveLegal {s : State} (ho : OpcodeLegal s.cmd) (hf : FieldsLegal s.cmd)
    (hc : ¬CurveLegal s s.cmd) : engineStep s = fail s .curve := by
  obtain ⟨i, hw, hwf, hi⟩ := engineStep_of_fieldsLegal ho hf
  rw [← hw, curveLegal_encode_iff] at hc
  exact hi.trans (exec_of_not_curveCheckPasses hwf hc)

/-- The fourth check of R121 is the first that fails. -/
theorem engineStep_of_not_valuesLegal {s : State} (ho : OpcodeLegal s.cmd) (hf : FieldsLegal s.cmd)
    (hc : CurveLegal s s.cmd) (hv : ¬ValuesLegal s s.cmd) : engineStep s = fail s .operand := by
  obtain ⟨i, hw, -, hi⟩ := engineStep_of_fieldsLegal ho hf
  rw [← hw, curveLegal_encode_iff] at hc
  rw [← hw, valuesLegal_encode_iff] at hv
  exact hi.trans (exec_of_not_valueCheckPasses hc hv)

/-- No check of R121 fails. -/
theorem engineStep_of_valuesLegal {s : State} (ho : OpcodeLegal s.cmd) (hf : FieldsLegal s.cmd)
    (hc : CurveLegal s s.cmd) (hv : ValuesLegal s s.cmd) :
    ∃ u, engineStep s = succeed u ∧ u.status = s.status := by
  obtain ⟨i, hw, hwf, hi⟩ := engineStep_of_fieldsLegal ho hf
  rw [← hw, curveLegal_encode_iff] at hc
  rw [← hw, valuesLegal_encode_iff] at hv
  rw [hi]
  exact exec_of_checks_pass hwf hc hv

/-- Where the engine moves next on a BUSY core, the step is its completion step on the state without that turn. -/
theorem step_eq_engineStep {s s' : State} (h : EngineMovesNext s s') (hb : s.status.busy = true) :
    ∃ t, step s = .next t ∧ engineStep s' = .next t := by
  obtain ⟨t, ht⟩ := engineTurn_total s'
  have hb' : s'.status.busy = true := by rw [eq_of_engineMovesNext h]; exact hb
  exact ⟨t, (step_engineMovesNext h).trans ht, by simpa only [engineTurn, hb'] using ht⟩

/-- CMD and the checks that read the state are the same without the engine's turn in the schedule. -/
theorem checks_of_engineMovesNext {s s' : State} (h : EngineMovesNext s s') :
    s'.cmd = s.cmd ∧ CurveLegal s' = CurveLegal s ∧ ValuesLegal s' = ValuesLegal s := by
  rw [eq_of_engineMovesNext h]
  exact ⟨rfl, rfl, rfl⟩

/-! ## The obligations on the checks -/

/-- Settles O5: the decoder refuses the opcodes outside the map (`decode_eq_illegalOpcode_iff`), which are the four
ranges (`notMem_opcodes_iff`), and the engine's turn of a refused word is the error completion. -/
theorem reservedOpcodesAreIllegal : Obligations.ReservedOpcodesAreIllegal := by
  refine ⟨fun w => ?_, fun s s' hmove hb hd => ?_⟩
  · rw [decode_eq_illegalOpcode_iff, opcodeLegal_iff, notMem_opcodes_iff, toNat_opcOf]
  · obtain ⟨t, hstep, ht⟩ := step_eq_engineStep hmove hb
    obtain ⟨hcmd, -⟩ := checks_of_engineMovesNext hmove
    rw [← hcmd] at hd
    exact ⟨t, hstep, failedWith_of_eq_fail (engineStep_of_decode_error hd) ht⟩

/-- Settles O13: the decoder makes the first two checks (`decode_cases`), the command the other two; none of them
reads the schedule. -/
theorem checksDecideTheCompletion : Obligations.ChecksDecideTheCompletion := by
  intro s s' hmove hb
  obtain ⟨t, hstep, ht⟩ := step_eq_engineStep hmove hb
  obtain ⟨hcmd, hcurve, hvalues⟩ := checks_of_engineMovesNext hmove
  rw [← hcmd, ← hcurve, ← hvalues]
  refine ⟨t, hstep, fun ho => ?_, fun ho hf => ?_, fun ho hf hc => ?_, fun ho hf hc hv => ?_, fun ho hf hc hv => ?_⟩
  · have hd := (decode_eq_illegalOpcode_iff s'.cmd).mpr ho
    exact failedWith_of_eq_fail (engineStep_of_decode_error hd) ht
  · have hd := (decode_eq_illegalField_iff s'.cmd).mpr ⟨ho, hf⟩
    exact failedWith_of_eq_fail (engineStep_of_decode_error hd) ht
  · exact failedWith_of_eq_fail (engineStep_of_not_curveLegal ho hf hc) ht
  · exact failedWith_of_eq_fail (engineStep_of_not_valuesLegal ho hf hc hv) ht
  · obtain ⟨u, hu, hstatus⟩ := engineStep_of_valuesLegal ho hf hc hv
    exact done_of_eq_succeed hu hstatus ht

end Sys2Proof.Machine
end

section
/-! The decoder on encoded words: it gives the command back, and refuses the fields that name no operand. -/

namespace Sys2Proof

/-- Decoding gives an encoded command back: the packed fields pass every check of `accept` but R118's, which is
the hypothesis. -/
theorem decode_encode {i : Instr} (h : i.wf = true) : decode (encode i) = .ok i := by
  cases i <;> simp [decode, encode, accept, h]

/-- An odd destination field of MUL or SQR names no pair (R113). -/
theorem decode_of_odd_pair {w : Limb} (ho : opcOf w = 0x03#8 ∨ opcOf w = 0x04#8)
    (hd : (rdOf w).getLsbD 0 = true) : decode w = .error .illegalField := by
  have he : isEven (rdOf w) = false := by rw [isEven, hd]; rfl
  rcases ho with h | h <;> simp [decode, h, he, accept]

/-- An RA field of LDC above 5 selects nothing (R115). -/
theorem decode_of_no_selector {w : Limb} (ho : opcOf w = 0x0A#8) (ha : 5 < (raOf w).toNat) :
    decode w = .error .illegalField := by
  have hs : selOf (raOf w) = none := by
    rw [← Option.not_isSome_iff_eq_none, selOf_isSome_iff]
    omega
  simp [decode, ho, hs]

end Sys2Proof
end

section
/-! What a successful command leaves: the frame of the results it writes, and then of the success completion. -/

namespace Sys2Proof.Machine

/-! ## The registers that a write leaves alone -/

theorem othersKept_self (rs : List Reg) (s : State) : OthersKept rs s s := fun _ _ => rfl

theorem othersKept_setV (s : State) (r : Reg) (x : Vli) : OthersKept [r] s (s.setV r x) :=
  fun _ hq => getV_setV_ne s x (List.ne_of_not_mem_cons hq)

theorem othersKept_setPair (s : State) (p : Pair) (x : DoubleVli) :
    OthersKept [loReg p, hiReg p] s (s.setPair p x) := by
  intro q hq
  obtain ⟨hlo, hhi⟩ : q ≠ loReg p ∧ q ≠ hiReg p := by simpa using hq
  rw [getV_setPair, if_neg hhi, if_neg hlo]

/-! ## The success completion of register writes -/

/-- Results in the operand registers alone keep everything else, and the completion then writes STATUS. -/
theorem writesOnly_successCompletion {rs : List Reg} {s : State} {v : Vector Vli 16}
    (h : OthersKept rs s { s with v := v }) : WritesOnly rs s { s with v := v }.successCompletion := by
  refine ⟨h, ?_⟩
  simp [ControlKept, Done]

/-- A command that writes one register. -/
theorem succeed_setV (s : State) (r : Reg) (x : Vli) :
    ∃ t, succeed (s.setV r x) = .next t ∧ t.getV r = x ∧ WritesOnly [r] s t :=
  ⟨_, rfl, getV_setV_self s r x, writesOnly_successCompletion (othersKept_setV s r x)⟩

/-- A command that writes the number `x` to one pair. -/
theorem succeed_setPair (s : State) (p : Pair) {x : Nat} (h : x < 2 ^ 512) :
    ∃ t, succeed (s.setPair p (BitVec.ofNat 512 x)) = .next t ∧
      (t.getV (loReg p)).toNat + 2 ^ 256 * (t.getV (hiReg p)).toNat = x ∧
      WritesOnly [loReg p, hiReg p] s t :=
  ⟨_, rfl, getPair_setPair_toNat s p h, writesOnly_successCompletion (othersKept_setPair s p _)⟩

/-- A command that writes one register and FLAGS.C. -/
theorem succeed_setV_setCarry (s : State) (r : Reg) (x : Vli) (c : Bool) :
    ∃ t, succeed ((s.setV r x).setCarry c) = .next t ∧ t.getV r = x ∧ t.flags = { s.flags with c := c } ∧
      OthersKept [r] s t ∧ t.iter = s.iter ∧ ControlKept s t ∧ Done s t := by
  refine ⟨_, rfl, getV_setV_self s r x, rfl, othersKept_setV s r x, ?_⟩
  simp [ControlKept, Done]

end Sys2Proof.Machine
end

section
/-! The VLI integer commands (40_vli.md): the values they write, in the terms of the rules. -/

namespace Sys2Proof.Machine

/-! ## Values -/

/-- The carry of a sum of two registers is its bit 256 (R142). -/
theorem carryOut_add (a b : Vli) : carryOut (a.toNat + b.toNat) = (a.toNat + b.toNat).testBit 256 := by
  have ha := a.isLt
  have hb := b.isLt
  rw [carryOut, Nat.testBit_eq_decide_div_mod_eq, decide_eq_decide]
  omega

/-- The difference of two registers is negative when the first is the smaller (R143). -/
theorem borrowOut_sub (a b : Nat) : borrowOut ((a : Int) - (b : Int)) = decide (a < b) := by
  rw [borrowOut, decide_eq_decide]
  omega

/-- `BitVec.ofInt` is the residue modulo 2^256 (R7). -/
theorem toNat_ofInt_cast (d : Int) : ((BitVec.ofInt 256 d).toNat : Int) = d % 2 ^ 256 := by
  rw [BitVec.toNat_ofInt]
  omega

/-- Multiplying by a power of two is a left shift (R146). -/
theorem ofNat_mul_two_pow (x : Vli) (n : Nat) : BitVec.ofNat 256 (x.toNat * 2 ^ n) = x <<< n := by
  apply BitVec.eq_of_toNat_eq
  rw [BitVec.toNat_ofNat, BitVec.toNat_shiftLeft, Nat.shiftLeft_eq]

/-- Dividing by a power of two is a logical right shift (R147). -/
theorem ofNat_div_two_pow (x : Vli) (n : Nat) : BitVec.ofNat 256 (x.toNat / 2 ^ n) = x >>> n := by
  rw [← Nat.shiftRight_eq_div_pow, ← BitVec.toNat_ushiftRight, BitVec.ofNat_toNat, BitVec.setWidth_eq]

/-- HALFN is half of CN, rounded down (R36). -/
theorem toNat_halfn (s : State) : s.halfn.toNat = s.cn.toNat / 2 := by
  rw [State.halfn, BitVec.toNat_ushiftRight, Nat.shiftRight_eq_div_pow, Nat.pow_one]

/-- Pair `k` is the registers `2k` and `2k + 1` (R33). -/
theorem toNat_loReg (k : Pair) : (loReg k).toNat = 2 * k.toNat := by revert k; decide

/-- The high half's register; `toNat_loReg` is the low half's (R33). -/
theorem toNat_hiReg (k : Pair) : (hiReg k).toNat = 2 * k.toNat + 1 := by revert k; decide

/-! ## WIPE -/

/-- Every register of the wiped file is 0 (R152). -/
theorem getV_wiped (s : State) (r : Reg) : State.getV { s with v := Vector.replicate 16 0 } r = 0 :=
  Vector.getElem_replicate ..

/-- The cleared FLAGS reads as the zero word (R152). -/
theorem flagsWord_of_flags_reset {s : State} (h : s.flags = State.reset.flags) : s.flagsWord = 0 := by
  rw [State.flagsWord, h]
  decide

/-! ## The obligations -/

/-- Settles O20: NOP's results are the state itself, WIPE's the zero register file and the reset flags. -/
theorem nopAndWipe : Obligations.NopAndWipe := by
  refine ⟨decode_encode (i := .nop) rfl, decode_encode (i := .wipe) rfl, fun s => ⟨?_, ?_⟩⟩
  · exact ⟨_, rfl, writesOnly_successCompletion (othersKept_self [] s)⟩
  · refine ⟨_, rfl, getV_wiped s, flagsWord_of_flags_reset rfl, ?_⟩
    simp [ControlKept, Done]

/-- Settles O21: the carry is bit 256 of the sum (`carryOut_add`). -/
theorem addWritesSumAndCarry : Obligations.AddWritesSumAndCarry := by
  refine fun rd ra rb => ⟨decode_encode (i := .add rd ra rb) rfl, fun s => ?_⟩
  obtain ⟨t, ht, hsum, hflags, hframe⟩ := succeed_setV_setCarry s rd
    (BitVec.ofNat 256 ((s.getV ra).toNat + (s.getV rb).toNat)) (carryOut ((s.getV ra).toNat + (s.getV rb).toNat))
  rw [carryOut_add] at hflags
  exact ⟨t, ht, by rw [hsum, BitVec.toNat_ofNat], hflags, hframe⟩

/-- Settles O22: the borrow is the order of the operands (`borrowOut_sub`). -/
theorem subWritesDifferenceAndBorrow : Obligations.SubWritesDifferenceAndBorrow := by
  refine fun rd ra rb => ⟨decode_encode (i := .sub rd ra rb) rfl, fun s => ?_⟩
  obtain ⟨t, ht, hdiff, hflags, hframe⟩ := succeed_setV_setCarry s rd
    (BitVec.ofInt 256 ((s.getV ra).toNat - (s.getV rb).toNat)) (borrowOut ((s.getV ra).toNat - (s.getV rb).toNat))
  rw [borrowOut_sub] at hflags
  exact ⟨t, ht, by rw [hdiff, toNat_ofInt_cast], hflags, hframe⟩

/-- Settles O23: a product of two registers fits in a pair (`mul_toNat_lt`), so the pair holds it exactly. -/
theorem mulAndSqrWriteTheExactProduct : Obligations.MulAndSqrWriteTheExactProduct := by
  refine ⟨fun k => ⟨toNat_loReg k, toNat_hiReg k⟩, fun rdp ra rb => ?_, fun rdp ra => ?_,
    fun w => decode_of_odd_pair⟩
  · exact ⟨decode_encode (i := .mul rdp ra rb) rfl, fun s => succeed_setPair s rdp (mul_toNat_lt _ _)⟩
  · refine ⟨decode_encode (i := .sqr rdp ra) rfl, fun s => ?_⟩
    rw [Nat.pow_two]
    exact succeed_setPair s rdp (mul_toNat_lt _ _)

/-- Settles O24: both values are the shifts' (`ofNat_mul_two_pow`, `ofNat_div_two_pow`). -/
theorem shiftsAreLogical : Obligations.ShiftsAreLogical := by
  refine fun rd ra imm => ⟨decode_encode (i := .shl rd ra imm) rfl, decode_encode (i := .shr rd ra imm) rfl,
    fun s => ⟨?_, ?_⟩⟩
  · rw [← ofNat_mul_two_pow]
    exact succeed_setV s rd _
  · rw [← ofNat_div_two_pow]
    exact succeed_setV s rd _

/-- Settles O26: both commands write one register (`succeed_setV`), LDC with the constant that its selector
names. -/
theorem movAndLdcCopy : Obligations.MovAndLdcCopy := by
  refine ⟨fun rd ra => ?_, fun rd => ?_, fun w => decode_of_no_selector⟩
  · exact ⟨decode_encode (i := .mov rd ra) rfl, fun s => succeed_setV s rd _⟩
  · have hdec (sel : Sel) : decode (encode (.ldc rd sel)) = .ok (.ldc rd sel) := decode_encode rfl
    refine ⟨hdec .p, hdec .n, hdec .halfn, hdec .b, hdec .gx, hdec .gy, fun s sel => ?_⟩
    obtain ⟨t, ht, hval, hframe⟩ := succeed_setV s rd (s.constant sel)
    refine ⟨t, ht, hframe, ?_⟩
    rw [hval]
    exact ⟨fun h => h ▸ rfl, fun h => h ▸ rfl, fun h => h ▸ toNat_halfn s, fun h => h ▸ rfl,
      fun h => h ▸ rfl, fun h => h ▸ rfl⟩

end Sys2Proof.Machine
end

section
/-! The reducers (41_modular.md R184, 42_field.md R204): each of their rounds keeps the remainder, and the last value
is below the modulus. -/

namespace Sys2Proof.Machine

/-! ## Align and subtract -/

/-- A conditional subtraction of a multiple of the modulus keeps the remainder. -/
theorem ite_sub_mul_mod (v m c : Nat) : (if m * c ≤ v then v - m * c else v) % m = v % m := by
  split
  · next h => exact Nat.sub_mul_mod h
  · rfl

/-- A conditional subtraction halves the range (R184's borrow-free candidate). -/
theorem ite_sub_lt {v c : Nat} (h : v < 2 * c) : (if c ≤ v then v - c else v) < c := by
  split <;> omega

theorem mul_two_pow_succ (m r : Nat) : m * 2 ^ (r + 1) = 2 * (m * 2 ^ r) := by ring

/-- The aligned modulus halved is the modulus aligned one bit lower. -/
theorem mul_two_pow_succ_half (m r : Nat) : m * 2 ^ (r + 1) / 2 = m * 2 ^ r := by
  rw [mul_two_pow_succ, Nat.mul_div_cancel_left _ Nat.two_pos]

/-- The rounds from half of `m · 2^rounds` down take every value below `m · 2^rounds` to its remainder: a round
halves the range and keeps the remainder. -/
theorem alignedSubtract_eq_mod (m : Nat) : ∀ rounds v : Nat, v < m * 2 ^ rounds →
    alignedSubtract rounds v (m * 2 ^ rounds / 2) = v % m
  | 0, v, h => by
    rw [alignedSubtract, Nat.mod_eq_of_lt (by rwa [Nat.pow_zero, Nat.mul_one] at h)]
  | r + 1, v, h => by
    rw [mul_two_pow_succ] at h
    rw [mul_two_pow_succ_half, alignedSubtract, alignedSubtract_eq_mod m r _ (ite_sub_lt h), ite_sub_mul_mod]

/-- `shift + 1` rounds reach every 512-bit value: the aligned modulus has bit 511 (R184). -/
theorem lt_mul_two_pow_shift {m v : Nat} (hv : v < 2 ^ 512) (h1 : 1 ≤ m) (h256 : m < 2 ^ 256) :
    v < m * 2 ^ (512 - bitlen m + 1) := by
  have hpos := bitlen_pos h1
  have hle := (bitlen_le_iff m 256).mpr h256
  calc v < 2 ^ 512 := hv
    _ = 2 ^ (bitlen m - 1) * 2 ^ (512 - bitlen m + 1) := by rw [← Nat.pow_add]; congr 1; omega
    _ ≤ m * 2 ^ (512 - bitlen m + 1) := Nat.mul_le_mul_right _ (two_pow_pred_bitlen_le h1)

/-- R184's method is the exact remainder. -/
theorem mmodMethod_eq_mod {m v : Nat} (hv : v < 2 ^ 512) (h1 : 1 ≤ m) (h256 : m < 2 ^ 256) :
    mmodMethod v m = v % m := by
  rw [mmodMethod, ← mul_two_pow_succ_half]
  exact alignedSubtract_eq_mod m _ v (lt_mul_two_pow_shift hv h1 h256)

/-! ## Two folds -/

/-- A fold takes a multiple of `P_K1 = 2^256 - C_K1` away (R204). -/
theorem foldHigh_add (t : Nat) : foldHigh t + Config.pK1 * (t / 2 ^ 256) = t := by
  simp only [foldHigh, Config.pK1, Config.cK1]
  omega

theorem foldHigh_mod (t : Nat) : foldHigh t % Config.pK1 = t % Config.pK1 := by
  rw [← Nat.add_mul_mod_self_left, foldHigh_add]

/-- Two folds of a 512-bit value leave less than twice `P_K1`, so one subtraction is enough (R204). -/
theorem foldHigh_foldHigh_lt {v : Nat} (h : v < 2 ^ 512) : foldHigh (foldHigh v) < 2 * Config.pK1 := by
  simp only [foldHigh, Config.pK1, Config.cK1]
  omega

/-- R204's method is the exact remainder. -/
theorem fastReduce_eq_mod {v : Nat} (h : v < 2 ^ 512) : fastReduce v = v % Config.pK1 := by
  have hlt := ite_sub_lt (foldHigh_foldHigh_lt h)
  have hmod := ite_sub_mul_mod (foldHigh (foldHigh v)) Config.pK1 1
  rw [Nat.mul_one, Nat.mod_eq_of_lt hlt, foldHigh_mod, foldHigh_mod] at hmod
  exact hmod

/-! ## The obligation -/

/-- Settles O43: both methods keep the remainder (`ite_sub_mul_mod`, `foldHigh_mod`) and end below the modulus. -/
theorem reducersAreExact : Obligations.ReducersAreExact :=
  ⟨fun _ _ => mmodMethod_eq_mod, fun _ => fastReduce_eq_mod⟩

end Sys2Proof.Machine
end

section
/-! The modular commands (41_modular.md): the values they write, in the terms of the rules. -/

namespace Sys2Proof.Machine

/-! ## One correction -/

theorem modadd_of_lt {a b m : Nat} (h : a + b < m) : modadd a b m = (a + b) % 2 ^ 256 := by
  simp only [modadd, if_neg (Nat.not_le.mpr h)]

theorem modadd_of_le {a b m : Nat} (h : m ≤ a + b) : modadd a b m = (a + b - m) % 2 ^ 256 := by
  simp only [modadd, if_pos h]

theorem modsub_of_le {a b : Nat} (m : Nat) (h : b ≤ a) (ha : a < 2 ^ 256) : modsub a b m = a - b := by
  simp only [modsub, if_neg (show ¬(a : Int) - b < 0 by omega)]
  omega

theorem cast_modsub_of_lt {a b : Nat} (m : Nat) (h : a < b) :
    (modsub a b m : Int) = ((a : Int) - b + m) % 2 ^ 256 := by
  simp only [modsub, if_pos (show (a : Int) - b < 0 by omega)]
  omega

/-! ## The inverse -/

/-- The inverse below the modulus is the only one: two inverses are congruent, since the operand is coprime to the
modulus (R186). -/
theorem modinv_eq_iff {a m : Nat} (hm : 2 ≤ m) (h : Nat.gcd (a % m) m = 1) (x : Nat) :
    (modinv a m).1 = x ↔ 1 ≤ x ∧ x < m ∧ (a * x) % m = 1 := by
  obtain ⟨-, hlt, hinv⟩ := (modinv_spec a m hm).1 h
  constructor
  · rintro rfl
    exact ⟨modinv_pos hm h, hlt, hinv⟩
  · rintro ⟨-, hx, hxinv⟩
    have hcop : Nat.gcd m a = 1 := by rwa [Nat.gcd_rec]
    have hcongr : (modinv a m).1 ≡ x [MOD m] :=
      Nat.ModEq.cancel_left_of_coprime hcop (hinv.trans hxinv.symm)
    exact Nat.ModEq.eq_of_lt_of_lt hcongr hlt hx

/-! ## What the commands leave -/

/-- A command that writes the number `x` to one register. -/
theorem succeed_setVNat (s : State) (r : Reg) {x : Nat} (h : x < 2 ^ 256) :
    ∃ t, succeed (s.setVNat r x) = .next t ∧ (t.getV r).toNat = x ∧ WritesOnly [r] s t :=
  ⟨_, rfl, toNat_getV_setVNat_self s r h, writesOnly_successCompletion (othersKept_setV s r _)⟩

/-- A command that writes the number `x` to one register, and FLAGS.NI. -/
theorem succeed_setVNat_setNoInverse (s : State) (r : Reg) {x : Nat} (ni : Bool) (h : x < 2 ^ 256) :
    ∃ t, succeed ((s.setVNat r x).setNoInverse ni) = .next t ∧ (t.getV r).toNat = x ∧
      t.flags = { s.flags with ni := ni } ∧
      OthersKept [r] s t ∧ t.iter = s.iter ∧ ControlKept s t ∧ Done s t := by
  refine ⟨_, rfl, toNat_getV_setVNat_self s r h, rfl, othersKept_setV s r _, ?_⟩
  simp [ControlKept, Done]

/-- A failed value check is OPERAND, code 4, and changes nothing else (R123, R272). -/
theorem exec_failedWith_operand {s : State} {i : Instr} (hc : CurveCheckPasses s i) (hv : ¬ValueCheckPasses s i) :
    ∃ t, exec i s = .next t ∧ FailedWith 4 s t :=
  ⟨_, exec_of_not_valueCheckPasses hc hv, rfl⟩

/-! ## The pair field of MMOD -/

/-- An odd pair field of MMOD names no pair (R113). -/
theorem decode_mmod_of_odd_pair {w : Limb} (ho : opcOf w = 0x12#8) (ha : (raOf w).getLsbD 0 = true) :
    decode w = .error .illegalField := by
  have he : isEven (raOf w) = false := by rw [isEven, ha]; rfl
  simp [decode, ho, he, accept]

/-! ## The obligations -/

/-- Settles O27: the branches of R180 and R181, and for canonical operands the residue (`modadd_canonical`,
`modsub_canonical`). -/
theorem modaddAndModsubCorrectOnce : Obligations.ModaddAndModsubCorrectOnce := by
  refine fun rd ra rb rc => ⟨decode_encode (i := .modadd rd ra rb rc) rfl,
    decode_encode (i := .modsub rd ra rb rc) rfl, ?_⟩
  rintro s a b m rfl rfl rfl
  have hm := (getV_toNat_lt s rc).le
  constructor
  · obtain ⟨t, ht, hval, hframe⟩ := succeed_setVNat s rd
      (modadd_lt (s.getV ra).toNat (s.getV rb).toNat (s.getV rc).toNat)
    refine ⟨t, ht, hframe, ?_⟩
    rw [hval]
    exact ⟨modadd_of_lt, modadd_of_le, fun ha hb => modadd_canonical ha hb hm⟩
  · obtain ⟨t, ht, hval, hframe⟩ := succeed_setVNat s rd
      (modsub_lt (s.getV ra).toNat (s.getV rb).toNat (s.getV rc).toNat)
    refine ⟨t, ht, hframe, ?_⟩
    rw [hval]
    exact ⟨fun h => modsub_of_le _ h (getV_toNat_lt s ra), cast_modsub_of_lt _,
      fun ha hb => modsub_canonical ha hb hm⟩

/-- Settles O29: the remainder is below the modulus, so the register holds it exactly. -/
theorem mmodWritesTheRemainder : Obligations.MmodWritesTheRemainder := by
  refine ⟨fun rd rap rc => ⟨decode_encode (i := .mmod rd rap rc) rfl, fun s hm => ?_, fun s hm => ?_⟩,
    fun w => decode_mmod_of_odd_pair⟩
  · have hlt : mmod (s.getPair rap).toNat (s.getV rc).toNat < 2 ^ 256 :=
      (Nat.mod_lt _ (Nat.pos_of_ne_zero hm)).trans (getV_toNat_lt s rc)
    obtain ⟨t, ht, hval, hframe⟩ := succeed_setVNat s rd hlt
    exact ⟨t, (if_pos hm).trans ht, by rw [hval, mmod, getPair_toNat], hframe⟩
  · exact exec_failedWith_operand trivial (not_not.mpr hm)

/-- Settles O30: the written value is the only inverse below the modulus (`modinv_eq_iff`), or 0 (`modinv_spec`). -/
theorem modinvWritesTheInverse : Obligations.ModinvWritesTheInverse := by
  refine fun rd ra rc => ⟨decode_encode (i := .modinv rd ra rc) rfl, ?_, fun s hm => ?_⟩
  · rintro s a m rfl rfl hodd hne
    have hm : 2 ≤ (s.getV rc).toNat := by omega
    have hspec := modinv_spec (s.getV ra).toNat _ hm
    obtain ⟨t, ht, hval, hflags, hframe⟩ := succeed_setVNat_setNoInverse s rd
      (modinv (s.getV ra).toNat (s.getV rc).toNat).2 ((modinv_lt (s.getV ra).toNat _ hm).trans (getV_toNat_lt s rc))
    refine ⟨t, (if_pos ⟨hodd, hne⟩).trans ht, fun h => ?_, fun h => ?_, hframe⟩
    · rw [hflags, (hspec.1 h).1, hval]
      exact ⟨rfl, modinv_eq_iff hm h⟩
    · rw [hspec.2 h] at hflags hval
      exact ⟨hflags, BitVec.eq_of_toNat_eq hval⟩
  · have hv : ¬ValueCheckPasses s (.modinv rd ra rc) := by
      rw [ValueCheckPasses]
      omega
    exact exec_failedWith_operand trivial hv

end Sys2Proof.Machine
end

section
/-! The field commands (42_field.md): the curve check in the terms of R49, and the one value that the three commands
write, a reduction modulo CP. -/

namespace Sys2Proof.Machine

/-! ## The curve check -/

/-- `P_K1` as R49 writes it. -/
theorem pK1_eq : Config.pK1 = 2 ^ 256 - 2 ^ 32 - 977 := rfl

/-- `CurveOK` is R49's condition for the mode that CFG selects. -/
theorem curveOK_iff (s : State) : s.curveOK = true ↔ CurveConfigured s := by
  unfold State.curveOK CurveConfigured
  cases s.cfg.mode with
  | fast =>
    -- `decide` goes before `P_K1` is written out, since its instance names `Config.pK1`.
    simp only [decide_eq_true_eq]
    simp [pK1_eq]
  | generic => simp

/-- A failed curve check is CURVE, code 3, and changes nothing else (R122, R272). -/
theorem exec_failedWith_curve {s : State} {i : Instr} (hwf : i.wf = true) (hc : ¬CurveCheckPasses s i) :
    ∃ t, exec i s = .next t ∧ FailedWith 3 s t :=
  ⟨_, exec_of_not_curveCheckPasses hwf hc, rfl⟩

/-! ## The written value -/

/-- With `CurveOK` a value reduced modulo CP fits the register: the meaning that the three field commands share. -/
theorem exec_of_eq_setVNat_fred {s : State} {i : Instr} {rd : Reg} {v : Nat}
    (hi : exec i s = if s.curveOK then succeed (s.setVNat rd (fred s.cp.toNat v)) else fail s .curve)
    (h : s.curveOK = true) :
    ∃ t, exec i s = .next t ∧ WritesOnly [rd] s t ∧ (t.getV rd).toNat = v % s.cp.toNat := by
  obtain ⟨-, hcp⟩ := curveOK_odd h
  have hlt : fred s.cp.toNat v < 2 ^ 256 := (fred_lt v (by omega)).trans s.cp.isLt
  obtain ⟨t, ht, hval, hframe⟩ := succeed_setVNat s rd hlt
  exact ⟨t, hi.trans ((if_pos h).trans ht), hframe, hval⟩

/-! ## The pair field of FRED -/

/-- An odd pair field of FRED names no pair (R113). -/
theorem decode_fred_of_odd_pair {w : Limb} (ho : opcOf w = 0x22#8) (ha : (raOf w).getLsbD 0 = true) :
    decode w = .error .illegalField := by
  have he : isEven (raOf w) = false := by rw [isEven, ha]; rfl
  simp [decode, ho, he, accept]

/-! ## The obligation -/

/-- Settles O31: the checks are R49's conditions (`curveOK_iff`), and each command writes one reduction modulo CP
(`exec_of_eq_setVNat_fred`) or fails the curve check. -/
theorem fieldCommandsReduceModuloCp : Obligations.FieldCommandsReduceModuloCp := by
  refine ⟨fun s => ⟨curveOK_iff s, ?_⟩, fun rd ra rb rap => ?_, fun w => decode_fred_of_odd_pair⟩
  · rw [curveOKn_iff, curveOK_iff]
  · refine ⟨decode_encode (i := .fmul rd ra rb) rfl, decode_encode (i := .fsqr rd ra) rfl,
      decode_encode (i := .fred rd rap) rfl, fun s h => ⟨?_, ?_, ?_⟩, fun s h => ?_⟩
    · exact exec_of_eq_setVNat_fred rfl h
    · rw [Nat.pow_two]
      exact exec_of_eq_setVNat_fred rfl h
    · rw [← getPair_toNat]
      exact exec_of_eq_setVNat_fred rfl h
    · have hc : ¬s.curveOK = true := Bool.eq_false_iff.mp h
      exact ⟨exec_failedWith_curve rfl hc, exec_failedWith_curve rfl hc, exec_failedWith_curve rfl hc⟩

end Sys2Proof.Machine
end

section
/-! The regularization and the ladder's count (43_point.md R240, R242): the regularized scalar has one bit more than
the order, and the ladder runs one iteration for each of its bits. -/

namespace Sys2Proof.Machine

/-! ## The regularized scalar -/

theorem regularize_of_le {k n : Nat} (h : 2 ^ bitlen n ≤ k + n) : regularize k n = k + n := if_pos h

theorem regularize_of_lt {k n : Nat} (h : k + n < 2 ^ bitlen n) : regularize k n = k + n + n :=
  if_neg (Nat.not_le.mpr h)

/-- The power of two just above `n` is at most `2n`, so one of `k + n` and `k + 2n` reaches it. -/
theorem two_pow_bitlen_le_two_mul {n : Nat} (h : 1 ≤ n) : 2 ^ bitlen n ≤ 2 * n := by
  calc 2 ^ bitlen n = 2 * 2 ^ (bitlen n - 1) := (mul_pow_sub_one (Nat.pos_iff_ne_zero.mp (bitlen_pos h)) 2).symm
    _ ≤ 2 * n := Nat.mul_le_mul_left 2 (two_pow_pred_bitlen_le h)

theorem two_pow_bitlen_le_regularize (k : Nat) {n : Nat} (h : 1 ≤ n) : 2 ^ bitlen n ≤ regularize k n := by
  have hpow := two_pow_bitlen_le_two_mul h
  rcases Nat.lt_or_ge (k + n) (2 ^ bitlen n) with hk | hk
  · rw [regularize_of_lt hk]; omega
  · rwa [regularize_of_le hk]

/-- A chosen `k + n` is at most `2n`, and a chosen `k + 2n` adds `n` to a value below `2^nb`. -/
theorem regularize_lt {k n : Nat} (h : k ≤ n) : regularize k n < 2 ^ (bitlen n + 1) := by
  have hn := lt_two_pow_bitlen n
  rw [Nat.pow_succ]
  rcases Nat.lt_or_ge (k + n) (2 ^ bitlen n) with hk | hk
  · rw [regularize_of_lt hk]; omega
  · rw [regularize_of_le hk]; omega

theorem regularize_mod (k n : Nat) : regularize k n % n = k % n := by
  rcases Nat.lt_or_ge (k + n) (2 ^ bitlen n) with hk | hk
  · rw [regularize_of_lt hk, Nat.add_mod_right, Nat.add_mod_right]
  · rw [regularize_of_le hk, Nat.add_mod_right]

/-! ## The iterations counted -/

@[simp] theorem LadderState.count_iterations (l : LadderState) : l.count.iterations = l.iterations + 1 := rfl

/-- A co-Z operation counts no iteration. -/
@[simp] theorem LadderState.apply_iterations (l : LadderState) (f : CoZPair → CoZPair) (i : Bool) :
    (l.apply f i).iterations = l.iterations := by
  cases i <;> rfl

@[simp] theorem ladderStart_iterations (mode : Mode) (p : Nat) (q : AffinePoint) :
    (ladderStart mode p q).iterations = 1 := rfl

@[simp] theorem ladderBits_iterations (p k : Nat) : ∀ (i : Nat) (l : LadderState),
    (ladderBits p k i l).iterations = l.iterations + i
  | 0, _ => rfl
  | i + 1, l => by
    rw [ladderBits, ladderBits_iterations p k i, LadderState.count_iterations, LadderState.apply_iterations,
      LadderState.apply_iterations, Nat.add_assoc, Nat.add_comm 1 i]

@[simp] theorem ladderFinish_snd (p k : Nat) (q : AffinePoint) (l : LadderState) :
    (ladderFinish p k q l).2 = l.iterations + 1 := by
  simp [ladderFinish]

/-- One iteration for the top bit, one for each bit between, one for the last bit: two bits or more are needed. -/
theorem ladder_snd (mode : Mode) (p : Nat) (q : AffinePoint) (k : Nat) {nbits : Nat} (h : 2 ≤ nbits) :
    (ladder mode p q k nbits).2 = nbits := by
  rw [ladder, ladderFinish_snd, ladderBits_iterations, ladderStart_iterations]
  omega

/-! ## The obligation -/

/-- Settles O44: the two bounds of R240 give the bit length (`bitlen_eq_succ`), and the ladder counts the bits that it
is given (`ladder_snd`). -/
theorem regularizationFixesTheIterationCount : Obligations.RegularizationFixesTheIterationCount := by
  intro k n hk hn
  have hlow := two_pow_bitlen_le_regularize k hn
  have hhigh := regularize_lt hk
  have hbits : 2 ≤ bitlen n + 1 := Nat.succ_le_succ (bitlen_pos hn)
  exact ⟨regularize_of_le, regularize_of_lt, hlow, hhigh, bitlen_eq_succ hlow hhigh, regularize_mod k n,
    fun mode p q => ladder_snd mode p q _ hbits⟩

end Sys2Proof.Machine
end

section
/-! The obligations on the encoding (30_encoding.md): the two round trips, and the opcode table's words. -/

namespace Sys2Proof

open Sys2Proof.Machine

/-- Every row fixes OPC whole (R116). -/
theorem setWidth_mask_of_mem_tableRows : ∀ r ∈ tableRows, r.mask.setWidth 8 = BitVec.allOnes 8 := by
  simp [tableRows]

/-- OPC is the low byte of the word (R111). -/
theorem setWidth_eq_opcOf (w : Limb) : w.setWidth 8 = opcOf w := by
  apply BitVec.eq_of_toNat_eq
  rw [toNat_opcOf, BitVec.toNat_setWidth]

/-- A word that matches a row has the row's opcode. -/
theorem opcodeLegal_of_fieldsLegal {w : Limb} (h : FieldsLegal w) : OpcodeLegal w := by
  obtain ⟨⟨r, hr, hmatch⟩, -⟩ := h
  have hopc := congrArg (BitVec.setWidth 8) hmatch
  rw [BitVec.setWidth_and, setWidth_mask_of_mem_tableRows r hr, BitVec.and_allOnes, setWidth_eq_opcOf] at hopc
  exact ⟨r, hr, hopc⟩

/-- Settles O1: each packed field reads back (`decode_encode`). -/
theorem decodeInvertsEncode : Obligations.DecodeInvertsEncode := fun _ => decode_encode

/-- Settles O2: an accepted word is the packing of its command's fields (`encode_of_decode`). -/
theorem encodeInvertsDecode : Obligations.EncodeInvertsDecode := fun _ _ => encode_of_decode

/-- Settles O6: the decoder's answers are the outcomes of the two checks (`decode_cases`), and a word that passes the
field check has a legal opcode. -/
theorem wordsDecodeByTheTable : Obligations.WordsDecodeByTheTable := by
  refine fun w => ⟨?_, fun ho hno => ?_⟩
  · rw [exists_decode_eq_ok_iff]
    exact ⟨And.right, fun hf => ⟨opcodeLegal_of_fieldsLegal hf, hf⟩⟩
  · refine (decode_eq_illegalField_iff w).mpr ⟨ho, fun hf => ?_⟩
    obtain ⟨i, hi⟩ := (exists_decode_eq_ok_iff w).mpr ⟨ho, hf⟩
    exact hno i hi

/-- Settles O4: the words are the encodings of the seven commands. -/
theorem sampleWordsDecode : Obligations.SampleWordsDecode :=
  ⟨decode_encode (i := .add 3 1 2) rfl, decode_encode (i := .mul 0 2 3) rfl, decode_encode (i := .ldc 8 .n) rfl,
    decode_encode (i := .mmod 2 0 7) rfl, decode_encode (i := .fred 3 0) rfl,
    decode_encode (i := .xyczaddc 0 1 2 3) rfl, decode_encode (i := .pmul 1 0 8) rfl⟩

end Sys2Proof
end

section
/-! What a command writes beside the operand registers: FLAGS, ITER and the draw counter, each only where the rules
list the command for it (R42, R45, R131). -/

namespace Sys2Proof.Machine

/-- From `s` to `t`, FLAGS, ITER and the draw counter change only where the rules list the command `i` for it. -/
structure WritesAsListed (i : Instr) (s t : State) : Prop where
  c : writesC i = false → t.flags.c = s.flags.c
  order : writesOrder i = false → t.flags.lt = s.flags.lt ∧ t.flags.eq = s.flags.eq ∧ t.flags.gt = s.flags.gt
  ni : writesNi i = false → t.flags.ni = s.flags.ni
  inf : writesInf i = false → t.flags.inf = s.flags.inf
  iter : t.iter = s.iter ∨ (∃ rdp rap rb, i = .pmul rdp rap rb) ∧ t.iter = BitVec.ofNat 64 (s.nbitsN + 1)
  draws : t.draws = if takesDraw i s then s.draws + 1 else s.draws

theorem WritesAsListed.of_kept {i : Instr} {s t : State} (hflags : t.flags = s.flags) (hiter : t.iter = s.iter)
    (hnone : takesDraw i s = false) (hdraws : t.draws = s.draws) : WritesAsListed i s t := by
  constructor <;> simp [hflags, hiter, hnone, hdraws]

/-- A point result takes a draw exactly where its operands are not valid. -/
theorem pointOrDraw_draws (s : State) (valid : Bool) (p : Pair) (q : AffinePoint) :
    (s.pointOrDraw valid p q).draws = if !valid then s.draws + 1 else s.draws := by
  cases valid <;> simp [State.pointOrDraw]

/-- Past PADD's check, a draw depends on the operands alone (R226). -/
theorem takesDraw_padd {s : State} (hc : s.curveOK = true) (rdp rap rbp : Pair) :
    takesDraw (.padd rdp rap rbp) s =
      !(s.curve.validPt (s.getPoint rap) && s.curve.validPt (s.getPoint rbp)) := by
  rw [takesDraw, hc, Bool.true_and]

/-- Past PMUL's checks, a draw depends on the operand alone (R241). -/
theorem takesDraw_pmul {s : State} {rb : Reg} (hc : s.curveOKn = true) (hv : (s.getV rb).toNat ≤ s.cn.toNat)
    (rdp rap : Pair) : takesDraw (.pmul rdp rap rb) s = !s.curve.validPt (s.getPoint rap) := by
  rw [takesDraw, hc, decide_eq_true hv, Bool.true_and, Bool.true_and]

/-- With every check passed a command writes what it is listed for and succeeds. -/
theorem exec_of_checks_pass_writesAsListed {s : State} {i : Instr} (hwf : i.wf = true) (hc : CurveCheckPasses s i)
    (hv : ValueCheckPasses s i) : ∃ u, exec i s = succeed u ∧ u.status = s.status ∧ WritesAsListed i s u := by
  cases i
  case add | sub =>
    refine ⟨_, rfl, by simp, ?_⟩
    constructor <;> simp [writesC, takesDraw]
  case cmpct | cmpvt =>
    refine ⟨_, rfl, by simp, ?_⟩
    constructor <;> simp [writesOrder, takesDraw]
  case wipe =>
    refine ⟨_, rfl, by simp, ?_⟩
    constructor <;> simp [writesC, writesOrder, writesNi, writesInf, takesDraw]
  case modinv =>
    refine ⟨_, if_pos hv, by simp, ?_⟩
    constructor <;> simp [writesNi, takesDraw]
  case padd rdp rap rbp =>
    refine ⟨_, if_pos hc, by simp, ?_⟩
    constructor
    case draws =>
      rw [takesDraw_padd hc]
      exact pointOrDraw_draws ..
    all_goals simp [writesInf]
  case pmul rdp rap rb =>
    refine ⟨_, (if_pos hc).trans (if_pos hv), by simp, ?_⟩
    constructor
    case draws =>
      rw [takesDraw_pmul hc hv]
      exact pointOrDraw_draws ..
    all_goals simp [writesInf]
  case mmod => exact ⟨_, if_pos hv, by simp, .of_kept rfl rfl rfl rfl⟩
  case fmul | fsqr | fred => exact ⟨_, if_pos hc, by simp, .of_kept rfl rfl rfl rfl⟩
  case dblj | xyczadd | xyczaddc =>
    exact ⟨_, (if_pos hwf).trans (if_pos hc), by simp, .of_kept rfl rfl rfl rfl⟩
  all_goals exact ⟨_, rfl, by simp, .of_kept rfl rfl rfl rfl⟩

/-- The in-place check stands before every other check of its commands (R118, R121). -/
theorem exec_of_not_wf {i : Instr} (s : State) (h : i.wf = false) : exec i s = fail s .illegalField := by
  cases i
  case dblj | xyczadd | xyczaddc => exact if_neg (Bool.eq_false_iff.mp h)
  all_goals cases h

/-- A draw is taken past the checks only (R131). -/
theorem checks_pass_of_takesDraw {i : Instr} {s : State} (h : takesDraw i s = true) :
    i.wf = true ∧ CurveCheckPasses s i ∧ ValueCheckPasses s i := by
  cases i
  case padd =>
    simp only [takesDraw, Bool.and_eq_true] at h
    exact ⟨rfl, h.1, trivial⟩
  case pmul =>
    simp only [takesDraw, Bool.and_eq_true, decide_eq_true_eq] at h
    exact ⟨rfl, h.1.1, h.1.2⟩
  all_goals cases h

/-- A command's two outcomes, with what it can write. -/
theorem exec_outcome {i : Instr} {s t : State} (h : exec i s = .next t) :
    WritesAsListed i s t ∧ (Done s t ∨ ∃ e, t = s.errorCompletion e) := by
  by_cases hok : i.wf = true ∧ CurveCheckPasses s i ∧ ValueCheckPasses s i
  · obtain ⟨hwf, hc, hv⟩ := hok
    obtain ⟨u, hu, hstatus, hw⟩ := exec_of_checks_pass_writesAsListed hwf hc hv
    refine ⟨?_, .inl (done_of_eq_succeed hu hstatus h)⟩
    rw [hu] at h
    cases h
    exact ⟨hw.c, hw.order, hw.ni, hw.inf, hw.iter, hw.draws⟩
  · have hfail : ∃ e, exec i s = fail s e := by
      cases hwf : i.wf with
      | false => exact ⟨_, exec_of_not_wf s hwf⟩
      | true =>
        by_cases hc : CurveCheckPasses s i
        · exact ⟨_, exec_of_not_valueCheckPasses hc fun hv => hok ⟨hwf, hc, hv⟩⟩
        · exact ⟨_, exec_of_not_curveCheckPasses hwf hc⟩
    obtain ⟨e, he⟩ := hfail
    rw [he] at h
    cases h
    have hdraw : takesDraw i s = false := Bool.eq_false_iff.mpr fun hd => hok (checks_pass_of_takesDraw hd)
    exact ⟨.of_kept rfl rfl hdraw rfl, .inr ⟨e, rfl⟩⟩

/-! ## The obligations -/

/-- The codes of the errors a command can fail with are 2 to 4 (R271). -/
theorem errorNumber_range_of_ne {e : ErrorCode} (h : e ≠ .illegalOpcode) :
    2 ≤ errorNumber e ∧ errorNumber e ≤ 4 := by
  revert h; cases e <;> decide

/-- Settles O14: the two outcomes of `exec_cases`. -/
theorem commandsSucceedOrFailWithoutEffect : Obligations.CommandsSucceedOrFailWithoutEffect := by
  intro i s
  rcases exec_cases i s with ⟨u, hu, hstatus, hkept, -⟩ | ⟨e, he, hf⟩
  · obtain ⟨-, -, -, -, -, -, -, -, herrcmd⟩ := hkept
    exact ⟨_, hu, .inl ⟨done_of_eq_succeed hu hstatus hu, herrcmd⟩⟩
  · obtain ⟨hlo, hhi⟩ := errorNumber_range_of_ne he
    exact ⟨_, hf, .inr ⟨_, hlo, hhi, failedWith_of_eq_fail rfl rfl⟩⟩

/-- Settles O15: a success keeps the control registers (`exec_cases`), an error completion writes STATUS and ERRCMD
only; CMDDROP is no bit that either writes. -/
theorem noCommandWritesTheDescriptor : Obligations.NoCommandWritesTheDescriptor := by
  intro i s t h
  rcases exec_cases i s with ⟨u, hu, hstatus, hkept, hsched, hresp⟩ | ⟨e, -, hf⟩
  · obtain ⟨hcp, hcn, hcb, hcgx, hcgy, hcfg, hcmd, hie, -⟩ := hkept
    rw [hu] at h
    cases h
    exact ⟨hcp, hcn, hcb, hcgx, hcgy, hcfg, hcmd, hie, hsched, hresp, by simp [hstatus]⟩
  · rw [hf] at h
    cases h
    simp

/-- Settles O16: `exec_outcome`; an error completion writes no flag. -/
theorem flagsHaveTheirWritersOnly : Obligations.FlagsHaveTheirWritersOnly := by
  intro i s t h
  obtain ⟨hw, hout⟩ := exec_outcome h
  refine ⟨hw.c, hw.order, hw.ni, hw.inf, fun hnot => ?_⟩
  obtain ⟨e, rfl⟩ := hout.resolve_left hnot
  rfl

theorem toNat_ofNat_nbitsN_succ (s : State) : (BitVec.ofNat 64 (s.nbitsN + 1)).toNat = s.nbitsN + 1 := by
  have := nbitsN_le s
  rw [BitVec.toNat_ofNat, Nat.mod_eq_of_lt (by omega)]

/-- Settles O17: an error completion keeps ITER, so a command that changes it is a PMUL that succeeded. -/
theorem onlyPmulWritesIter : Obligations.OnlyPmulWritesIter := by
  intro i s t h hne
  obtain ⟨hw, hout⟩ := exec_outcome h
  obtain ⟨hpmul, hiter⟩ := hw.iter.resolve_left hne
  refine ⟨hpmul, hout.resolve_right ?_, by rw [hiter, toNat_ofNat_nbitsN_succ]⟩
  rintro ⟨e, rfl⟩
  exact hne rfl

end Sys2Proof.Machine
end

section
/-! What a command reads: it commutes with a change of the fields that the rules do not let it read (R122, R131). -/

namespace Sys2Proof.Machine

/-- `f` applied to the state a command answers. -/
def mapNext (f : State → State) : Result → Result
  | .next s => .next (f s)
  | .fault r => .fault r
  | .refused r => .refused r

/-- Two meanings that make the same check commute with `f` if both of their outcomes do. -/
theorem ite_eq_mapNext_ite {p : Prop} [Decidable p] {f : State → State} {a a' b b' : Result}
    (ha : p → a' = mapNext f a) (hb : b' = mapNext f b) :
    (if p then a' else b') = mapNext f (if p then a else b) := by
  split
  · next h => exact ha h
  · exact hb

/-- `s` with another draw counter. -/
def withDraws (n : Nat) (s : State) : State := { s with draws := n }

/-- `s` with another descriptor and CFG. -/
def withDescriptor (p n b gx gy : Vli) (c : Cfg) (s : State) : State :=
  { s with cp := p, cn := n, cb := b, cgx := gx, cgy := gy, cfg := c }

/-- A result of valid operands does not depend on the draw counter. -/
theorem pointOrDraw_withDraws {s : State} {valid : Bool} (h : valid = true) (n : Nat) (p : Pair) (q : AffinePoint) :
    (withDraws n s).pointOrDraw valid p q = withDraws n (s.pointOrDraw valid p q) := by
  rw [h]
  rfl

/-- A command that takes no draw neither reads nor writes the draw counter (R131). -/
theorem exec_withDraws {i : Instr} {s : State} (n : Nat) (hnone : takesDraw i s = false) :
    exec i (withDraws n s) = mapNext (withDraws n) (exec i s) := by
  cases i
  case padd =>
    refine ite_eq_mapNext_ite (fun hok => ?_) rfl
    rw [takesDraw_padd (s := s) hok, Bool.not_eq_false'] at hnone
    exact congrArg succeed (pointOrDraw_withDraws hnone n _ _)
  case pmul rdp rap rb =>
    refine ite_eq_mapNext_ite (fun hok => ite_eq_mapNext_ite (fun hle => ?_) rfl) rfl
    rw [takesDraw_pmul (s := s) hok hle, Bool.not_eq_false'] at hnone
    exact congrArg (fun u => succeed (u.setIter (s.nbitsN + 1))) (pointOrDraw_withDraws hnone n _ _)
  case mmod | modinv | fmul | fsqr | fred => exact ite_eq_mapNext_ite (fun _ => rfl) rfl
  case dblj | xyczadd | xyczaddc =>
    exact ite_eq_mapNext_ite (fun _ => ite_eq_mapNext_ite (fun _ => rfl) rfl) rfl
  all_goals rfl

/-- The VLI commands but LDC and the modular commands neither read nor write the descriptor and CFG (R122). -/
theorem exec_withDescriptor {i : Instr} (hfree : descriptorFree i = true) (p n b gx gy : Vli) (c : Cfg) (s : State) :
    exec i (withDescriptor p n b gx gy c s) = mapNext (withDescriptor p n b gx gy c) (exec i s) := by
  cases i
  case ldc | fmul | fsqr | fred | dblj | xyczadd | xyczaddc | padd | pmul => cases hfree
  case mmod | modinv => exact ite_eq_mapNext_ite (fun _ => rfl) rfl
  all_goals rfl

/-- Settles O18: what a command draws is part of `exec_outcome`, and without a draw it commutes with a change of the
counter (`exec_withDraws`). -/
theorem onlyPointCommandsDraw : Obligations.OnlyPointCommandsDraw := by
  intro i s t h
  have hdraws := (exec_outcome h).1.draws
  refine ⟨fun hnone => ⟨?_, fun n => ?_⟩, fun hdraw => ?_⟩
  · rwa [hnone] at hdraws
  · exact (exec_withDraws n hnone).trans (congrArg (mapNext _) h)
  · rwa [hdraw] at hdraws

/-- Settles O19: such a command commutes with a change of the descriptor and CFG (`exec_withDescriptor`). -/
theorem integerCommandsIgnoreTheDescriptor : Obligations.IntegerCommandsIgnoreTheDescriptor := by
  intro i s t p n b gx gy c hfree h
  exact (exec_withDescriptor hfree p n b gx gy c s).trans (congrArg (mapNext _) h)

end Sys2Proof.Machine
end

section
/-! The step: the turn it takes, and the obligations on single turns (R81, R89, R92, R130, R270, R286, R310). -/

namespace Sys2Proof.Machine

/-! ## The turn a step takes -/

/-- A step is one turn, on the state that has the rest of the schedule: the engine's, or the first of the schedule. -/
theorem step_eq_runTurn (s : State) : ∃ turn rest, step s = runTurn turn { s with schedule := rest } ∧
    (turn = .engine ∨ s.schedule = turn :: rest) := by
  cases h : s.schedule with
  | nil => exact ⟨.engine, [], by rw [step_nil h, ← h]; rfl, .inl rfl⟩
  | cons turn rest => exact ⟨turn, rest, step_cons h, .inr rfl⟩

theorem runTurn_total (turn : Turn) (s : State) : ∃ t, runTurn turn s = .next t := by
  cases turn with
  | host tr => exact ⟨_, rfl⟩
  | engine => exact engineTurn_total s
  | reset cut => exact ⟨_, rfl⟩

theorem engineTurn_of_busy {s : State} (h : s.status.busy = true) : engineTurn s = engineStep s := by
  simp only [engineTurn, h]

theorem engineTurn_of_idle {s : State} (h : s.status.busy = false) : engineTurn s = .next s := by
  simp only [engineTurn, h]

theorem engineStep_of_decode_ok {s : State} {i : Instr} (h : decode s.cmd = .ok i) : engineStep s = exec i s := by
  simp only [engineStep, h]

/-- Where the engine moves next on a BUSY core, the step is its completion step. -/
theorem step_of_engineMovesNext_of_busy {s s' : State} (h : EngineMovesNext s s') (hb : s.status.busy = true) :
    step s = engineStep s' := by
  have hb' : s'.status.busy = true := by rw [eq_of_engineMovesNext h]; exact hb
  rw [step_engineMovesNext h, engineTurn_of_busy hb']

/-- Location 0x010 is CMD (R82), so a write there offers a command (R89). -/
theorem busWrite_cmd (s : State) (d : Limb) : s.busWrite 0x010 0xFF d = s.offer d :=
  busWrite_of_locate (l := .cmd) (by decide) (by decide)

theorem offer_of_pending {s : State} (d : Limb) (h : s.status.busy = true ∨ s.status.errv = true) :
    s.offer d = ({ s with status := { s.status with cmddrop := true } }, .slverr) :=
  if_pos (by simpa using h)

theorem offer_of_ready {s : State} (d : Limb) (hb : s.status.busy = false) (he : s.status.errv = false) :
    s.offer d = (s.acceptCommand d, .okay) :=
  if_neg (by simp [hb, he])

/-! ## The obligations on single turns -/

/-- Settles O11: every turn answers a next state (`runTurn_total`). -/
theorem everyStepHasANextState : Obligations.EveryStepHasANextState := by
  intro s
  obtain ⟨turn, rest, hstep, -⟩ := step_eq_runTurn s
  rw [hstep]
  exact runTurn_total turn _

/-- Settles O7: both forms of the schedule give the engine the next turn. -/
theorem stepRunsTheDecodedCommand : Obligations.StepRunsTheDecodedCommand := by
  intro s i hb hd
  have hrun {s' : State} (hmove : EngineMovesNext s s') : step s = exec i s' := by
    obtain ⟨hcmd, -⟩ := checks_of_engineMovesNext hmove
    rw [← hcmd] at hd
    rw [step_of_engineMovesNext_of_busy hmove hb, engineStep_of_decode_ok hd]
  exact ⟨fun hs => hrun (.inl ⟨hs, rfl⟩), fun rest hs => hrun (.inr ⟨rest, hs, rfl⟩)⟩

/-- Settles O8: the engine's turn is the error completion with the decoder's code. -/
theorem stepFailsAnUndecodableCommand : Obligations.StepFailsAnUndecodableCommand := by
  intro s s' e hmove hb hd
  obtain ⟨t, hstep, ht⟩ := step_eq_engineStep hmove hb
  obtain ⟨hcmd, -⟩ := checks_of_engineMovesNext hmove
  rw [← hcmd] at hd
  have hfail := failedWith_of_eq_fail (engineStep_of_decode_error hd) ht
  refine ⟨t, hstep, hfail, ?_, ?_⟩ <;>
  · rintro rfl
    rw [hfail]
    rfl

/-- Settles O9: a step is the first turn (`step_cons`), or the engine's (`step_nil`). -/
theorem stepTakesTheFirstTurn : Obligations.StepTakesTheFirstTurn := by
  refine ⟨fun s hs hb => ?_, fun s rest hs hb => ?_, fun s off lanes rest hs => step_cons hs,
    fun s s' t off lanes d resp rest hs hs' hw => ?_, fun s cut rest hs => step_cons hs⟩
  · rw [step_nil hs, engineTurn_of_idle hb]
  · exact (step_cons hs).trans (engineTurn_of_idle hb)
  · rw [step_cons hs, ← hs', runTurn, State.transact, hw]

/-- Settles O46: the response is no field that `busRead` reads. -/
theorem readsHaveNoSideEffect : Obligations.ReadsHaveNoSideEffect := by
  intro s off lanes rest hs
  refine ⟨_, step_cons hs, rfl, fun u hu => ?_⟩
  rw [step_cons rfl] at hu
  cases hu
  rfl

/-- Settles O48: the write is an offer (`busWrite_cmd`). -/
theorem commandOffer : Obligations.CommandOffer := by
  intro s d
  rw [busWrite_cmd]
  exact ⟨offer_of_pending d, offer_of_ready d⟩

/-- Settles O10: the offer is accepted (`offer_of_ready`), and the engine then moves next on the busy core. -/
theorem offeredCommandRuns : Obligations.OfferedCommandRuns := by
  intro s w rest hb he hs
  have hoffer := offer_of_ready (s := { s with schedule := .engine :: rest }) w hb he
  rw [← busWrite_cmd] at hoffer
  refine ⟨{ s with
    schedule := .engine :: rest
    cmd := w
    status := { s.status with done := false, busy := true }
    response := some (.write .okay) }, ?_, rfl, rfl, rfl, rfl, rfl, fun i hd => ?_, fun e hd => ?_⟩
  · rw [step_cons hs, runTurn, State.transact, hoffer]
    rfl
  · rw [step_cons rfl, runTurn, engineTurn_of_busy rfl, engineStep_of_decode_ok hd]
  · rw [step_cons rfl, runTurn, engineTurn_of_busy rfl, engineStep_of_decode_error hd]
    exact ⟨_, rfl, rfl, rfl, rfl, rfl, rfl⟩

end Sys2Proof.Machine
end

section
/-! Bounded completion (R47): a BUSY engine becomes IDLE, and without a reset its command completes. -/

namespace Sys2Proof.Machine

theorem run_succ {s t : State} (k : Nat) (h : step s = .next t) : core.run (k + 1) s = core.run k t := by
  have hstep : core.step s = .next t := h
  simp only [Host.Core.run, hstep]

theorem run_one {s t : State} (h : step s = .next t) : core.run 1 s = .next t := run_succ 0 h

/-- A host turn of a BUSY core changes the schedule, the response, IE and STATUS's other bits, and nothing else. -/
theorem step_host_of_busy {s : State} {tr : Transaction} {rest : List Turn} (hb : s.status.busy = true)
    (hs : s.schedule = .host tr :: rest) : ∃ r ie st, st.busy = true ∧
      step s = .next { s with schedule := rest, response := r, ie := ie, status := st } := by
  obtain ⟨r, ie, st, hst, ht⟩ := transact_busy (s := { s with schedule := rest }) hb tr
  exact ⟨r, ie, st, hst, by rw [step_cons hs, runTurn, ht]⟩

/-- A reset leaves the core IDLE. -/
theorem applyReset_busy (s : State) (cut : Bool) : (s.applyReset cut).status.busy = false := by
  obtain ⟨r, d, h⟩ := applyReset_eq s cut
  rw [h]
  rfl

/-- Every engine turn and every reset ends the wait, and the schedule has finitely many other turns. -/
theorem exists_run_idle (ts : List Turn) : ∀ s : State, s.status.busy = true → s.schedule = ts →
    ∃ k t, k ≤ ts.length + 1 ∧ core.run k s = .next t ∧ t.status.busy = false := by
  induction ts with
  | nil =>
    intro s _ hs
    obtain ⟨t, ht⟩ := engineTurn_total s
    exact ⟨1, t, le_rfl, run_one ((step_nil hs).trans ht), engineTurn_idle ht⟩
  | cons turn rest ih =>
    intro s hb hs
    cases turn with
    | engine =>
      obtain ⟨t, ht⟩ := engineTurn_total { s with schedule := rest }
      exact ⟨1, t, by simp, run_one ((step_cons hs).trans ht), engineTurn_idle ht⟩
    | reset cut => exact ⟨1, _, by simp, run_one (step_cons hs), applyReset_busy _ cut⟩
    | host tr =>
      obtain ⟨r, ie, st, hst, hstep⟩ := step_host_of_busy hb hs
      obtain ⟨k, t, hk, hrun, hidle⟩ :=
        ih { s with schedule := rest, response := r, ie := ie, status := st } hst rfl
      exact ⟨k + 1, t, by simpa using hk, (run_succ k hstep).trans hrun, hidle⟩

/-- Without a reset the engine's turn comes, on a core that the host's turns before it changed only where they can
change a BUSY one. -/
theorem exists_run_engineMovesNext (ts : List Turn) : ∀ s : State, s.status.busy = true → s.schedule = ts →
    (∀ cut, Turn.reset cut ∉ ts) →
    ∃ k t t', k ≤ ts.length ∧ core.run k s = .next t ∧ EngineMovesNext t t' ∧
      t' = { s with schedule := t'.schedule, response := t'.response, ie := t'.ie, status := t'.status } ∧
      t'.status.busy = true := by
  induction ts with
  | nil => exact fun s hb hs _ => ⟨0, s, s, le_rfl, rfl, .inl ⟨hs, rfl⟩, rfl, hb⟩
  | cons turn rest ih =>
    intro s hb hs hreset
    cases turn with
    | engine => exact ⟨0, s, { s with schedule := rest }, by simp, rfl, .inr ⟨rest, hs, rfl⟩, rfl, hb⟩
    | reset cut => exact absurd List.mem_cons_self (hreset cut)
    | host tr =>
      obtain ⟨r, ie, st, hst, hstep⟩ := step_host_of_busy hb hs
      obtain ⟨k, t, t', hk, hrun, hmove, hkept, hbusy⟩ :=
        ih { s with schedule := rest, response := r, ie := ie, status := st } hst rfl
          fun cut hmem => hreset cut (List.mem_cons_of_mem _ hmem)
      exact ⟨k + 1, t, t', by simpa using hk, (run_succ k hstep).trans hrun, hmove, hkept, hbusy⟩

/-- The engine's turn on a BUSY core completes the command (R271 to R273). -/
theorem engineTurn_completes {s u : State} (hb : s.status.busy = true) (h : engineTurn s = .next u) :
    Done s u ∨ ∃ code : BitVec 4, 1 ≤ code ∧ code ≤ 4 ∧ FailedWith code s u := by
  rcases engineTurn_next h with ⟨hidle, -⟩ | ⟨-, ⟨e, rfl⟩ | ⟨i, v, -, -, rfl, hstatus, -⟩⟩
  · rw [hb] at hidle
    cases hidle
  · obtain ⟨hlo, hhi⟩ := errorNumber_range e
    exact .inr ⟨_, hlo, hhi, failedWith_of_eq_fail rfl rfl⟩
  · exact .inl (by simp [Done, hstatus])

/-- Settles O12: the engine or a reset ends the wait (`exists_run_idle`), and without a reset the engine's turn comes
(`exists_run_engineMovesNext`) and completes the command. -/
theorem busyEngineCompletes : Obligations.BusyEngineCompletes := by
  refine fun s hb => ⟨exists_run_idle _ s hb rfl, fun hreset => ?_⟩
  obtain ⟨k, t, t', hk, hrun, hmove, hkept, hbusy⟩ := exists_run_engineMovesNext _ s hb rfl hreset
  obtain ⟨u, hu⟩ := engineTurn_total t'
  exact ⟨k, t, t', u, hk, hrun, hmove, hkept, hbusy, (step_engineMovesNext hmove).trans hu,
    engineTurn_completes hbusy hu⟩

end Sys2Proof.Machine
end

section
/-! What every step keeps: the invariant of the control registers, and the descriptor while LOCK = 1. -/

namespace Sys2Proof.Machine

/-! ## Consistency of STATUS under its updates -/

section
variable {st : Status} (h : st.Consistent)
include h

theorem consistent_success (hb : st.busy = true) : Status.Consistent { st with busy := false, done := true } := by
  obtain ⟨hcode, -, hbusy, -⟩ := h
  obtain ⟨-, herrv⟩ := hbusy hb
  simp [Status.Consistent, herrv, hcode]

theorem consistent_error (hb : st.busy = true) (e : ErrorCode) :
    Status.Consistent { st with busy := false, errv := true, errcode := errorNumber e } := by
  obtain ⟨-, -, hbusy, -⟩ := h
  obtain ⟨hdone, -⟩ := hbusy hb
  simp [Status.Consistent, hdone, errorNumber_range]

theorem consistent_accept (he : st.errv = false) : Status.Consistent { st with done := false, busy := true } := by
  obtain ⟨hcode, -⟩ := h
  simp [Status.Consistent, he, hcode]

end

/-- The acknowledgement keeps the error or clears it whole, and sets nothing (R90). -/
theorem consistent_acknowledge {s : State} (h : s.status.Consistent) (d : Limb) :
    (s.acknowledge d).status.Consistent := by
  obtain ⟨hcode, hrange, hbusy, hexcl⟩ := h
  have hdone : (s.acknowledge d).status.done = true → s.status.done = true := Bool.and_elim_left
  have hbusy' (hb : s.status.busy = true) : (s.acknowledge d).status.done = false :=
    Bool.eq_false_iff.mpr fun hd => Bool.eq_false_iff.mp (hbusy hb).1 (hdone hd)
  cases hd : d.getLsbD 2 with
  | true =>
    have herrv := acknowledge_errv_of_getLsbD (s := s) hd
    have hnot : ¬(s.acknowledge d).status.errv = true := Bool.eq_false_iff.mp herrv
    exact ⟨fun _ => acknowledge_errcode_of_getLsbD hd, fun he => absurd he hnot, fun hb => ⟨hbusy' hb, herrv⟩,
      fun hde => hnot hde.2⟩
  | false =>
    obtain ⟨herrv, herrcode⟩ := acknowledge_error_of_not_getLsbD (s := s) hd
    rw [Status.Consistent, herrv, herrcode]
    exact ⟨hcode, hrange, fun hb => ⟨hbusy' hb, (hbusy hb).2⟩, fun hde => hexcl ⟨hdone hde.1, hde.2⟩⟩

/-! ## The comparison flags -/

/-- A comparison sets one order flag only. -/
theorem orderExclusive_setOrder (s : State) (a b : Vli) : (s.setOrder a b).flags.OrderExclusive := by
  simp [Flags.OrderExclusive]
  omega

/-- Every command keeps the comparison flags exclusive: only the compares and WIPE write them. -/
theorem exec_orderExclusive {i : Instr} {s t : State} (h : exec i s = .next t) (hs : s.flags.OrderExclusive) :
    t.flags.OrderExclusive := by
  cases hw : writesOrder i with
  | false =>
    obtain ⟨hlt, heq, hgt⟩ := (exec_outcome h).1.order hw
    rwa [Flags.OrderExclusive, hlt, heq, hgt]
  | true =>
    cases i
    case cmpct | cmpvt =>
      cases h
      exact orderExclusive_setOrder ..
    case wipe =>
      cases h
      simp [Flags.OrderExclusive, State.reset]
    all_goals cases hw

/-- ITER is a count of at most 257 iterations (R282). -/
theorem exec_iter_le {i : Instr} {s t : State} (h : exec i s = .next t) (hs : s.iter.toNat ≤ 257) :
    t.iter.toNat ≤ 257 := by
  have hn := nbitsN_le s
  rcases (exec_outcome h).1.iter with hkept | ⟨-, hpmul⟩
  · rwa [hkept]
  · rw [hpmul, toNat_ofNat_nbitsN_succ]
    omega

/-! ## The invariant -/

theorem inv_reset : State.reset.Inv := by
  simp [State.Inv, Status.Consistent, Flags.OrderExclusive, State.reset]

/-- An update keeps the invariant if it keeps STATUS consistent and writes neither FLAGS nor ITER. -/
theorem State.Inv.of_consistent {s t : State} (h : s.Inv) (hst : t.status.Consistent) (hf : t.flags = s.flags)
    (hi : t.iter = s.iter) : t.Inv := by
  obtain ⟨-, hflags, hiter⟩ := h
  exact ⟨hst, hf ▸ hflags, hi ▸ hiter⟩

theorem engineTurn_keeps_inv {s t : State} (hs : s.Inv) (h : engineTurn s = .next t) : t.Inv := by
  obtain ⟨hstatus, hflags, hiter⟩ := id hs
  rcases engineTurn_next h with ⟨-, rfl⟩ | ⟨hb, ⟨e, rfl⟩ | ⟨i, u, -, hexec, rfl, hu, -⟩⟩
  · exact hs
  · exact hs.of_consistent (consistent_error hstatus hb e) rfl rfl
  · refine ⟨?_, exec_orderExclusive hexec hflags, exec_iter_le hexec hiter⟩
    rw [← hu] at hstatus hb
    exact consistent_success hstatus hb

/-- A descriptor write keeps every other register. -/
theorem setDesc_fields (s : State) (r : Desc) (x : Vli) :
    (s.setDesc r x).status = s.status ∧ (s.setDesc r x).flags = s.flags ∧ (s.setDesc r x).iter = s.iter ∧
      (s.setDesc r x).cfg = s.cfg := by
  cases r <;> exact ⟨rfl, rfl, rfl, rfl⟩

theorem busWrite_keeps_inv {s : State} (hs : s.Inv) (off : BitVec 12) (lanes : BitVec 8) (d : Limb) :
    (s.busWrite off lanes d).1.Inv := by
  obtain ⟨hstatus, -⟩ := id hs
  rcases busWrite_cases s off lanes d with
    e | ⟨-, -, c, e⟩ | ⟨-, e⟩ | ⟨-, herrv, e⟩ | e | e | ⟨-, -, r, x, e⟩ | ⟨-, r, x, e⟩ <;> rw [e]
  · exact hs
  · exact hs.of_consistent hstatus rfl rfl
  · exact hs.of_consistent hstatus rfl rfl
  · exact hs.of_consistent (consistent_accept hstatus herrv) rfl rfl
  · exact hs.of_consistent (consistent_acknowledge hstatus d) rfl rfl
  · exact hs.of_consistent hstatus rfl rfl
  · obtain ⟨hst, hf, hi, -⟩ := setDesc_fields s r x
    exact hs.of_consistent (hst ▸ hstatus) hf hi
  · exact hs.of_consistent hstatus rfl rfl

theorem runTurn_keeps_inv {turn : Turn} {s t : State} (hs : s.Inv) (h : runTurn turn s = .next t) : t.Inv := by
  cases turn with
  | engine => exact engineTurn_keeps_inv hs h
  | host tr =>
    cases h
    obtain ⟨r, e | ⟨off, lanes, d, e⟩⟩ := transact_cases s tr <;> rw [e]
    · exact hs
    · exact busWrite_keeps_inv hs off lanes d
  | reset cut =>
    cases h
    obtain ⟨r, d, e⟩ := applyReset_eq s cut
    rw [e]
    exact inv_reset

/-- Settles O60. -/
theorem resetHasTheInvariant : Obligations.ResetHasTheInvariant := inv_reset

/-- Settles O59: every turn keeps the invariant, which does not read the schedule. -/
theorem stepKeepsTheInvariant : Obligations.StepKeepsTheInvariant := by
  intro s t hs h
  obtain ⟨turn, rest, hstep, -⟩ := step_eq_runTurn s
  rw [hstep] at h
  exact runTurn_keeps_inv (s := { s with schedule := rest }) hs h

/-! ## The descriptor while LOCK = 1 -/

/-- The descriptor and CFG are the same in `t` as in `s`. -/
def DescriptorKept (s t : State) : Prop :=
  t.cp = s.cp ∧ t.cn = s.cn ∧ t.cb = s.cb ∧ t.cgx = s.cgx ∧ t.cgy = s.cgy ∧ t.cfg = s.cfg

theorem engineTurn_descriptorKept {s t : State} (h : engineTurn s = .next t) : DescriptorKept s t := by
  rcases engineTurn_next h with ⟨-, rfl⟩ | ⟨-, ⟨e, rfl⟩ | ⟨i, u, -, -, rfl, -, hkept, -⟩⟩
  · exact ⟨rfl, rfl, rfl, rfl, rfl, rfl⟩
  · exact ⟨rfl, rfl, rfl, rfl, rfl, rfl⟩
  · obtain ⟨hcp, hcn, hcb, hcgx, hcgy, hcfg, -⟩ := hkept
    exact ⟨hcp, hcn, hcb, hcgx, hcgy, hcfg⟩

/-- While LOCK = 1 no write reaches the descriptor or CFG (R39, R88). -/
theorem busWrite_descriptorKept {s : State} (hlock : s.cfg.lock = true) (off : BitVec 12) (lanes : BitVec 8)
    (d : Limb) : DescriptorKept s (s.busWrite off lanes d).1 := by
  rcases busWrite_cases s off lanes d with
    e | ⟨-, hfree, -⟩ | ⟨-, e⟩ | ⟨-, -, e⟩ | e | e | ⟨-, hfree, -⟩ | ⟨-, r, x, e⟩
  case inr.inl | inr.inr.inr.inr.inr.inr.inl =>
    rw [hlock] at hfree
    cases hfree
  all_goals
    rw [e]
    exact ⟨rfl, rfl, rfl, rfl, rfl, rfl⟩

theorem runTurn_descriptorKept {turn : Turn} {s t : State} (hlock : s.cfg.lock = true)
    (hreset : ∀ cut, turn ≠ .reset cut) (h : runTurn turn s = .next t) : DescriptorKept s t := by
  cases turn with
  | engine => exact engineTurn_descriptorKept h
  | reset cut => exact absurd rfl (hreset cut)
  | host tr =>
    cases h
    obtain ⟨r, e | ⟨off, lanes, d, e⟩⟩ := transact_cases s tr <;> rw [e]
    · exact ⟨rfl, rfl, rfl, rfl, rfl, rfl⟩
    · exact busWrite_descriptorKept hlock off lanes d

/-- Settles O56: the step's turn is no reset, and any other keeps the descriptor and CFG
(`runTurn_descriptorKept`). -/
theorem lockFreezesTheDescriptor : Obligations.LockFreezesTheDescriptor := by
  intro s t hlock hreset h
  obtain ⟨turn, rest, hstep, hturn⟩ := step_eq_runTurn s
  have hnot : ∀ cut, turn ≠ .reset cut := by
    rintro cut rfl
    exact hreset cut rest (hturn.resolve_left nofun)
  rw [hstep] at h
  obtain ⟨hcp, hcn, hcb, hcgx, hcgy, hcfg⟩ :=
    runTurn_descriptorKept (s := { s with schedule := rest }) hlock hnot h
  exact ⟨hcp, hcn, hcb, hcgx, hcgy, congrArg Cfg.mode hcfg, (congrArg Cfg.lock hcfg).trans hlock⟩

/-! ## Reset -/

/-- Settles O57: closed facts of the reset state, but for its operand registers (`getV_wiped`). -/
theorem resetValues : Obligations.ResetValues := by
  refine ⟨getV_wiped State.reset, rfl, rfl, rfl, rfl, rfl, by decide, by decide, rfl, by decide, by decide, by decide,
    rfl, rfl, rfl, rfl, by decide, by decide⟩

/-- Settles O58: the reset state in all but the model's own fields (`applyReset_eq`). -/
theorem resetTurnRestoresEveryRegister : Obligations.ResetTurnRestoresEveryRegister := by
  intro s cut rest hs
  obtain ⟨r, d, e⟩ := applyReset_eq { s with schedule := rest } cut
  refine ⟨_, step_cons hs, ?_, ?_⟩ <;> rw [e]
  rfl

end Sys2Proof.Machine
end

section
/-! The compares (40_vli.md R148, R149), and the two laws that need two commands: MODADD undoes MODSUB (41_modular.md
R183), and FMUL of a value and its inverse is 1 (42_field.md R201). -/

namespace Sys2Proof.Machine

/-! ## Compares -/

/-- Exactly one of the three orders holds. -/
theorem count_order_flags (a b : Nat) : [decide (a < b), decide (a = b), decide (b < a)].count true = 1 := by
  rcases lt_trichotomy a b with h | h | h
  · simp [h, h.ne, h.not_gt]
  · simp [h]
  · simp [h, h.ne', h.not_gt]

theorem compareRegs_setsOneOrderFlag (ra rb : Reg) (s : State) :
    ∃ t, compareRegs ra rb s = .next t ∧ SetsOneOrderFlag ra rb s t := by
  refine ⟨_, rfl, by simp, by simp [BitVec.toNat_inj], by simp, ?_, by simp, by simp, by simp, by simp, by simp,
    by simp [ControlKept], by simp [Done]⟩
  exact count_order_flags _ _

/-- The compares use no RD field, so it is zero (R117). -/
theorem decode_compare_of_rd_ne_zero {w : Limb} (ho : opcOf w = 0x07#8 ∨ opcOf w = 0x08#8) (hd : rdOf w ≠ 0) :
    decode w = .error .illegalField := by
  have hd' : rdOf w ≠ 0#4 := hd
  rcases ho with h | h <;> simp [decode, h, hd', accept]

/-- Settles O25: both commands are the same comparison. -/
theorem comparesSetOneOrderFlag : Obligations.ComparesSetOneOrderFlag := by
  refine ⟨fun ra rb => ⟨decode_encode (i := .cmpct ra rb) rfl, decode_encode (i := .cmpvt ra rb) rfl, fun s => ?_⟩,
    fun w => decode_compare_of_rd_ne_zero⟩
  exact ⟨compareRegs_setsOneOrderFlag ra rb s, compareRegs_setsOneOrderFlag ra rb s⟩

/-! ## MODADD after MODSUB -/

/-- For canonical operands the sum undoes the difference. -/
theorem modadd_modsub {a b m : Nat} (ha : a < m) (hb : b < m) (hm : m ≤ 2 ^ 256) :
    modadd (modsub a b m) b m = a := by
  rw [modadd_canonical (modsub_canonical_lt ha hb hm) hb hm]
  have hsum : ((modsub a b m : Int) + b) % m = a := by
    rw [modsub_canonical ha hb hm, Int.emod_add_emod, Int.sub_add_cancel]
    exact Int.emod_eq_of_lt (Int.natCast_nonneg a) (Int.ofNat_lt.mpr ha)
  exact_mod_cast hsum

/-- Settles O28: MODADD reads the same `b` and modulus after MODSUB has written another register. -/
theorem modaddUndoesModsub : Obligations.ModaddUndoesModsub := by
  intro s rd re ra rb rc hb hc hlta hltb
  obtain ⟨t, ht, hval, hkept, -⟩ := succeed_setVNat s rd
    (modsub_lt (s.getV ra).toNat (s.getV rb).toNat (s.getV rc).toNat)
  obtain ⟨u, hu, hsum, -⟩ := succeed_setVNat t re
    (modadd_lt (t.getV rd).toNat (t.getV rb).toNat (t.getV rc).toNat)
  refine ⟨t, u, ht, hu, BitVec.eq_of_toNat_eq ?_⟩
  rw [hsum, hval, hkept rb (by simpa using hb.symm), hkept rc (by simpa using hc.symm)]
  exact modadd_modsub hlta hltb (getV_toNat_lt s rc).le

/-! ## FMUL after MODINV -/

/-- Settles O32: below a prime CP every positive value is coprime to it, so MODINV writes an inverse (`modinv_spec`);
FMUL then reads it beside the value, with the same CP. -/
theorem fmulOfTheInverseIsOne : Obligations.FmulOfTheInverseIsOne := by
  intro s rd re ra rc hda hok hprime hrc hpos hlt
  obtain ⟨hodd, -⟩ := curveOK_odd hok
  have hm : 2 ≤ s.cp.toNat := hprime.two_le
  have hcop : Nat.gcd ((s.getV ra).toNat % s.cp.toNat) s.cp.toNat = 1 := by
    rw [Nat.mod_eq_of_lt hlt]
    exact (Nat.coprime_of_lt_prime (by omega) hlt hprime).symm
  obtain ⟨hni, -, hinv⟩ := (modinv_spec (s.getV ra).toNat _ hm).1 hcop
  obtain ⟨t, ht, hval, hflags, hkept, -, hcontrol, -⟩ := succeed_setVNat_setNoInverse s rd
    (modinv (s.getV ra).toNat s.cp.toNat).2 ((modinv_lt (s.getV ra).toNat _ hm).trans s.cp.isLt)
  obtain ⟨hcp, -, -, -, -, hcfg, -⟩ := hcontrol
  obtain ⟨u, hu, -, hprod⟩ := exec_of_eq_setVNat_fred (i := .fmul re ra rd) rfl ((curveOK_congr hcp hcfg).trans hok)
  refine ⟨t, u, ?_, hu, by rw [hflags, hni], BitVec.eq_of_toNat_eq ?_⟩
  · have hcheck : (s.getV rc).toNat % 2 = 1 ∧ (s.getV rc).toNat ≠ 1 := by
      rw [hrc]
      omega
    rw [← hrc] at ht
    exact (if_pos hcheck).trans ht
  · rw [hprod, hval, hcp, hkept ra (by simpa using hda.symm)]
    exact hinv

end Sys2Proof.Machine
end

section
/-! The in-place point commands (43_point.md R223 to R225): the formulas' values reach the registers untruncated. -/

namespace Sys2Proof.Machine

/-- A failed in-place check is ILLEGAL_FIELD, code 2, and changes nothing else (R118, R272). -/
theorem exec_failedWith_illegalField {i : Instr} (s : State) (h : i.wf = false) :
    ∃ t, exec i s = .next t ∧ FailedWith 2 s t :=
  ⟨_, exec_of_not_wf s h, rfl⟩

/-- A word whose command would have repeated in-place registers is ILLEGAL_FIELD (R118, R121). -/
theorem decode_encode_of_not_wf {i : Instr} (h : i.wf = false) : decode (encode i) = .error .illegalField := by
  cases i
  case dblj | xyczadd | xyczaddc => simp [decode, encode, accept, h]
  all_goals cases h

/-! ## What the commands leave -/

/-- Writing back what the three registers hold changes nothing. -/
theorem setJacobian_getJacobian_v (s : State) (a b c : Reg) : (s.setJacobian a b c (s.getJacobian a b c)).v = s.v := by
  refine v_ext fun r => ?_
  simp only [State.setJacobian, State.getJacobian, getV_setVNat, BitVec.ofNat_toNat, BitVec.setWidth_eq]
  split
  · next h => rw [h]
  · split
    · next h => rw [h]
    · split
      · next h => rw [h]
      · rfl

theorem writesOnly_setJacobian (s : State) (a b c : Reg) (q : Jacobian) :
    WritesOnly [a, b, c] s (s.setJacobian a b c q).successCompletion :=
  writesOnly_successCompletion fun _ hr => getV_setJacobian_of_notMem s q hr

theorem writesOnly_setCoZ (s : State) (a b c d : Reg) (q : CoZPair) :
    WritesOnly [a, b, c, d] s (s.setCoZ a b c d q).successCompletion :=
  writesOnly_successCompletion fun _ hr => getV_setCoZ_of_notMem s q hr

/-- CP as a modulus of the formulas: positive, and no more than a register holds. -/
theorem curveOK_bounds {s : State} (h : s.curveOK = true) : 0 < s.cp.toNat ∧ s.cp.toNat ≤ 2 ^ 256 := by
  obtain ⟨-, hthree⟩ := curveOK_odd h
  have := s.cp.isLt
  omega

/-- DBLJ past its checks. -/
theorem exec_dblj {s : State} {rx ry rz : Reg} (hd : [rx, ry, rz].Nodup) (hok : s.curveOK = true) :
    exec (.dblj rx ry rz) s = succeed (s.setJacobian rx ry rz
      (doubleJacobian s.cfg.mode s.cp.toNat (s.getJacobian rx ry rz))) :=
  (if_pos ((nodup3_iff rx ry rz).mp hd)).trans (if_pos hok)

/-- DBLJ leaves the doubling formula's values. -/
theorem exec_dblj_spec {s : State} {rx ry rz : Reg} (hd : [rx, ry, rz].Nodup) (hok : s.curveOK = true) :
    ∃ t, exec (.dblj rx ry rz) s = .next t ∧ WritesOnly [rx, ry, rz] s t ∧ (s.getV rz = 0 → t.v = s.v) ∧
      (s.getV rz ≠ 0 → t.getJacobian rx ry rz =
        doubleJacobian s.cfg.mode s.cp.toNat (s.getJacobian rx ry rz)) := by
  obtain ⟨hpos, hle⟩ := curveOK_bounds hok
  refine ⟨_, exec_dblj hd hok, writesOnly_setJacobian .., fun hz => ?_, fun hz => ?_⟩
  · have hz' : (s.getJacobian rx ry rz).z = 0 := congrArg BitVec.toNat hz
    rw [doubleJacobian_of_z_eq_zero _ _ hz']
    exact setJacobian_getJacobian_v s rx ry rz
  · have hz' : (s.getJacobian rx ry rz).z ≠ 0 := fun h => hz (BitVec.eq_of_toNat_eq h)
    obtain ⟨hx, hy, hz⟩ := doubleJacobian_lt s.cfg.mode hpos hle hz'
    exact getJacobian_setJacobian s hd _ hx hy hz

/-- XYCZADD leaves the co-Z formula's values. -/
theorem exec_xyczadd_spec {s : State} {a b c d : Reg} (hd : [a, b, c, d].Nodup) (hok : s.curveOK = true) :
    ∃ t, exec (.xyczadd a b c d) s = .next t ∧ WritesOnly [a, b, c, d] s t ∧
      t.getCoZ a b c d = coZAdd s.cp.toNat (s.getCoZ a b c d) := by
  obtain ⟨hpos, hle⟩ := curveOK_bounds hok
  obtain ⟨hx1, hy1, hx2, hy2⟩ := coZAdd_lt hpos hle (s.getCoZ a b c d)
  exact ⟨_, (if_pos ((nodup4_iff a b c d).mp hd)).trans (if_pos hok), writesOnly_setCoZ ..,
    getCoZ_setCoZ s hd _ hx1 hy1 hx2 hy2⟩

/-- XYCZADDC leaves the conjugate formula's values. -/
theorem exec_xyczaddc_spec {s : State} {a b c d : Reg} (hd : [a, b, c, d].Nodup) (hok : s.curveOK = true) :
    ∃ t, exec (.xyczaddc a b c d) s = .next t ∧ WritesOnly [a, b, c, d] s t ∧
      t.getCoZ a b c d = coZAddConjugate s.cp.toNat (s.getCoZ a b c d) := by
  obtain ⟨hx1, hy1, hx2, hy2⟩ := coZAddConjugate_lt s.cp.toNat (s.getCoZ a b c d)
  exact ⟨_, (if_pos ((nodup4_iff a b c d).mp hd)).trans (if_pos hok), writesOnly_setCoZ ..,
    getCoZ_setCoZ s hd _ hx1 hy1 hx2 hy2⟩

/-- With equal x the re-expressed point of XYCZADD is `(0, 0)` (R224). -/
theorem coZAdd_p1_of_eq_x (p : Nat) {q : CoZPair} (h : q.p1.x = q.p2.x) : (coZAdd p q).p1 = ⟨0, 0⟩ := by
  simp [coZAdd, h, fsub, modsub_self, fsqr, fmul, fred, mmod]

/-! ## The obligations -/

theorem wf_dblj_of_not_nodup {a b c : Reg} (h : ¬[a, b, c].Nodup) : (Instr.dblj a b c).wf = false :=
  Bool.eq_false_iff.mpr fun hwf => h ((nodup3_iff a b c).mpr hwf)

theorem distinct4_of_not_nodup {a b c d : Reg} (h : ¬[a, b, c, d].Nodup) : distinct4 a b c d = false :=
  Bool.eq_false_iff.mpr fun hwf => h ((nodup4_iff a b c d).mpr hwf)

/-- Settles O33: the formula's values past the checks (`exec_dblj_spec`), and the two errors. -/
theorem dbljWritesTheDoubling : Obligations.DbljWritesTheDoubling := by
  refine fun rx ry rz => ⟨fun hd => ?_, fun hd => ?_⟩
  · have hwf : (Instr.dblj rx ry rz).wf = true := (nodup3_iff rx ry rz).mp hd
    exact ⟨decode_encode hwf, fun s hok => exec_dblj_spec hd hok,
      fun s hok => exec_failedWith_curve hwf (Bool.eq_false_iff.mp hok)⟩
  · have hwf := wf_dblj_of_not_nodup hd
    exact ⟨decode_encode_of_not_wf hwf, fun s => exec_failedWith_illegalField s hwf⟩

/-- Settles O34: the formula's values past the checks (`exec_xyczadd_spec`), and the two errors. -/
theorem xyczaddWritesTheFormula : Obligations.XyczaddWritesTheFormula := by
  refine fun a b c d => ⟨fun hd => ?_, fun hd => ?_⟩
  · have hwf : (Instr.xyczadd a b c d).wf = true := (nodup4_iff a b c d).mp hd
    refine ⟨decode_encode hwf, fun s hok => ?_, fun s hok => exec_failedWith_curve hwf (Bool.eq_false_iff.mp hok)⟩
    obtain ⟨t, ht, hframe, hval⟩ := exec_xyczadd_spec hd hok
    refine ⟨t, ht, hframe, hval, fun hx => ?_⟩
    have hzero := coZAdd_p1_of_eq_x s.cp.toNat (q := s.getCoZ a b c d) (congrArg BitVec.toNat hx)
    rw [← hval] at hzero
    exact ⟨BitVec.eq_of_toNat_eq (congrArg AffinePoint.x hzero), BitVec.eq_of_toNat_eq (congrArg AffinePoint.y hzero)⟩
  · have hwf : (Instr.xyczadd a b c d).wf = false := distinct4_of_not_nodup hd
    exact ⟨decode_encode_of_not_wf hwf, fun s => exec_failedWith_illegalField s hwf⟩

/-- Settles O35: the two formulas agree on the sum (`coZAddConjugate_p2`). -/
theorem xyczaddcWritesTheFormula : Obligations.XyczaddcWritesTheFormula := by
  refine fun a b c d => ⟨fun hd => ?_, fun hd => ?_⟩
  · have hwf : (Instr.xyczaddc a b c d).wf = true := (nodup4_iff a b c d).mp hd
    refine ⟨decode_encode hwf, fun s hok => ?_, fun s hok => exec_failedWith_curve hwf (Bool.eq_false_iff.mp hok)⟩
    obtain ⟨hpos, hle⟩ := curveOK_bounds hok
    obtain ⟨t, ht, hframe, hval⟩ := exec_xyczaddc_spec hd hok
    obtain ⟨u, hu, -, hval'⟩ := exec_xyczadd_spec hd hok
    have hsum : (t.getCoZ a b c d).p2 = (u.getCoZ a b c d).p2 := by
      rw [hval, hval', coZAddConjugate_p2 hpos hle]
    exact ⟨t, u, ht, hframe, hval, hu, BitVec.eq_of_toNat_eq (congrArg AffinePoint.x hsum),
      BitVec.eq_of_toNat_eq (congrArg AffinePoint.y hsum)⟩
  · have hwf : (Instr.xyczaddc a b c d).wf = false := distinct4_of_not_nodup hd
    exact ⟨decode_encode_of_not_wf hwf, fun s => exec_failedWith_illegalField s hwf⟩

end Sys2Proof.Machine
end

section
/-! Points in pairs, and canonical points (43_point.md R220, R221): what a point command leaves (R226, R241). -/

namespace Sys2Proof.Machine

/-! ## Canonical points -/

/-- Both coordinates are below CP. -/
def Curve.Canonical (c : Curve) (q : AffinePoint) : Prop := q.x < c.p ∧ q.y < c.p

theorem canonical_infinity {c : Curve} (hp : 0 < c.p) : c.Canonical infinity := ⟨hp, hp⟩

theorem canonical_of_validPt {c : Curve} (hp : 0 < c.p) {q : AffinePoint} (h : c.validPt q = true) :
    c.Canonical q := by
  by_cases hq : q = infinity
  · rw [hq]
    exact canonical_infinity hp
  · have hon : c.onCurve q = true := by simpa [Curve.validPt, hq] using h
    obtain ⟨hx, hy, -⟩ := (onCurve_iff c q).mp hon
    exact ⟨hx, hy⟩

/-- The group law's formulas reduce their results modulo CP, whatever inverse they use (R221). -/
theorem canonical_add {c : Curve} (hp : 0 < c.p) {q1 q2 : AffinePoint} (h1 : c.Canonical q1) (h2 : c.Canonical q2) :
    c.Canonical (c.add q1 q2) := by
  unfold Curve.add
  split
  · exact h2
  · split
    · exact h1
    · split
      · exact canonical_infinity hp
      · obtain ⟨hx, hy, -⟩ := reflectedThird_spec c hp (c.slope q1.x q1.y q2.x q2.y) q1.x q1.y q2.x
        exact ⟨hx, hy⟩

theorem canonical_smul {c : Curve} (hp : 0 < c.p) {q : AffinePoint} (hq : c.Canonical q) :
    ∀ k, c.Canonical (c.smul k q)
  | 0 => canonical_infinity hp
  | k + 1 => canonical_add hp (canonical_smul hp hq k) hq

/-! ## What a point result leaves -/

/-- A point that a pair holds without truncation. -/
def AffinePoint.Fits (q : AffinePoint) : Prop := q.x < 2 ^ 256 ∧ q.y < 2 ^ 256

theorem fits_of_canonical {s : State} {q : AffinePoint} (h : s.curve.Canonical q) : q.Fits :=
  ⟨h.1.trans s.cp.isLt, h.2.trans s.cp.isLt⟩

/-- A pair holds `O` when both of its registers are 0 (R220). -/
theorem getPoint_eq_infinity_iff (s : State) (p : Pair) :
    s.getPoint p = infinity ↔ s.getV (loReg p) = 0 ∧ s.getV (hiReg p) = 0 := by
  simp [State.getPoint, infinity, ← BitVec.toNat_inj]

theorem othersKept_setPoint (s : State) (p : Pair) (q : AffinePoint) :
    OthersKept [loReg p, hiReg p] s (s.setPoint p q) := by
  intro r hr
  obtain ⟨hlo, hhi⟩ : r ≠ loReg p ∧ r ≠ hiReg p := by simpa using hr
  rw [getV_setPoint, if_neg hhi, if_neg hlo]

/-- A point result is some point, the given one if its operands are valid, with FLAGS.INF for it. -/
theorem pointOrDraw_eq (s : State) (valid : Bool) (p : Pair) {r : AffinePoint} (hr : valid = true → r.Fits) :
    ∃ q : AffinePoint, q.Fits ∧ (valid = true → q = r) ∧ (s.pointOrDraw valid p r).v = (s.setPoint p q).v ∧
      (s.pointOrDraw valid p r).flags = { s.flags with inf := decide (q = infinity) } := by
  cases valid with
  | true => exact ⟨r, hr rfl, fun _ => rfl, rfl, rfl⟩
  | false =>
    have hdraw : s.drawnPoint.Fits := ⟨BitVec.isLt _, BitVec.isLt _⟩
    exact ⟨s.drawnPoint, hdraw, nofun, rfl, rfl⟩

/-- The completion of a point result, whatever else beside the operand registers and FLAGS it writes. -/
theorem pointFrame_of_pointOrDraw {s t : State} {valid : Bool} {p : Pair} {r : AffinePoint}
    (hr : valid = true → r.Fits) (hv : t.v = (s.pointOrDraw valid p r).v)
    (hf : t.flags = (s.pointOrDraw valid p r).flags) (hc : ControlKept s t) (hd : Done s t) :
    PointFrame p s t ∧ (valid = true → t.getPoint p = r) := by
  obtain ⟨q, ⟨hx, hy⟩, hq, hv', hf'⟩ := pointOrDraw_eq s valid p hr
  have hreg (x : Reg) : t.getV x = (s.setPoint p q).getV x := getV_congr (hv.trans hv') x
  have hpoint : t.getPoint p = q := by
    rw [State.getPoint, hreg, hreg]
    exact getPoint_setPoint s p q hx hy
  have hflags : t.flags = { s.flags with inf := decide (q = infinity) } := hf.trans hf'
  refine ⟨⟨?_, ?_, fun x hx => (hreg x).trans (othersKept_setPoint s p q x hx), hc, hd⟩,
    fun h => hpoint.trans (hq h)⟩
  · rw [← getPoint_eq_infinity_iff, hpoint, hflags]
    exact decide_eq_true_iff
  · rw [hflags]

/-! ## PADD and PMUL -/

/-- An odd pair field of PADD names no pair (R113). -/
theorem decode_padd_of_odd_pair {w : Limb} (ho : opcOf w = 0x33#8)
    (hodd : (rdOf w).getLsbD 0 = true ∨ (raOf w).getLsbD 0 = true ∨ (rbOf w).getLsbD 0 = true) :
    decode w = .error .illegalField := by
  have he : (isEven (rdOf w) && isEven (raOf w) && isEven (rbOf w)) = false := by
    rcases hodd with h | h | h <;> simp only [isEven, h, Bool.not_true, Bool.false_and, Bool.and_false]
  simp [decode, ho, he, accept]

/-- An odd pair field of PMUL names no pair (R113). -/
theorem decode_pmul_of_odd_pair {w : Limb} (ho : opcOf w = 0x34#8)
    (hodd : (rdOf w).getLsbD 0 = true ∨ (raOf w).getLsbD 0 = true) : decode w = .error .illegalField := by
  have he : (isEven (rdOf w) && isEven (raOf w)) = false := by
    rcases hodd with h | h <;> simp only [isEven, h, Bool.not_true, Bool.false_and, Bool.and_false]
  simp [decode, ho, he, accept]

/-- Settles O36: the sum of valid points is canonical (`canonical_add`), so the pair holds it exactly. -/
theorem paddWritesTheSum : Obligations.PaddWritesTheSum := by
  refine ⟨fun s k => ⟨rfl, rfl⟩, fun rdp rap rbp => ⟨decode_encode (i := .padd rdp rap rbp) rfl, fun s hok => ?_,
    fun s hok => exec_failedWith_curve rfl (Bool.eq_false_iff.mp hok)⟩, fun w => decode_padd_of_odd_pair⟩
  obtain ⟨hp, -⟩ := curveOK_bounds hok
  have hfits (h : (s.curve.validPt (s.getPoint rap) && s.curve.validPt (s.getPoint rbp)) = true) :
      (s.curve.add (s.getPoint rap) (s.getPoint rbp)).Fits := by
    obtain ⟨h1, h2⟩ := Bool.and_eq_true_iff.mp h
    exact fits_of_canonical (canonical_add hp (canonical_of_validPt hp h1) (canonical_of_validPt hp h2))
  obtain ⟨hframe, hval⟩ := pointFrame_of_pointOrDraw (s := s) (p := rdp)
    (t := State.successCompletion (s.pointOrDraw _ rdp _)) hfits rfl rfl (by simp [ControlKept]) (by simp [Done])
  exact ⟨_, if_pos hok, hframe, by simp, fun h1 h2 => hval (Bool.and_eq_true_iff.mpr ⟨h1, h2⟩)⟩

/-- Settles O39: the multiple of a valid point is canonical (`canonical_smul`), so the pair holds it exactly; PMUL's
evaluation of it is R222's (`pointOrDraw_multiple`). -/
theorem pmulWritesTheScalarMultiple : Obligations.PmulWritesTheScalarMultiple := by
  refine ⟨fun rdp rap rb => ⟨decode_encode (i := .pmul rdp rap rb) rfl, fun s hok hle => ?_,
    fun s hok => exec_failedWith_curve rfl (Bool.eq_false_iff.mp hok), fun s hok hgt => ?_⟩,
    fun w => decode_pmul_of_odd_pair⟩
  · obtain ⟨hp, -⟩ := curveOK_bounds ((curveOKn_iff s).mp hok).1
    have hfits (h : s.curve.validPt (s.getPoint rap) = true) :
        (s.curve.smul (regularize (s.getV rb).toNat s.cn.toNat) (s.getPoint rap)).Fits :=
      fits_of_canonical (canonical_smul hp (canonical_of_validPt hp h) _)
    have hexec : exec (.pmul rdp rap rb) s = succeed ((s.pointOrDraw (s.curve.validPt (s.getPoint rap)) rdp
        (s.curve.smul (regularize (s.getV rb).toNat s.cn.toNat) (s.getPoint rap))).setIter (s.nbitsN + 1)) := by
      rw [← pointOrDraw_multiple]
      exact (if_pos hok).trans (if_pos hle)
    obtain ⟨hframe, hval⟩ := pointFrame_of_pointOrDraw (s := s) (p := rdp)
      (t := State.successCompletion ((s.pointOrDraw _ rdp _).setIter (s.nbitsN + 1))) hfits rfl rfl
      (by simp [ControlKept]) (by simp [Done])
    exact ⟨_, hexec, hframe, toNat_ofNat_nbitsN_succ s, hval⟩
  · exact exec_failedWith_operand (i := .pmul rdp rap rb) hok (Nat.not_le.mpr hgt)

/-- Where `[n]P = O` the regularized scalar has the multiple of the scalar itself (R240). -/
theorem smul_regularize {c : Curve} {q : AffinePoint} {n : Nat} (h : c.smul n q = infinity) (k : Nat) :
    c.smul (regularize k n) q = c.smul k q := by
  rcases Nat.lt_or_ge (k + n) (2 ^ bitlen n) with hk | hk
  · rw [regularize_of_lt hk, smul_add_order c q h, smul_add_order c q h]
  · rw [regularize_of_le hk, smul_add_order c q h]

/-- Settles O40: PMUL's multiple (O39) is that of the scalar itself (`smul_regularize`). -/
theorem pmulOfAPointOfOrderCn : Obligations.PmulOfAPointOfOrderCn := by
  intro s rdp rap rb hok hle hvalid horder
  obtain ⟨-, hspec, -⟩ := pmulWritesTheScalarMultiple.1 rdp rap rb
  obtain ⟨t, ht, ⟨hinf, -⟩, -, hval⟩ := hspec s hok hle
  have hpoint : t.getPoint rdp = s.curve.smul (s.getV rb).toNat (s.getPoint rap) := by
    rw [hval hvalid, smul_regularize horder]
  refine ⟨t, ht, hpoint, fun hk => ?_, fun hk => ?_⟩
  · have hO : t.getPoint rdp = infinity := by
      rw [hpoint]
      rcases hk with hk | hk <;> rw [hk]
      · rfl
      · exact horder
    exact ⟨hO, hinf.mpr ((getPoint_eq_infinity_iff t rdp).mp hO)⟩
  · rw [hpoint, hk]
    exact smul_one _ _

end Sys2Proof.Machine
end

section
/-! The group law (43_point.md R221, R222) as the statements write it: chord and tangent, closure, and multiples that
add. -/

namespace Sys2Proof.Machine

theorem odd_of_prime {p : Nat} (hp : p.Prime) (h2 : p ≠ 2) : p % 2 = 1 := hp.eq_two_or_odd.resolve_left h2

/-! ## Validity and negation -/

/-- R11's equation as the statements write it. -/
theorem validPt_iff (c : Curve) (q : AffinePoint) : c.validPt q = true ↔ q = infinity ∨ (q.x < c.p ∧ q.y < c.p ∧
    ((q.y : Int) ^ 2 - ((q.x : Int) ^ 3 + c.a * q.x + c.b)) % c.p = 0) := by
  simp only [Curve.validPt, Curve.onCurve, Bool.or_eq_true, Bool.and_eq_true, decide_eq_true_eq, and_assoc,
    pow_succ, pow_zero, one_mul]

theorem validPt_of_onCurve {c : Curve} {q : AffinePoint} (h : c.onCurve q = true) : c.validPt q = true := by
  rw [Curve.validPt, h, Bool.or_true]

theorem onCurve_of_validPt {c : Curve} {q : AffinePoint} (h : c.validPt q = true) (hq : q ≠ infinity) :
    c.onCurve q = true := by
  simpa [Curve.validPt, hq] using h

theorem neg_of_ne_infinity (c : Curve) {q : AffinePoint} (h : q ≠ infinity) : c.neg q = ⟨q.x, (c.p - q.y) % c.p⟩ :=
  if_neg h

/-- A canonical y and its negative sum to 0 modulo `p`. -/
theorem add_sub_mod_self {p y : Nat} (h : y < p) : (y + (p - y) % p) % p = 0 := by
  rw [Nat.add_mod_mod, Nat.add_sub_cancel' h.le, Nat.mod_self]

/-- The negative of a canonical point other than `O` is not `O`. -/
theorem neg_ne_infinity {c : Curve} {q : AffinePoint} (h : q ≠ infinity) (hy : q.y < c.p) :
    c.neg q ≠ infinity := by
  rw [neg_of_ne_infinity c h]
  intro hO
  have hx : q.x = 0 := congrArg AffinePoint.x hO
  have hy0 : (c.p - q.y) % c.p = 0 := congrArg AffinePoint.y hO
  have hsum := add_sub_mod_self hy
  rw [hy0, Nat.add_zero, Nat.mod_eq_of_lt hy] at hsum
  obtain ⟨x, y⟩ := q
  obtain rfl : x = 0 := hx
  obtain rfl : y = 0 := hsum
  exact h rfl

theorem infinity_add (c : Curve) (q : AffinePoint) : c.add infinity q = q := if_pos rfl

theorem add_infinity (c : Curve) (q : AffinePoint) : c.add q infinity = q := by
  simp only [Curve.add, if_true, ite_eq_right_iff]
  exact Eq.symm

/-- `P ⊕ (-P) = O` for every canonical point. -/
theorem add_neg_self {c : Curve} {q : AffinePoint} (h : c.validPt q = true) : c.add q (c.neg q) = infinity := by
  by_cases hq : q = infinity
  · rw [hq, infinity_add]
    exact if_pos rfl
  · obtain ⟨-, hy, -⟩ := (onCurve_iff c q).mp (onCurve_of_validPt h hq)
    have hneg := neg_ne_infinity hq hy
    rw [Curve.add, if_neg hq, if_neg hneg, neg_of_ne_infinity c hq]
    exact if_pos ⟨rfl, add_sub_mod_self hy⟩

/-! ## Chord and tangent -/

/-- Two points of the curve with the same x that do not sum to `O` are the same point. -/
theorem eq_of_x_eq {c : Curve} (hp : c.p.Prime) {q1 q2 : AffinePoint} (h1 : c.onCurve q1 = true)
    (h2 : c.onCurve q2 = true) (hx : q1.x = q2.x) (hy : (q1.y + q2.y) % c.p ≠ 0) : q1 = q2 := by
  have : Fact c.p.Prime := ⟨hp⟩
  obtain ⟨-, hy1, e1⟩ := (onCurve_iff c q1).mp h1
  obtain ⟨-, hy2, e2⟩ := (onCurve_iff c q2).mp h2
  have hprod : ((q1.y : ZMod c.p) - q2.y) * (q1.y + q2.y) = 0 := by
    rw [hx] at e1
    linear_combination e1 - e2
  have hsum : (q1.y : ZMod c.p) + q2.y ≠ 0 := fun h => hy ((cast_eq_zero_iff _ _).mp (by exact_mod_cast h))
  have hyy : q1.y = q2.y := eq_of_cast_eq hy1 hy2 (sub_eq_zero.mp ((mul_eq_zero.mp hprod).resolve_right hsum))
  cases q1
  cases q2
  simp_all

/-- Any sum of points of the curve that is not `O` by R221's first cases is the chord's or the tangent's. -/
theorem add_spec {c : Curve} (hp : c.p.Prime) (hodd : c.p % 2 = 1) {q1 q2 : AffinePoint} (h1 : c.onCurve q1 = true)
    (h2 : c.onCurve q2 = true) (i1 : q1 ≠ infinity) (i2 : q2 ≠ infinity)
    (hne : ¬(q1.x = q2.x ∧ (q1.y + q2.y) % c.p = 0)) :
    ∃ l : ZMod c.p, (q1.x = q2.x → l * (2 * q1.y) = 3 * (q1.x : ZMod c.p) ^ 2 + (c.a : Int)) ∧
      (q1.x ≠ q2.x → l * ((q2.x : ZMod c.p) - q1.x) = (q2.y : ZMod c.p) - q1.y) ∧
      ((c.add q1 q2).x : ZMod c.p) = l ^ 2 - q1.x - q2.x ∧
      ((c.add q1 q2).y : ZMod c.p) = l * (q1.x - ((c.add q1 q2).x : ZMod c.p)) - q1.y := by
  obtain ⟨hx1, hy1, -⟩ := (onCurve_iff c q1).mp h1
  obtain ⟨hx2, -⟩ := (onCurve_iff c q2).mp h2
  by_cases hx : q1.x = q2.x
  · have hy : (q1.y + q2.y) % c.p ≠ 0 := fun h => hne ⟨hx, h⟩
    obtain rfl := eq_of_x_eq hp h1 h2 hx hy
    have hy0 : (q1.y : ZMod c.p) ≠ 0 := fun h => hy ((cast_eq_zero_iff _ _).mp (by push_cast; rw [h, add_zero]))
    obtain ⟨-, -, l, hl, ex, ey⟩ := (add_self_spec c hp hodd q1 hy1).2 hy0
    exact ⟨l, fun _ => hl, fun h => absurd rfl h, by rw [ex]; ring, ey⟩
  · obtain ⟨-, -, l, hl, ex, ey⟩ := add_chord_spec c hp q1 q2 i1 i2 hx1 hx2 hx
    exact ⟨l, fun h => absurd h hx, fun _ => hl, ex, ey⟩

/-- The third point of a tangent line lies on the curve: the cubic minus the line's square has a double root at the
point of contact. -/
theorem tangent_third {F : Type*} [CommRing F] {a b x y l x3 y3 : F} (e : y ^ 2 = x ^ 3 + a * x + b)
    (hl : l * (2 * y) = 3 * x ^ 2 + a) (hx3 : x3 = l ^ 2 - x - x) (hy3 : y3 = l * (x - x3) - y) :
    y3 ^ 2 = x3 ^ 3 + a * x3 + b := by
  subst hy3 hx3
  linear_combination e + hl * (l ^ 2 - x - x - x)

/-- The third point of a chord lies on the curve: the cubic minus the line's square vanishes at both ends of it. -/
theorem chord_third {F : Type*} [Field F] {a b x1 y1 x2 y2 l x3 y3 : F} (e1 : y1 ^ 2 = x1 ^ 3 + a * x1 + b)
    (e2 : y2 ^ 2 = x2 ^ 3 + a * x2 + b) (hne : x2 - x1 ≠ 0) (hl : l * (x2 - x1) = y2 - y1)
    (hx3 : x3 = l ^ 2 - x1 - x2) (hy3 : y3 = l * (x1 - x3) - y1) : y3 ^ 2 = x3 ^ 3 + a * x3 + b := by
  have hroots : (y3 ^ 2 - (x3 ^ 3 + a * x3 + b)) * (x2 - x1) = 0 := by
    subst hy3 hx3
    linear_combination e1 * (x2 - (l ^ 2 - x1 - x2)) +
      (e2 + hl * (l * (x2 - x1) + y1 + y2)) * (l ^ 2 - x1 - x2 - x1)
  exact sub_eq_zero.mp ((mul_eq_zero.mp hroots).resolve_right hne)

/-- The sum of two valid points is valid, on a singular curve too. -/
theorem validPt_add {c : Curve} (hp : c.p.Prime) (hodd : c.p % 2 = 1) {q1 q2 : AffinePoint}
    (h1 : c.validPt q1 = true) (h2 : c.validPt q2 = true) : c.validPt (c.add q1 q2) = true := by
  have : Fact c.p.Prime := ⟨hp⟩
  by_cases i1 : q1 = infinity
  · rwa [i1, infinity_add]
  by_cases i2 : q2 = infinity
  · rwa [i2, add_infinity]
  by_cases hne : q1.x = q2.x ∧ (q1.y + q2.y) % c.p = 0
  · rw [Curve.add, if_neg i1, if_neg i2, if_pos hne]
    rfl
  have hon1 := onCurve_of_validPt h1 i1
  have hon2 := onCurve_of_validPt h2 i2
  obtain ⟨l, htan, hchord, ex, ey⟩ := add_spec hp hodd hon1 hon2 i1 i2 hne
  obtain ⟨hx3, hy3⟩ := canonical_add hp.pos (canonical_of_validPt hp.pos h1) (canonical_of_validPt hp.pos h2)
  obtain ⟨hx1, -, e1⟩ := (onCurve_iff c q1).mp hon1
  obtain ⟨hx2, -, e2⟩ := (onCurve_iff c q2).mp hon2
  refine validPt_of_onCurve ((onCurve_iff c _).mpr ⟨hx3, hy3, ?_⟩)
  by_cases hx : q1.x = q2.x
  · rw [← hx] at ex
    exact tangent_third e1 (htan hx) ex ey
  · have hd : (q2.x : ZMod c.p) - q1.x ≠ 0 := fun h => hx (eq_of_cast_eq hx1 hx2 (sub_eq_zero.mp h).symm)
    exact chord_third e1 e2 hd (hchord hx) ex ey

/-! ## The obligations -/

/-- A canonical number is the residue of the integers that it stands for. -/
theorem eq_emod_of_cast_eq {p n : Nat} {v : Int} (h : n < p) (hc : (n : ZMod p) = (v : ZMod p)) :
    (n : Int) = v % p := by
  have hcongr : (n : Int) % p = v % p := (ZMod.intCast_eq_intCast_iff' _ _ _).mp (by rwa [Int.cast_natCast])
  rwa [Int.emod_eq_of_lt (Int.natCast_nonneg n) (Int.ofNat_lt.mpr h)] at hcongr

/-- Settles O37: the group law's sums are chord and tangent sums (`add_spec`), and these stay on the curve
(`validPt_add`). -/
theorem groupLawIsChordAndTangent : Obligations.GroupLawIsChordAndTangent := by
  refine ⟨rfl, fun c => ⟨fun h => by rw [Curve.a, h], fun h => by rw [Curve.a, h], validPt_iff c,
    ⟨if_pos rfl, fun q => neg_of_ne_infinity c⟩, fun q => ⟨infinity_add c q, add_infinity c q⟩,
    fun q => add_neg_self, fun hp h2 q1 q2 h1 h2' => ⟨validPt_add hp (odd_of_prime hp h2) h1 h2', fun i1 i2 hne => ?_⟩⟩⟩
  obtain ⟨l, htan, hchord, ex, ey⟩ :=
    add_spec hp (odd_of_prime hp h2) (onCurve_of_validPt h1 i1) (onCurve_of_validPt h2' i2) i1 i2 hne
  obtain ⟨hx3, hy3⟩ := canonical_add hp.pos (canonical_of_validPt hp.pos h1) (canonical_of_validPt hp.pos h2')
  obtain ⟨k, rfl⟩ := ZMod.intCast_surjective l
  refine ⟨k, fun hx => ?_, fun hx => ?_, eq_emod_of_cast_eq hx3 ?_, eq_emod_of_cast_eq hy3 ?_⟩
  · exact (ZMod.intCast_eq_intCast_iff' _ _ _).mp (by push_cast; exact htan hx)
  · exact (ZMod.intCast_eq_intCast_iff' _ _ _).mp (by push_cast; exact hchord hx)
  · push_cast
    exact ex
  · push_cast
    exact ey

/-- The statements' conditions on the curve, in `ZMod p`. -/
theorem smooth_of_emod_ne_zero {c : Curve} (hb : c.b % c.p ≠ 0)
    (hd : (4 * c.a ^ 3 + 27 * (c.b : Int) ^ 2) % c.p ≠ 0) : c.Smooth := by
  refine ⟨fun h => hb ((cast_eq_zero_iff c.p c.b).mp h), fun h => hd (Int.emod_eq_zero_of_dvd ?_)⟩
  refine (ZMod.intCast_zmod_eq_zero_iff_dvd _ _).mp ?_
  push_cast
  exact h

/-- Settles O38: on such a curve the multiples are those of Mathlib's group of points (`Represents.smul`). -/
theorem scalarMultiplesAdd : Obligations.ScalarMultiplesAdd := by
  refine fun c q j k => ⟨rfl, rfl, fun hp h2 hb hd hq => ?_⟩
  have : Fact c.p.Prime := ⟨hp⟩
  have hodd := odd_of_prime hp h2
  have hs := smooth_of_emod_ne_zero hb hd
  obtain ⟨P, hP⟩ := exists_represents hs hp hodd hq
  have hmul (n : Nat) {r : AffinePoint} {R : c.weierstrass.Point} (hr : Represents c r R) := hr.smul hs hodd n
  refine ⟨(hmul (j + k) hP).inj ?_, (hmul (j * k) hP).inj ?_⟩
  · rw [add_nsmul]
    exact (hmul j hP).add hs hodd (hmul k hP)
  · rw [mul_nsmul']
    exact hmul j (hmul k hP)

end Sys2Proof.Machine
end

section
/-! The field primitives on canonical values (42_field.md R200): what each gives in `ZMod p`, with the bound that the
next primitive asks for. -/

namespace Sys2Proof.Machine

/-- `n` is the canonical value of `x`. -/
structure IsResidue (p n : Nat) (x : ZMod p) : Prop where
  lt : n < p
  cast : (n : ZMod p) = x

namespace IsResidue

variable {p a b : Nat} {x y : ZMod p}

theorem fadd (hp : p ≤ 2 ^ 256) (ha : IsResidue p a x) (hb : IsResidue p b y) :
    IsResidue p (fadd p a b) (x + y) :=
  ⟨fadd_canonical_lt ha.lt hb.lt hp, by rw [cast_fadd hp (ha.lt.trans_le hp) hb.lt, ha.cast, hb.cast]⟩

theorem fsub (hp : p ≤ 2 ^ 256) (ha : IsResidue p a x) (hb : IsResidue p b y) :
    IsResidue p (fsub p a b) (x - y) :=
  ⟨fsub_canonical_lt ha.lt hb.lt hp, by rw [cast_fsub hp (ha.lt.trans_le hp) hb.lt, ha.cast, hb.cast]⟩

theorem fmul (hpos : 0 < p) (ha : (a : ZMod p) = x) (hb : (b : ZMod p) = y) : IsResidue p (fmul p a b) (x * y) :=
  ⟨fmul_lt a b hpos, by rw [cast_fmul, ha, hb]⟩

theorem fsqr (hpos : 0 < p) (ha : (a : ZMod p) = x) : IsResidue p (fsqr p a) (x ^ 2) :=
  ⟨fsqr_lt a hpos, by rw [cast_fsqr, ha]⟩

end IsResidue

end Sys2Proof.Machine
end

section
/-! The meaning of the Jacobian and co-Z formulas (43_point.md R223 to R225): the values they give, read in `ZMod p`,
stand for the sums of the group law. -/

namespace Sys2Proof.Machine

/-! ## Triples that stand for points -/

/-- Off `Z ≡ 0` a triple stands for a point when its coordinates are the point's, scaled by `Z²` and `Z³` (R220). -/
theorem standsFor_iff {p : Nat} {j : Jacobian} {q : AffinePoint} (hz : (j.z : ZMod p) ≠ 0) :
    StandsFor p j q ↔ (j.x : ZMod p) = q.x * (j.z : ZMod p) ^ 2 ∧ (j.y : ZMod p) = q.y * (j.z : ZMod p) ^ 3 := by
  have hz' : ¬j.z % p = 0 := fun h => hz ((cast_eq_zero_iff p _).mpr h)
  rw [StandsFor, if_neg hz', ← cast_eq_iff, ← cast_eq_iff]
  push_cast
  rfl

theorem standsFor_infinity {p : Nat} {j : Jacobian} (hz : (j.z : ZMod p) = 0) : StandsFor p j infinity := by
  rw [StandsFor, if_pos ((cast_eq_zero_iff p _).mp hz)]

/-! ## The doubling -/

/-- Twice the doubling's `B` is the tangent's numerator in Jacobian coordinates (R223). -/
theorem cast_doublingSlope {c : Curve} (hodd : c.p % 2 = 1) (hp : c.p ≤ 2 ^ 256) {q : Jacobian} (hx : q.x < 2 ^ 256) :
    2 * ((doublingSlope c.mode c.p q : Nat) : ZMod c.p) =
      3 * (q.x : ZMod c.p) ^ 2 + (c.a : Int) * (q.z : ZMod c.p) ^ 4 := by
  have hpos : 0 < c.p := by omega
  rw [cast_curveA]
  cases c.mode with
  | fast =>
    have hx2 : IsResidue c.p (fsqr c.p q.x) _ := .fsqr hpos rfl
    refine (cast_fhalf hodd).trans (((hx2.fadd hp hx2).fadd hp hx2).cast.trans ?_)
    rw [if_pos rfl]
    ring
  | generic =>
    have hz2 : IsResidue c.p (fsqr c.p q.z) _ := .fsqr hpos rfl
    -- `X` need not be canonical, so the sum with it is one by its value only
    have hs : ((fadd c.p q.x (fsqr c.p q.z) : Nat) : ZMod c.p) = q.x + (q.z : ZMod c.p) ^ 2 := by
      rw [cast_fadd hp hx hz2.lt, hz2.cast]
    have hd : ((fsub c.p (fadd c.p q.x (fsqr c.p q.z)) (fadd c.p (fsqr c.p q.z) (fsqr c.p q.z)) : Nat) : ZMod c.p) =
        q.x - (q.z : ZMod c.p) ^ 2 := by
      have hzz := hz2.fadd hp hz2
      rw [cast_fsub hp (fadd_lt ..) hzz.lt, hs, hzz.cast]
      ring
    have hm : IsResidue c.p (fmul c.p _ _) _ := .fmul hpos hs hd
    refine (cast_fhalf hodd).trans ((hm.fadd hp (hm.fadd hp hm)).cast.trans ?_)
    rw [if_neg nofun]
    ring

/-- The doubling's values in `ZMod p`, from its `B` (R223). -/
theorem cast_doubleJacobian {mode : Mode} {p : Nat} (hpos : 0 < p) (hp : p ≤ 2 ^ 256) {q : Jacobian} (hz : q.z ≠ 0)
    {b : ZMod p} (hb : ((doublingSlope mode p q : Nat) : ZMod p) = b) :
    ((doubleJacobian mode p q).x : ZMod p) = b ^ 2 - 2 * (q.x * q.y ^ 2) ∧
    ((doubleJacobian mode p q).y : ZMod p) =
      b * (q.x * q.y ^ 2 - (b ^ 2 - 2 * (q.x * q.y ^ 2))) - q.y ^ 4 ∧
    ((doubleJacobian mode p q).z : ZMod p) = q.y * q.z := by
  have ht : IsResidue p (fsqr p q.y) _ := .fsqr hpos rfl
  have ha : IsResidue p (fmul p q.x _) _ := .fmul hpos rfl ht.cast
  have hy4 : IsResidue p (fsqr p _) _ := .fsqr hpos ht.cast
  have hb2 : IsResidue p (fsqr p _) _ := .fsqr hpos hb
  have hx3 := (hb2.fsub hp ha).fsub hp ha
  have hprod : IsResidue p (fmul p _ _) _ := .fmul hpos hb (ha.fsub hp hx3).cast
  rw [doubleJacobian, if_neg hz]
  refine ⟨hx3.cast.trans ?_, (hprod.fsub hp hy4).cast.trans ?_, cast_fmul p _ _⟩ <;> ring

/-- The doubling of a triple that stands for a point of the curve stands for the sum of the point with itself. -/
theorem standsFor_doubleJacobian {c : Curve} (hp : c.p.Prime) (hodd : c.p % 2 = 1) (hle : c.p ≤ 2 ^ 256)
    {j : Jacobian} {q : AffinePoint} (hx : j.x < 2 ^ 256) (hz : (j.z : ZMod c.p) ≠ 0) (hq : c.onCurve q = true)
    (hj : StandsFor c.p j q) : StandsFor c.p (doubleJacobian c.mode c.p j) (c.add q q) := by
  have : Fact c.p.Prime := ⟨hp⟩
  obtain ⟨-, hy, -⟩ := (onCurve_iff c q).mp hq
  obtain ⟨hdouble0, hdouble⟩ := add_self_spec c hp hodd q hy
  obtain ⟨ex, ey⟩ := (standsFor_iff hz).mp hj
  have hz0 : j.z ≠ 0 := fun h => hz (by rw [h, Nat.cast_zero])
  by_cases hy0 : (q.y : ZMod c.p) = 0
  · obtain ⟨-, -, ez3⟩ := cast_doubleJacobian (mode := c.mode) hp.pos hle hz0 rfl
    rw [hdouble0 hy0]
    exact standsFor_infinity (by rw [ez3, ey, hy0, zero_mul, zero_mul])
  · obtain ⟨-, -, l, hl, ex', ey'⟩ := hdouble hy0
    have hslope : ((doublingSlope c.mode c.p j : Nat) : ZMod c.p) = l * q.y * (j.z : ZMod c.p) ^ 4 := by
      refine mul_left_cancel₀ (two_ne_zero_of_odd hodd hp.one_lt.ne') ?_
      rw [cast_doublingSlope hodd hle hx, ex]
      linear_combination -(j.z : ZMod c.p) ^ 4 * hl
    obtain ⟨ex3, ey3, ez3⟩ := cast_doubleJacobian hp.pos hle hz0 hslope
    rw [ey] at ez3
    have hz3 : ((doubleJacobian c.mode c.p j).z : ZMod c.p) ≠ 0 := by
      rw [ez3]
      exact mul_ne_zero (mul_ne_zero hy0 (pow_ne_zero 3 hz)) hz
    refine (standsFor_iff hz3).mpr ⟨?_, ?_⟩
    · rw [ex3, ez3, ex', ex, ey]
      ring
    · rw [ey3, ez3, ey', ex', ex, ey]
      ring

/-- Settles O41: DBLJ leaves the doubling's values (`exec_dblj_spec`), which stand for the sum. -/
theorem dbljDoublesThePoint : Obligations.DbljDoublesThePoint := by
  intro s rx ry rz q hd hok hp hq hz hj
  obtain ⟨hodd, -⟩ := curveOK_odd hok
  obtain ⟨t, ht, -, -, hval⟩ := exec_dblj_spec hd hok
  have hz' : ((s.getJacobian rx ry rz).z : ZMod s.cp.toNat) ≠ 0 := fun h => hz ((cast_eq_zero_iff _ _).mp h)
  have hrz : s.getV rz ≠ 0 := fun h => hz (by rw [h]; exact Nat.zero_mod _)
  have hdouble : StandsFor s.cp.toNat (doubleJacobian s.cfg.mode s.cp.toNat (s.getJacobian rx ry rz))
      (s.curve.add q q) :=
    standsFor_doubleJacobian (c := s.curve) hp hodd s.cp.isLt.le (getV_toNat_lt s rx) hz' hq hj
  rw [← hval hrz] at hdouble
  exact ⟨t, ht, hdouble⟩

/-! ## The co-Z formulas -/

/-- A chord's sum with its coordinates scaled by `z²` and `z³`, from its slope scaled by `z`. -/
theorem standsFor_chord {c : Curve} (hp : c.p.Prime) {q1 q2 : AffinePoint} (i1 : q1 ≠ infinity) (i2 : q2 ≠ infinity)
    (hx1 : q1.x < c.p) (hx2 : q2.x < c.p) (hne : q1.x ≠ q2.x) {x y z : Nat} (hz : (z : ZMod c.p) ≠ 0) {m : ZMod c.p}
    (hm : m * ((q2.x : ZMod c.p) - q1.x) = ((q2.y : ZMod c.p) - q1.y) * z)
    (ex : (x : ZMod c.p) = m ^ 2 - (q1.x + q2.x) * (z : ZMod c.p) ^ 2)
    (ey : (y : ZMod c.p) = m * (q1.x * (z : ZMod c.p) ^ 2 - x) - q1.y * (z : ZMod c.p) ^ 3) :
    StandsFor c.p ⟨x, y, z⟩ (c.add q1 q2) := by
  have : Fact c.p.Prime := ⟨hp⟩
  obtain ⟨-, -, l, hl, ex', ey'⟩ := add_chord_spec c hp q1 q2 i1 i2 hx1 hx2 hne
  have hd : (q2.x : ZMod c.p) - q1.x ≠ 0 := fun h => hne (eq_of_cast_eq hx1 hx2 (sub_eq_zero.mp h).symm)
  have hml : m = l * z := by
    refine mul_right_cancel₀ hd ?_
    rw [hm, ← hl]
    ring
  subst hml
  refine (standsFor_iff hz).mpr ⟨?_, ?_⟩
  · rw [ex, ex']
    ring
  · rw [ey, ex, ey', ex']
    ring

/-- The co-Z pair `q` holds the points `q1` and `q2`, of different x, with the shared `z`, and `z'` is the new one
(R224). -/
structure HoldsCoZ (c : Curve) (q : CoZPair) (q1 q2 : AffinePoint) (z z' : Nat) : Prop where
  x1 : IsResidue c.p q.p1.x (q1.x * (z : ZMod c.p) ^ 2)
  y1 : IsResidue c.p q.p1.y (q1.y * (z : ZMod c.p) ^ 3)
  x2 : IsResidue c.p q.p2.x (q2.x * (z : ZMod c.p) ^ 2)
  y2 : IsResidue c.p q.p2.y (q2.y * (z : ZMod c.p) ^ 3)
  on1 : c.onCurve q1 = true
  on2 : c.onCurve q2 = true
  ne1 : q1 ≠ infinity
  ne2 : q2 ≠ infinity
  x_ne : q1.x ≠ q2.x
  z_ne : (z : ZMod c.p) ≠ 0
  z_new : (z' : ZMod c.p) = (z : ZMod c.p) ^ 3 * (q2.x - q1.x)

section
variable {c : Curve} {q : CoZPair} {q1 q2 : AffinePoint} {z z' : Nat} (hp : c.p.Prime) (hle : c.p ≤ 2 ^ 256)
  (h : HoldsCoZ c q q1 q2 z z')
include hp h

/-- The new `Z` is not 0, since the two x differ. -/
theorem HoldsCoZ.z_new_ne : (z' : ZMod c.p) ≠ 0 := by
  have : Fact c.p.Prime := ⟨hp⟩
  obtain ⟨hx1, -⟩ := (onCurve_iff c q1).mp h.on1
  obtain ⟨hx2, -⟩ := (onCurve_iff c q2).mp h.on2
  rw [h.z_new]
  exact mul_ne_zero (pow_ne_zero 3 h.z_ne) fun hd => h.x_ne (eq_of_cast_eq hx1 hx2 (sub_eq_zero.mp hd).symm)

include hle

/-- The values that both co-Z formulas share (R224, R225): `B` and `C`, and `E`. -/
theorem HoldsCoZ.shared :
    let a := fsqr c.p (fsub c.p q.p2.x q.p1.x)
    IsResidue c.p (fmul c.p q.p1.x a) (q1.x * (z' : ZMod c.p) ^ 2) ∧
    IsResidue c.p (fmul c.p q.p2.x a) (q2.x * (z' : ZMod c.p) ^ 2) ∧
    IsResidue c.p (fmul c.p q.p1.y (fsub c.p (fmul c.p q.p2.x a) (fmul c.p q.p1.x a)))
      (q1.y * (z' : ZMod c.p) ^ 3) := by
  intro a
  have ha : IsResidue c.p a _ := .fsqr hp.pos (h.x2.fsub hle h.x1).cast
  have hb : IsResidue c.p (fmul c.p q.p1.x a) (q1.x * (z' : ZMod c.p) ^ 2) := by
    convert IsResidue.fmul hp.pos h.x1.cast ha.cast using 1
    rw [h.z_new]
    ring
  have hc : IsResidue c.p (fmul c.p q.p2.x a) (q2.x * (z' : ZMod c.p) ^ 2) := by
    convert IsResidue.fmul hp.pos h.x2.cast ha.cast using 1
    rw [h.z_new]
    ring
  refine ⟨hb, hc, ?_⟩
  convert IsResidue.fmul hp.pos h.y1.cast (hc.fsub hle hb).cast using 1
  rw [h.z_new]
  ring

/-- XYCZADD's first point is the same point with the new `Z` (R224). -/
theorem standsFor_coZAdd_p1 : StandsFor c.p ⟨(coZAdd c.p q).p1.x, (coZAdd c.p q).p1.y, z'⟩ q1 := by
  obtain ⟨hb, -, he⟩ := h.shared hp hle
  exact (standsFor_iff (h.z_new_ne hp)).mpr ⟨hb.cast, he.cast⟩

/-- The sum of both co-Z formulas is the group law's (R224). -/
theorem standsFor_coZAdd_p2 : StandsFor c.p ⟨(coZAdd c.p q).p2.x, (coZAdd c.p q).p2.y, z'⟩ (c.add q1 q2) := by
  obtain ⟨hb, hc, he⟩ := h.shared hp hle
  obtain ⟨hx1, -⟩ := (onCurve_iff c q1).mp h.on1
  obtain ⟨hx2, -⟩ := (onCurve_iff c q2).mp h.on2
  have hdy := h.y2.fsub hle h.y1
  have hx3 := ((IsResidue.fsqr hp.pos hdy.cast).fsub hle hb).fsub hle hc
  have hy3 := (IsResidue.fmul hp.pos hdy.cast (hb.fsub hle hx3).cast).fsub hle he
  refine standsFor_chord hp h.ne1 h.ne2 hx1 hx2 h.x_ne (h.z_new_ne hp)
    (m := q2.y * (z : ZMod c.p) ^ 3 - q1.y * (z : ZMod c.p) ^ 3) ?_ (hx3.cast.trans (by ring)) ?_
  · rw [h.z_new]
    ring
  · rw [show ((coZAdd c.p q).p2.x : ZMod c.p) = _ from hx3.cast]
    exact hy3.cast

/-- XYCZADDC's first point is the difference (R225): the chord to the negative of the second point. -/
theorem standsFor_coZAddConjugate_p1 :
    StandsFor c.p ⟨(coZAddConjugate c.p q).p1.x, (coZAddConjugate c.p q).p1.y, z'⟩ (c.add q1 (c.neg q2)) := by
  obtain ⟨hb, hc, he⟩ := h.shared hp hle
  obtain ⟨hx1, -⟩ := (onCurve_iff c q1).mp h.on1
  obtain ⟨hx2, hy2, -⟩ := (onCurve_iff c q2).mp h.on2
  have hsy := h.y2.fadd hle h.y1
  have hx3 := (IsResidue.fsqr hp.pos hsy.cast).fsub hle (hb.fadd hle hc)
  have hy3 := (IsResidue.fmul hp.pos (hx3.fsub hle hb).cast hsy.cast).fsub hle he
  have hneg := neg_ne_infinity h.ne2 hy2
  have hnegy : (((c.p - q2.y) % c.p : Nat) : ZMod c.p) = -q2.y := by
    rw [ZMod.natCast_mod, Nat.cast_sub hy2.le, ZMod.natCast_self, zero_sub]
  rw [neg_of_ne_infinity c h.ne2] at hneg ⊢
  refine standsFor_chord hp h.ne1 hneg hx1 hx2 h.x_ne (h.z_new_ne hp)
    (m := -(q2.y * (z : ZMod c.p) ^ 3 + q1.y * (z : ZMod c.p) ^ 3)) ?_ (hx3.cast.trans (by ring)) ?_
  · rw [h.z_new, hnegy]
    ring
  · rw [show ((coZAddConjugate c.p q).p1.x : ZMod c.p) = _ from hx3.cast]
    exact hy3.cast.trans (by ring)

/-- XYCZADDC's second point is XYCZADD's (R225). -/
theorem standsFor_coZAddConjugate_p2 :
    StandsFor c.p ⟨(coZAddConjugate c.p q).p2.x, (coZAddConjugate c.p q).p2.y, z'⟩ (c.add q1 q2) := by
  rw [coZAddConjugate_p2 hp.pos hle]
  exact standsFor_coZAdd_p2 hp hle h

end

/-- Settles O42: the registers hold a co-Z pair, and the two commands leave the formulas' values. -/
theorem coZCommandsAddThePoints : Obligations.CoZCommandsAddThePoints := by
  intro s a b c d q1 q2 z z' hd hok hp hlt on1 on2 i1 i2 hz hj1 hj2 hne hz'
  have : Fact s.cp.toNat.Prime := ⟨hp⟩
  have hle := s.cp.isLt.le
  have hz0 : (z : ZMod s.cp.toNat) ≠ 0 := fun h => hz ((cast_eq_zero_iff _ _).mp h)
  obtain ⟨ex1, ey1⟩ := (standsFor_iff hz0).mp hj1
  obtain ⟨ex2, ey2⟩ := (standsFor_iff hz0).mp hj2
  have hx : q1.x ≠ q2.x := by
    intro h
    rw [h, ← ex2] at ex1
    exact hne (BitVec.eq_of_toNat_eq (eq_of_cast_eq (hlt a (by simp)) (hlt c (by simp)) ex1))
  have hznew : (z' : ZMod s.cp.toNat) = (z : ZMod s.cp.toNat) ^ 3 * (q2.x - q1.x) := by
    have hcast := congrArg (Int.cast : Int → ZMod s.cp.toNat) hz'
    push_cast [ZMod.intCast_mod] at hcast
    rw [hcast, ex1, ex2]
    ring
  have h : HoldsCoZ s.curve (s.getCoZ a b c d) q1 q2 z z' :=
    ⟨⟨hlt a (by simp), ex1⟩, ⟨hlt b (by simp), ey1⟩, ⟨hlt c (by simp), ex2⟩, ⟨hlt d (by simp), ey2⟩, on1, on2, i1, i2,
      hx, hz0, hznew⟩
  constructor
  · obtain ⟨t, ht, -, hval⟩ := exec_xyczadd_spec hd hok
    have h1 := standsFor_coZAdd_p1 hp hle h
    have h2 := standsFor_coZAdd_p2 hp hle h
    rw [show coZAdd s.curve.p _ = _ from hval.symm] at h1 h2
    exact ⟨t, ht, h1, h2⟩
  · obtain ⟨t, ht, -, hval⟩ := exec_xyczaddc_spec hd hok
    have h1 := standsFor_coZAddConjugate_p1 hp hle h
    have h2 := standsFor_coZAddConjugate_p2 hp hle h
    rw [show coZAddConjugate s.curve.p _ = _ from hval.symm] at h1 h2
    exact ⟨t, ht, h1, h2⟩

end Sys2Proof.Machine
end

section
/-! The register map (20_memory.md R82 to R86): what a full aligned transaction reads and writes at each location, and
the control registers as numbers. -/

namespace Sys2Proof.Machine

/-! ## Limbs -/

theorem limbReplaced_setLimb (x : Vli) (i : Fin 4) (d : Limb) : LimbReplaced x (setLimb x i d) i d := by
  refine ⟨(limbOf_setLimb x i i d).trans (if_pos rfl), fun j hj hne => ?_⟩
  exact (limbOf_setLimb x i ⟨j, hj⟩ d).trans (if_neg fun h => hne (congrArg Fin.val h))

/-- Four limbs written in turn leave their concatenation, whatever was there (R84). -/
theorem setLimb_all (x : Vli) (d0 d1 d2 d3 : Limb) :
    setLimb (setLimb (setLimb (setLimb x 0 d0) 1 d1) 2 d2) 3 d3 = d3 ++ d2 ++ d1 ++ d0 := by
  simp [setLimb, limbOf_append]

/-! ## The control registers -/

/-- An aligned full read of a control register is never refused (R86, R87). -/
theorem busRead_control {s : State} {off : BitVec 12} {l : Loc} (ha : off.toNat % 8 = 0) (h : locate off = some l)
    (hl : l.isOperand = false) : s.busRead off 0xFF = (s.readLoc l, .okay) := by
  rw [busRead_of_locate ha h, hl, Bool.and_false]
  rfl

theorem toNat_statusWord (s : State) : s.statusWord.toNat = s.status.busy.toNat + s.status.done.toNat * 2
    + s.status.errv.toNat * 2 ^ 2 + s.status.cmddrop.toNat * 2 ^ 3 + s.status.errcode.toNat * 2 ^ 8 := by
  simp only [State.statusWord, toNat_append_eq_add, BitVec.toNat_ofNat, BitVec.toNat_ofBool]
  omega

theorem toNat_flagsWord (s : State) : s.flagsWord.toNat = s.flags.c.toNat + s.flags.lt.toNat * 2
    + s.flags.eq.toNat * 2 ^ 2 + s.flags.gt.toNat * 2 ^ 3 + s.flags.ni.toNat * 2 ^ 4
    + s.flags.inf.toNat * 2 ^ 5 := by
  simp only [State.flagsWord, toNat_append_eq_add, BitVec.toNat_ofNat, BitVec.toNat_ofBool]
  omega

theorem toNat_ieWord (s : State) : s.ieWord.toNat = s.ie.doneIe.toNat + s.ie.errIe.toNat * 2 := by
  simp only [State.ieWord, toNat_append_eq_add, BitVec.toNat_ofNat, BitVec.toNat_ofBool]
  omega

/-! ## CFG -/

theorem toNat_modeBit (m : Mode) : (modeBit m).toNat = if m = .generic then 1 else 0 := by
  cases m <;> rfl

/-- CFG as a number: its fields at their bits, and every reserved bit 0 (R38). -/
theorem toNat_cfgWord (s : State) : s.cfgWord.toNat = (if s.cfg.mode = .generic then 1 else 0)
    + (if s.cfg.lock then 2 else 0) + bitlen s.cp.toNat * 2 ^ 16 + bitlen s.cn.toNat * 2 ^ 32 := by
  have hp : s.nbitsP % 2 ^ 9 = bitlen s.cp.toNat := Nat.mod_eq_of_lt ((nbitsP_le s).trans_lt (by decide))
  have hn : s.nbitsN % 2 ^ 9 = bitlen s.cn.toNat := Nat.mod_eq_of_lt ((nbitsN_le s).trans_lt (by decide))
  have hlock : s.cfg.lock.toNat * 2 = if s.cfg.lock then 2 else 0 := by cases s.cfg.lock <;> rfl
  simp only [State.cfgWord, toNat_append_eq_add, BitVec.toNat_ofNat, BitVec.toNat_ofBool, toNat_modeBit, hp, hn,
    ← hlock]
  omega

/-- Location 0x008 is CFG (R82). -/
theorem busWrite_cfg (s : State) (d : Limb) : s.busWrite 0x008 0xFF d = s.writeCfg d :=
  busWrite_of_locate (l := .cfg) (by decide) (by decide)

theorem writeCfg_of_lock {s : State} (d : Limb) (hb : s.status.busy = false) (hk : s.cfg.lock = true) :
    s.writeCfg d = (s, .okay) := by
  simp [State.writeCfg, hb, hk]

theorem writeCfg_of_unlocked {s : State} (d : Limb) (hb : s.status.busy = false) (hk : s.cfg.lock = false) :
    s.writeCfg d =
      ({ s with cfg := { mode := if d.getLsbD 0 then .generic else .fast, lock := d.getLsbD 1 } }, .okay) := by
  simp [State.writeCfg, hb, hk]

/-- Settles O54: the bit lengths' bounds, CFG's value (`toNat_cfgWord`), and the two cases of its write. -/
theorem cfgFieldsAndWrite : Obligations.CfgFieldsAndWrite := by
  refine ⟨⟨bitlen_zero, fun v hv => ?_⟩, fun s => ⟨⟨rfl, rfl⟩,
    ⟨toNat_cfgWord s, bitlen_toNat_le s.cp, bitlen_toNat_le s.cn⟩, fun d hb hk => ?_, fun d hb hk => ?_⟩⟩
  · have hpos : 1 ≤ v := Nat.pos_of_ne_zero hv
    exact ⟨bitlen_pos hpos, two_pow_pred_bitlen_le hpos, lt_two_pow_bitlen v⟩
  · rw [busWrite_cfg, writeCfg_of_lock d hb hk]
  · rw [busWrite_cfg, writeCfg_of_unlocked d hb hk]
    refine ⟨_, rfl, rfl, ?_, rfl⟩
    cases d.getLsbD 0 <;> simp

/-! ## Operand registers -/

theorem v_aligned (r : Reg) (i : Nat) : (BitVec.ofNat 12 (0x200 + 0x20 * r.toNat + 8 * i)).toNat % 8 = 0 := by
  rw [BitVec.toNat_ofNat]
  omega

/-- Settles O50: the location is limb `i` of `V[r]` (`locate_v`), and a write replaces that limb
(`limbReplaced_setLimb`). -/
theorem operandLimbsAreReadAndWritten : Obligations.OperandLimbsAreReadAndWritten := by
  intro s r i d hb hi
  have hloc := locate_v r ⟨i, hi⟩
  have halign := v_aligned r i
  refine ⟨?_, s.setV r (setLimb (s.getV r) ⟨i, hi⟩ d), ?_, ?_⟩
  · rw [busRead_of_locate halign hloc, hb]
    rfl
  · rw [busWrite_of_locate halign hloc, State.writeLoc, hb]
    rfl
  · obtain ⟨hwritten, hothers⟩ := limbReplaced_setLimb (s.getV r) ⟨i, hi⟩ d
    rw [getV_setV_self]
    exact ⟨hwritten, hothers, othersKept_setV s r _, rfl⟩

/-! ## Descriptor registers -/

theorem desc_aligned (r : Desc) (i : Nat) : (BitVec.ofNat 12 (descOffset r + 8 * i)).toNat % 8 = 0 := by
  rw [BitVec.toNat_ofNat]
  cases r <;> simp only [descOffset] <;> omega

theorem busRead_desc {s : State} (hb : s.status.busy = false) (r : Desc) {i : Nat} (hi : i < 4) :
    s.busRead (BitVec.ofNat 12 (descOffset r + 8 * i)) 0xFF = ((s.getDesc r).extractLsb' (64 * i) 64, .okay) := by
  rw [busRead_of_locate (desc_aligned r i) (locate_desc r ⟨i, hi⟩), hb]
  rfl

theorem busWrite_desc {s : State} (hb : s.status.busy = false) (hk : s.cfg.lock = false) (r : Desc) {i : Nat}
    (hi : i < 4) (d : Limb) : s.busWrite (BitVec.ofNat 12 (descOffset r + 8 * i)) 0xFF d =
      (s.setDesc r (setLimb (s.getDesc r) ⟨i, hi⟩ d), .okay) := by
  rw [busWrite_of_locate (desc_aligned r i) (locate_desc r ⟨i, hi⟩), State.writeLoc, State.writeDesc, hb, hk]
  rfl

theorem halfn_aligned (i : Nat) : (BitVec.ofNat 12 (0x1A0 + 8 * i)).toNat % 8 = 0 := by
  rw [BitVec.toNat_ofNat]
  omega

theorem busRead_halfn {s : State} (hb : s.status.busy = false) {i : Nat} (hi : i < 4) :
    s.busRead (BitVec.ofNat 12 (0x1A0 + 8 * i)) 0xFF = ((s.cn >>> 1).extractLsb' (64 * i) 64, .okay) := by
  rw [busRead_of_locate (halfn_aligned i) (locate_halfn ⟨i, hi⟩), hb]
  rfl

theorem busWrite_halfn {s : State} (hb : s.status.busy = false) {i : Nat} (hi : i < 4) (d : Limb) :
    s.busWrite (BitVec.ofNat 12 (0x1A0 + 8 * i)) 0xFF d = (s, .okay) := by
  rw [busWrite_of_locate (halfn_aligned i) (locate_halfn ⟨i, hi⟩), State.writeLoc, hb]
  rfl

/-- Settles O51: a read or a write at each offset of the map is that of its location. -/
theorem registerMap : Obligations.RegisterMap := by
  refine fun s => ⟨busRead_control (l := .id) (by decide) (by decide) rfl,
    busRead_control (l := .cfg) (by decide) (by decide) rfl, busRead_control (l := .cmd) (by decide) (by decide) rfl,
    busRead_control (l := .status) (by decide) (by decide) rfl,
    busRead_control (l := .flags) (by decide) (by decide) rfl, busRead_control (l := .ie) (by decide) (by decide) rfl,
    busRead_control (l := .iter) (by decide) (by decide) rfl,
    busRead_control (l := .errcmd) (by decide) (by decide) rfl,
    toNat_statusWord s, toNat_flagsWord s, toNat_ieWord s, fun d => ⟨?_, ?_, ?_, ?_, ?_⟩, fun hb i hi => ?_,
    fun hb hk i hi d => ?_⟩
  · exact busWrite_of_locate (l := .id) (by decide) (by decide)
  · exact busWrite_of_locate (l := .flags) (by decide) (by decide)
  · exact busWrite_of_locate (l := .iter) (by decide) (by decide)
  · exact busWrite_of_locate (l := .errcmd) (by decide) (by decide)
  · exact busWrite_of_locate (l := .ie) (by decide) (by decide)
  · exact ⟨busRead_desc hb .cp hi, busRead_desc hb .cn hi, busRead_desc hb .cb hi, busRead_desc hb .cgx hi,
      busRead_desc hb .cgy hi, busRead_halfn hb hi, busWrite_halfn hb hi⟩
  · have hlimb (x : Vli) := limbReplaced_setLimb x ⟨i, hi⟩ d
    exact ⟨⟨_, busWrite_desc hb hk .cp hi d, hlimb _⟩, ⟨_, busWrite_desc hb hk .cn hi d, hlimb _⟩,
      ⟨_, busWrite_desc hb hk .cb hi d, hlimb _⟩, ⟨_, busWrite_desc hb hk .cgx hi d, hlimb _⟩,
      ⟨_, busWrite_desc hb hk .cgy hi d, hlimb _⟩⟩

/-! ## Loading a descriptor register -/

@[simp] theorem getDesc_setDesc (s : State) (r : Desc) (x : Vli) : (s.setDesc r x).getDesc r = x := by
  cases r <;> rfl

@[simp] theorem setDesc_setDesc (s : State) (r : Desc) (x y : Vli) :
    (s.setDesc r x).setDesc r y = s.setDesc r y := by
  cases r <;> rfl

/-- A write to the next limb of a register, on the state the earlier limb writes left. -/
theorem busWrite_desc_setDesc {s : State} (hb : s.status.busy = false) (hk : s.cfg.lock = false) (r : Desc) {i : Nat}
    (hi : i < 4) (x : Vli) (d : Limb) :
    (s.setDesc r x).busWrite (BitVec.ofNat 12 (descOffset r + 8 * i)) 0xFF d =
      (s.setDesc r (setLimb x ⟨i, hi⟩ d), .okay) := by
  obtain ⟨hst, -, -, hcfg⟩ := setDesc_fields s r x
  rw [busWrite_desc (by rw [hst, hb]) (by rw [hcfg, hk]) r hi, getDesc_setDesc, setDesc_setDesc]

theorem fourWrites_desc {s : State} (hb : s.status.busy = false) (hk : s.cfg.lock = false) (r : Desc)
    (d0 d1 d2 d3 : Limb) : FourWrites s (descOffset r) d0 d1 d2 d3 (s.setDesc r (d3 ++ d2 ++ d1 ++ d0)) := by
  rw [← setLimb_all (s.getDesc r)]
  exact ⟨_, _, _, busWrite_desc hb hk r (i := 0) (by decide) d0,
    busWrite_desc_setDesc hb hk r (i := 1) (by decide) _ d1, busWrite_desc_setDesc hb hk r (i := 2) (by decide) _ d2,
    busWrite_desc_setDesc hb hk r (i := 3) (by decide) _ d3⟩

/-- Settles O52: each write replaces one limb of the register that the writes before it left
(`busWrite_desc_setDesc`). -/
theorem fourWritesLoadADescriptorRegister : Obligations.FourWritesLoadADescriptorRegister := by
  intro s d0 d1 d2 d3 hb hk
  have h (r : Desc) := fourWrites_desc hb hk r d0 d1 d2 d3
  exact ⟨h .cp, h .cn, h .cb, h .cgx, h .cgy⟩

end Sys2Proof.Machine
end

section
/-! The host's side of the window (20_memory.md R80, R85): addresses and byte lanes. -/

namespace Sys2Proof.Machine

theorem offsetOf_hostAddress (off : BitVec 12) : offsetOf (hostAddress off) = some off := by
  have hlt := off.isLt
  have hin : Config.base ≤ hostAddress off ∧ hostAddress off < Config.base + Config.windowBytes := by
    rw [hostAddress, Config.windowBytes]
    omega
  rw [offsetOf, if_pos hin, hostAddress, Nat.add_sub_cancel_left, BitVec.ofNat_toNat, BitVec.setWidth_eq]

theorem offsetOf_outside {addr : Nat} (h : addr < Config.base ∨ Config.base + 4096 ≤ addr) : offsetOf addr = none := by
  refine if_neg ?_
  rw [Config.windowBytes]
  omega

theorem toNat_lane (d : Limb) (j : Fin 8) : (lane d j).toNat = d.toNat / 2 ^ (8 * j.val) % 2 ^ 8 := by
  rw [lane, BitVec.extractLsb'_toNat, Nat.shiftRight_eq_div_pow]

theorem toNat_ofLanes (b0 b1 b2 b3 b4 b5 b6 b7 : BitVec 8) : (ofLanes b0 b1 b2 b3 b4 b5 b6 b7).toNat =
    b0.toNat + b1.toNat * 2 ^ 8 + b2.toNat * 2 ^ 16 + b3.toNat * 2 ^ 24 + b4.toNat * 2 ^ 32
      + b5.toNat * 2 ^ 40 + b6.toNat * 2 ^ 48 + b7.toNat * 2 ^ 56 := by
  simp only [ofLanes, toNat_append_eq_add]
  omega

/-- The lanes of a value build it again. -/
theorem ofLanes_lane (d : Limb) :
    ofLanes (lane d 0) (lane d 1) (lane d 2) (lane d 3) (lane d 4) (lane d 5) (lane d 6) (lane d 7) = d := by
  have hlt := d.isLt
  apply BitVec.eq_of_toNat_eq
  simp only [toNat_ofLanes, toNat_lane, Fin.coe_ofNat_eq_mod, Nat.reduceMod, Nat.reduceMul, Nat.reducePow]
  omega

/-- Settles O53: the lanes of a value are its bytes (`toNat_lane`), whose sum it is (`toNat_ofLanes`). -/
theorem windowAddressesAndByteLanes : Obligations.WindowAddressesAndByteLanes :=
  ⟨fun off => ⟨rfl, offsetOf_hostAddress off⟩, fun _ => offsetOf_outside, toNat_lane, ofLanes_lane, toNat_ofLanes⟩

end Sys2Proof.Machine
end
